-- ==== Sys2Proof/Word.lean ====
section
/-! DEFINITION. The word types of the block: the widths of 00_scope.md rule R5. -/

namespace Sys2Proof

/-- A command word (R5: CW = 32; R90). -/
abbrev Word := BitVec 32

/-- An entry of IBUF or OBUF (R33, R34). -/
abbrev Byte := BitVec 8

/-- A symbol: a byte value, 0 to 255 (R5: NSYM = 256; R12). -/
abbrev Sym := BitVec 8

/-- An index into NODE (R5: IW = 9, NNODE = 512), so every index names an existing entry (R31). -/
abbrev NodeIdx := BitVec 9

/-- A count or a sum of counts (R5: WW = 56). -/
abbrev Weight := BitVec 56

/-- A register as the host reads it (R5: RW = 64). -/
abbrev Reg := BitVec 64

end Sys2Proof
end

