-- ==== Sys2Proof/Syntax.lean ====
section
/-! DEFINITION. The commands of the block, one constructor per row of spec/opcode_table.json (30_encoding.md
rule R92). A command has no register operand and no address operand (R91). -/

namespace Sys2Proof

/-- The 15 commands (R93). The operands are the fields A and B of the word, as they stand (R91). -/
inductive Instr where
  /-- SYS_NOP (R121) -/
  | sysNop
  /-- SYS_RESET (R122) -/
  | sysReset
  /-- TB_BUILD (R131) -/
  | tbBuild
  /-- TB_CLRF (R136) -/
  | tbClrf
  /-- CTG_GEN (R151) -/
  | ctgGen
  /-- BSW_INIT (R171) -/
  | bswInit
  /-- BSW_PUTBITS n, v (R172): A = n, the number of bits; B = v, the bits -/
  | bswPutbits (n : BitVec 8) (v : BitVec 16)
  /-- BSW_PUTSYM s (R173): A = s, the symbol -/
  | bswPutsym (s : Sym)
  /-- BSW_FLUSH (R174) -/
  | bswFlush
  /-- BSR_OPEN (R191) -/
  | bsrOpen
  /-- BSR_GETBITS n (R192): A = n, the number of bits -/
  | bsrGetbits (n : BitVec 8)
  /-- BSR_TRIM p (R193): A = p, the padding count -/
  | bsrTrim (p : BitVec 8)
  /-- DTW_START (R211) -/
  | dtwStart
  /-- DTW_STEP (R212) -/
  | dtwStep
  /-- DTW_RUN (R213) -/
  | dtwRun
deriving DecidableEq, Repr

end Sys2Proof
end

