-- ==== Sys2Proof/WellFormed.lean ====
section
/-! DEFINITION. Which terms of `Instr` are commands: the constraints on the operands A and B of
30_encoding.md rules R91 and R92. A term that breaks one has only illegal words (R95 d, e, f). -/

namespace Sys2Proof

/-- BSW_PUTBITS: A <= 16 and B < 2^A (R92, R95 d). -/
def wfPutbits (n : BitVec 8) (v : BitVec 16) : Bool :=
  decide (n.toNat ≤ 16) && decide (v.toNat < 2 ^ n.toNat)

/-- BSR_GETBITS: A <= 16 (R92, R95 e). -/
def wfGetbits (n : BitVec 8) : Bool := decide (n.toNat ≤ 16)

/-- BSR_TRIM: A <= 7 (R92, R95 f). -/
def wfTrim (p : BitVec 8) : Bool := decide (p.toNat ≤ 7)

/-- The operand constraints of rule R92. -/
def Instr.wf : Instr → Bool
  | .sysNop => true
  | .sysReset => true
  | .tbBuild => true
  | .tbClrf => true
  | .ctgGen => true
  | .bswInit => true
  | .bswPutbits n v => wfPutbits n v
  | .bswPutsym _ => true
  | .bswFlush => true
  | .bsrOpen => true
  | .bsrGetbits n => wfGetbits n
  | .bsrTrim p => wfTrim p
  | .dtwStart => true
  | .dtwStep => true
  | .dtwRun => true

/-- A well-formed command, as a proposition. -/
abbrev Instr.WellFormed (i : Instr) : Prop := i.wf = true

end Sys2Proof
end

