-- ==== Sys2Proof/Decode.lean ====
section
/-! DEFINITION. Decoding and encoding of command words (30_encoding.md rules R90 to R95). Decoding is total
on all 2^32 words; a word that is no command is rejected by the item of rule R95 it falls under. -/

namespace Sys2Proof

/-- The fields of format C (R90). -/
structure Fields where
  /-- UNIT = w[31:28] -/
  unit : BitVec 4
  /-- OP = w[27:24] -/
  op : BitVec 4
  /-- A = w[23:16] -/
  a : BitVec 8
  /-- B = w[15:0] -/
  b : BitVec 16
deriving DecidableEq, Repr

/-- Why a word is ILLEGAL: the items (a) to (f) of rule R95. -/
inductive Illegal where
  /-- (a) UNIT from 6 to 15 -/
  | noUnit
  /-- (b) a UNIT from 0 to 5 with an OP that has no row -/
  | noOp
  /-- (c) a nonzero bit in a field the row does not use -/
  | unusedField
  /-- (d) BSW_PUTBITS with A > 16 or B >= 2^A -/
  | putbitsRange
  /-- (e) BSR_GETBITS with A > 16 -/
  | getbitsRange
  /-- (f) BSR_TRIM with A > 7 -/
  | trimRange
deriving DecidableEq, Repr

/-- A word cut into its fields (R90). -/
def splitWord (w : Word) : Fields :=
  { unit := w.extractLsb' 28 4, op := w.extractLsb' 24 4, a := w.extractLsb' 16 8, b := w.extractLsb' 0 16 }

/-- The word with given fields (R90). -/
def joinFields (f : Fields) : Word := f.unit ++ f.op ++ f.a ++ f.b

/-- A row that uses neither A nor B (R91: "must be 0"). -/
def decodeBare (f : Fields) (i : Instr) : Except Illegal Instr :=
  if f.a = 0 ∧ f.b = 0 then .ok i else .error .unusedField

/-- A row that uses A only; `inRange` is its operand check, `out` the item of R95 a failing check gives. -/
def decodeA (f : Fields) (i : Instr) (inRange : Bool) (out : Illegal) : Except Illegal Instr :=
  if f.b = 0 then (if inRange then .ok i else .error out) else .error .unusedField

/-- BSW_PUTBITS, the one row that uses A and B (R91). -/
def decodePutbits (f : Fields) : Except Illegal Instr :=
  if wfPutbits f.a f.b then .ok (.bswPutbits f.a f.b) else .error .putbitsRange

/-- The opcode map (R92), by UNIT and OP. -/
def decodeFields (f : Fields) : Except Illegal Instr :=
  match f.unit.toNat, f.op.toNat with
  | 0, 0 => decodeBare f .sysNop
  | 0, 1 => decodeBare f .sysReset
  | 1, 0 => decodeBare f .tbBuild
  | 1, 1 => decodeBare f .tbClrf
  | 2, 0 => decodeBare f .ctgGen
  | 3, 0 => decodeBare f .bswInit
  | 3, 1 => decodePutbits f
  | 3, 2 => decodeA f (.bswPutsym f.a) true .unusedField
  | 3, 3 => decodeBare f .bswFlush
  | 4, 0 => decodeBare f .bsrOpen
  | 4, 1 => decodeA f (.bsrGetbits f.a) (wfGetbits f.a) .getbitsRange
  | 4, 2 => decodeA f (.bsrTrim f.a) (wfTrim f.a) .trimRange
  | 5, 0 => decodeBare f .dtwStart
  | 5, 1 => decodeBare f .dtwStep
  | 5, 2 => decodeBare f .dtwRun
  | u, _ => .error (if u < 6 then .noOp else .noUnit)

/-- Decoding with the reason of a rejection (R94, R95). -/
def decodeNamed (w : Word) : Except Illegal Instr := decodeFields (splitWord w)

/-- `Decode(w)` of rule R94: the command, or none for ILLEGAL. -/
def decode (w : Word) : Option Instr := (decodeNamed w).toOption

/-- The fields of a command's word: its opcode byte (R92) and its operands (R91). -/
def Instr.fields : Instr → Fields
  | .sysNop => { unit := 0, op := 0, a := 0, b := 0 }
  | .sysReset => { unit := 0, op := 1, a := 0, b := 0 }
  | .tbBuild => { unit := 1, op := 0, a := 0, b := 0 }
  | .tbClrf => { unit := 1, op := 1, a := 0, b := 0 }
  | .ctgGen => { unit := 2, op := 0, a := 0, b := 0 }
  | .bswInit => { unit := 3, op := 0, a := 0, b := 0 }
  | .bswPutbits n v => { unit := 3, op := 1, a := n, b := v }
  | .bswPutsym s => { unit := 3, op := 2, a := s, b := 0 }
  | .bswFlush => { unit := 3, op := 3, a := 0, b := 0 }
  | .bsrOpen => { unit := 4, op := 0, a := 0, b := 0 }
  | .bsrGetbits n => { unit := 4, op := 1, a := n, b := 0 }
  | .bsrTrim p => { unit := 4, op := 2, a := p, b := 0 }
  | .dtwStart => { unit := 5, op := 0, a := 0, b := 0 }
  | .dtwStep => { unit := 5, op := 1, a := 0, b := 0 }
  | .dtwRun => { unit := 5, op := 2, a := 0, b := 0 }

/-- The word of a command (R90, R92). -/
def encode (i : Instr) : Word := joinFields i.fields

/-- The command word made of the low `nbits` bits of `w`, bit 0 the least significant, the bits above them
zero; a command is one 32-bit word, so nothing above bit 31 is kept (R90, R97). -/
def tableWord (nbits w : Nat) : Word := BitVec.ofNat 32 (w % 2 ^ nbits)

/-- What the decoder reads from a word numbered as spec/opcode_table.json numbers it. -/
def decodeTableWord (nbits w : Nat) : Option Instr := decode (tableWord nbits w)

end Sys2Proof
end

