-- ==== Sys2Proof/Config.lean ====
section
/-! DEFINITION. What the spec leaves to the implementation or leaves without a value. Every constant
here that has no body is uninterpreted: nothing in Lean can evaluate it, so a claim holds whatever it is.
No instruction reads this file's capacities directly: they reach the block as the constant fields
`State.ocap` and `State.icap` (log entry 3). -/

namespace Sys2Proof

/-- The open choice behind OCAP (R5, D15). DESIGN CHOICE, log entry 3. -/
opaque Config.ocapChoice : BitVec 56

/-- The open choice behind ICAP (R5, D15). DESIGN CHOICE, log entry 3. -/
opaque Config.icapChoice : BitVec 56

/-- OCAP, the capacity of OBUF in bytes: some number with 1 <= OCAP < 2^56 (R5), any of them as the choice
varies. It is written as a successor so that Lean can see without knowing the choice that it is not 0. -/
def Config.ocap : Nat := min Config.ocapChoice.toNat (2 ^ 56 - 2) + 1

/-- ICAP, the capacity of IBUF in bytes: some number with 1 <= ICAP < 2^56 (R5), written like `Config.ocap`. -/
def Config.icap : Nat := min Config.icapChoice.toNat (2 ^ 56 - 2) + 1

/-- The contents of IBUF that nothing has written, by the number of SYS_RESETs executed and the index:
"a function from index to byte, chosen by the environment at each reset" (93_implementation_defined.md
U1; R33, R321). A free value, log entry 4. -/
opaque Config.ibufFree : Nat → Nat → Byte

/-- What a host read of an OBUF byte at or beyond WLEN returns, by the number of commands and host writes
executed and the index (93_implementation_defined.md U2; R34). A free value, log entry 5. -/
opaque Config.obufFree : Nat → Nat → Byte

end Sys2Proof
end

