-- ==== Sys2Proof/Machine/State.lean ====
section
/-! DEFINITION. The state of the block (10_state.md rules R20 to R38) as plain data, the operations of the
host (20_memory.md rule R70) and what they return (30_encoding.md rule R96), the reasons a step can stop,
and the state after reset (R38). -/

namespace Sys2Proof.Machine

/-- The five STATUS flags (R23). -/
inductive Flag where
  /-- STATUS[0]: ROOT names the root of the tree the units shall use -/
  | treeValid
  /-- STATUS[1]: CODE was generated from the present NODE and ROOT -/
  | codeValid
  /-- STATUS[2]: the walker has a valid start point -/
  | armed
  /-- STATUS[3]: the walker met the placeholder -/
  | phSeen
  /-- STATUS[4]: the block is locked by a fault -/
  | errf
deriving DecidableEq, Repr

/-- The causes of the faults the block raises (60_exceptions.md rule R281). A spec fault is a value
returned to the host and a NEXT state of the machine (R283), never an `Outcome.fault`. -/
inductive Cause where
  | illegalCmd
  | emptyTable
  | weightOvf
  | noTree
  | badTree
  | badNode
  | dupSymbol
  | staleCode
  | noCode
  | overflow
  | badLen
  | underrun
  | padRange
  | padNonzero
  | notArmed
  | truncSymbol
deriving DecidableEq, Repr

/-- KIND of a NODE entry (R31); all four codes are used. -/
inductive NodeKind where
  /-- code 0: no node -/
  | free
  /-- code 1: a node with two children -/
  | internal
  /-- code 2: a real symbol -/
  | leaf
  /-- code 3: the synthetic leaf -/
  | placeholder
deriving DecidableEq, Repr

/-- A NODE entry (R31). SYM, LEFT and RIGHT are stored as written for every kind (X6). -/
structure Node where
  kind : NodeKind
  sym : Sym
  left : NodeIdx
  right : NodeIdx
  weight : Weight
deriving DecidableEq, Repr

/-- A CODE entry (R32): LEN, 0 meaning no code, and BITS, the code right-aligned. -/
structure CodeEntry where
  len : BitVec 8
  bits : BitVec 255
deriving DecidableEq, Repr

/-- The field ST of a response (R96); the code 3 never occurs. -/
inductive RespStatus where
  | ok
  | fault
  | locked
deriving DecidableEq, Repr

/-- The response of a command (R96). -/
structure Response where
  st : RespStatus
  cause : BitVec 8
  value : BitVec 64
deriving DecidableEq, Repr

/-- The three operations of the host port (R70). Space numbers, indices and written values are numbers
without a width of their own (R65, R69, R70). -/
inductive HostOp where
  /-- Cmd(w) -/
  | cmd (w : Word)
  /-- HostRead(space, idx) -/
  | read (space idx : Nat)
  /-- HostWrite(space, idx, v) -/
  | write (space idx v : Nat)
deriving DecidableEq, Repr

/-- What a host operation returns to the host (R70). -/
inductive Reply where
  /-- a command returns its response (R96) -/
  | response (r : Response)
  /-- a host read returns the entry as a number -/
  | data (v : Nat)
  /-- a host write returns nothing -/
  | written
deriving DecidableEq, Repr

/-- A byte memory: (index, byte) pairs with strictly rising indices (`Memory.wf`). An index that is not
listed holds no value of its own: what reading it gives is a free value (log entries 4 and 5). -/
abbrev Memory := List Host.Cell

/-- The one canonical form of a byte memory. -/
abbrev Memory.wf (m : Memory) : Prop := m.Pairwise (fun x y => x.1 < y.1)

/-- Why the machine stops. Neither happens in a state that meets the invariants of R35 ("a state that
breaks one is not reachable and the command rules need give it no meaning"), log entry 7. -/
inductive Fault where
  /-- raised by BSR_GETBITS, BSR_TRIM, DTW_STEP and DTW_RUN when they would read a bit position p with
  p >= 8*ICAP, outside IBUF (R62). Safe: the model stops where the spec gives no meaning. -/
  | ibufOutside
  /-- raised by BSW_PUTBITS, BSW_PUTSYM, BSW_FLUSH, DTW_STEP and DTW_RUN when AppendBit would store at an
  index WLEN >= OCAP, outside OBUF (R64). Safe: the model stops where the spec gives no meaning. -/
  | obufOutside
deriving DecidableEq, Repr

/-- Why an instruction has no meaning here. -/
inductive Refusal where
  /-- raised by `exec` alone, for a command that has no meaning yet. Safe. No arm of `exec` raises it. -/
  | notModelled (mnemonic : String)
deriving DecidableEq, Repr

/-- The state: the 14 registers and five memories of R20, the two parameters of R5 that are open, and
four fields of the model's own. -/
structure State where
  /-- STATUS[4:0] (R23) -/
  status : BitVec 5
  /-- ERR[11:0] = UNIT ++ CAUSE (R24) -/
  err : BitVec 12
  /-- ERRCMD (R24) -/
  errcmd : Word
  /-- ROOT (R25) -/
  root : NodeIdx
  /-- TOTBITS (R26) -/
  totbits : BitVec 64
  /-- WLEN (R27) -/
  wlen : BitVec 64
  /-- WCNT (R27) -/
  wcnt : BitVec 3
  /-- WACC (R27) -/
  wacc : BitVec 8
  /-- LASTPAD (R27) -/
  lastpad : BitVec 3
  /-- ILEN (R28) -/
  ilen : BitVec 64
  /-- RPOS (R28) -/
  rpos : BitVec 64
  /-- RLIM (R28) -/
  rlim : BitVec 64
  /-- CUR (R29) -/
  cur : NodeIdx
  /-- SYMCNT (R29) -/
  symcnt : BitVec 64
  /-- FREQ (R30) -/
  freq : Vector Weight 256
  /-- NODE (R31) -/
  node : Vector Node 512
  /-- CODE (R32) -/
  code : Vector CodeEntry 256
  /-- IBUF (R33) -/
  ibuf : Memory
  /-- OBUF (R34) -/
  obuf : Memory
  /-- OCAP (R5), constant: no operation writes it. Log entry 3. -/
  ocap : Nat
  /-- ICAP (R5), constant: no operation writes it. Log entry 3. -/
  icap : Nat
  /-- the host operations issued and not yet executed, oldest first (R70, R71). The model's own, log entry 1. -/
  pending : List HostOp
  /-- what the last executed host operation returned. The model's own, log entry 2. -/
  reply : Option Reply
  /-- how many SYS_RESETs were executed: selects the free contents of IBUF. The model's own, log entry 4. -/
  resets : Nat
  /-- how many commands and host writes were executed: selects the free value of an OBUF byte at or beyond
  WLEN. The model's own, log entry 5. -/
  ops : Nat
deriving DecidableEq, Repr

/-- The all-zero NODE entry: KIND = FREE (R38). -/
def Node.zero : Node := { kind := .free, sym := 0, left := 0, right := 0, weight := 0 }

/-- The all-zero CODE entry: no code (R38). -/
def CodeEntry.zero : CodeEntry := { len := 0, bits := 0 }

/-- The machine right after reset (R38, R320): every register 0, FREQ, NODE and CODE all zero, IBUF and OBUF
with nothing listed. The capacities are Config's; the model's own fields start empty (log entries 1 to 5). -/
def State.reset : State :=
  { status := 0, err := 0, errcmd := 0, root := 0, totbits := 0
    wlen := 0, wcnt := 0, wacc := 0, lastpad := 0
    ilen := 0, rpos := 0, rlim := 0, cur := 0, symcnt := 0
    freq := Vector.replicate 256 0
    node := Vector.replicate 512 Node.zero
    code := Vector.replicate 256 CodeEntry.zero
    ibuf := [], obuf := []
    ocap := Config.ocap, icap := Config.icap
    pending := [], reply := none, resets := 0, ops := 0 }

end Sys2Proof.Machine
end

