-- ==== Sys2Proof/Machine/Flags.lean ====
section
/-! DEFINITION. The STATUS flags (10_state.md rules R23, R36): their places and how they are read and
written. The block has no arithmetic condition code (R36), so these are all its flag computations. -/

namespace Sys2Proof.Machine

/-- The bit of STATUS a flag is (R23). -/
def flagPos : Flag → Nat
  | .treeValid => 0
  | .codeValid => 1
  | .armed => 2
  | .phSeen => 3
  | .errf => 4

/-- A flag of a STATUS value. -/
def getFlag (st : BitVec 5) (f : Flag) : Bool := st.getLsbD (flagPos f)

/-- A STATUS value with one flag written. -/
def putFlag (st : BitVec 5) (f : Flag) (v : Bool) : BitVec 5 :=
  if v then st ||| (1#5 <<< flagPos f) else st &&& ~~~(1#5 <<< flagPos f)

/-- STATUS.f -/
def State.flag (s : State) (f : Flag) : Bool := getFlag s.status f

end Sys2Proof.Machine
end

