-- ==== Sys2Proof/Machine/Operands.lean ====
section
/-! DEFINITION. Operand forms and bit fields: the order of a field's bits in the stream (20_memory.md rules
R61, R63), the codes of the causes (60_exceptions.md rule R281), and the packed forms in which entries and
responses cross the host port (10_state.md rules R31, R32; 30_encoding.md rule R96). -/

namespace Sys2Proof.Machine

/-- The `n` low bits of `v` in stream order, v[n-1] first (R63). -/
def msbFirst : Nat → Nat → List Bool
  | 0, _ => []
  | n + 1, v => v.testBit n :: msbFirst n v

/-- The code of a cause: the value of ERR.CAUSE (R281). -/
def causeCode : Cause → BitVec 8
  | .illegalCmd => 0x01
  | .emptyTable => 0x02
  | .weightOvf => 0x03
  | .noTree => 0x04
  | .badTree => 0x05
  | .badNode => 0x06
  | .dupSymbol => 0x07
  | .staleCode => 0x08
  | .noCode => 0x09
  | .overflow => 0x0A
  | .badLen => 0x0B
  | .underrun => 0x0C
  | .padRange => 0x0D
  | .padNonzero => 0x0E
  | .notArmed => 0x0F
  | .truncSymbol => 0x10

/-- ERR.CAUSE = ERR[7:0] (R24). -/
def errCause (e : BitVec 12) : BitVec 8 := e.extractLsb' 0 8

/-- ERR.UNIT = ERR[11:8] (R24). -/
def errUnit (e : BitVec 12) : BitVec 4 := e.extractLsb' 8 4

/-- The KIND code of a node (R31). -/
def kindCode : NodeKind → BitVec 2
  | .free => 0
  | .internal => 1
  | .leaf => 2
  | .placeholder => 3

/-- The kind with a given code (R31). -/
def kindOfCode (k : BitVec 2) : NodeKind :=
  if k = 0 then .free else if k = 1 then .internal else if k = 2 then .leaf else .placeholder

/-- The packed 84-bit NODE entry (R31). -/
def packNode (n : Node) : BitVec 84 := kindCode n.kind ++ n.sym ++ n.left ++ n.right ++ n.weight

/-- The NODE entry of a packed value (R31). -/
def unpackNode (v : BitVec 84) : Node :=
  { kind := kindOfCode (v.extractLsb' 82 2)
    sym := v.extractLsb' 74 8
    left := v.extractLsb' 65 9
    right := v.extractLsb' 56 9
    weight := v.extractLsb' 0 56 }

/-- The packed 263-bit CODE entry: BITS = [262:8], LEN = [7:0] (R32). -/
def packCode (c : CodeEntry) : BitVec 263 := c.bits ++ c.len

/-- The code of ST (R96). -/
def respCode : RespStatus → BitVec 2
  | .ok => 0
  | .fault => 1
  | .locked => 2

/-- The packed 74-bit response (R96). -/
def packResponse (r : Response) : BitVec 74 := respCode r.st ++ r.cause ++ r.value

/-- The code of a symbol as a bit string, first bit first: BITS[LEN-1], ..., BITS[0] (R32). -/
def codeString (c : CodeEntry) : List Bool := msbFirst c.len.toNat c.bits.toNat

end Sys2Proof.Machine
end

