-- ==== Sys2Proof/Machine/Ops.lean ====
section
/-! DEFINITION. The named operations over registers and memories that the command rules share: responding,
fault entry (60_exceptions.md rule R283), the locked state (R284), access to FREQ, NODE, CODE, IBUF and
OBUF, the read primitive RdBit and the write primitive AppendBit (20_memory.md rules R62, R64).
Arithmetic is on unbounded numbers (R7) and is narrowed where a result is stored. -/

namespace Sys2Proof.Machine

/-- How a command ends in the model. -/
abbrev Result := Host.Outcome State Fault Refusal

/-! ### Responses, faults, the locked state -/

/-- resp(v): the command ends OK with value v (R7, R96). -/
def respond (v : BitVec 64) (s : State) : State := { s with reply := some (.response ⟨.ok, 0, v⟩) }

/-- `raise E_X` while executing the word w: "does exactly this and nothing else" (R283). The block has one
mode and no handler; control goes back to the host with the response. There is no return from a fault: the
locked state ends with SYS_RESET (R290). -/
def raiseFault (c : Cause) (w : Word) (s : State) : State :=
  { s with
    status := putFlag s.status .errf true
    err := w.extractLsb' 28 4 ++ causeCode c
    errcmd := w
    reply := some (.response ⟨.fault, causeCode c, 0⟩) }

/-- The answer of a locked block: nothing is done (R284). -/
def lockedReply (s : State) : State :=
  { s with reply := some (.response ⟨.locked, errCause s.err, 0⟩) }

/-- The dispatch every command but SYS_RESET goes through before its own pseudocode (R285): locked first,
then an operand that no legal word holds (R95 d, e, f), then the command. -/
def guarded (i : Instr) (s : State) (body : Result) : Result :=
  if s.flag .errf then .next (lockedReply s)
  else if i.wf then body
  else .next (raiseFault .illegalCmd (encode i) s)

/-- Ends a command with a cause (R283); `s` is the state the fault leaves but for the error registers. -/
def failWith (c : Cause) (i : Instr) (s : State) : Result := .next (raiseFault c (encode i) s)

/-- Ends a command OK (R96). -/
def finish (v : BitVec 64) (s : State) : Result := .next (respond v s)

/-! ### FREQ, NODE, CODE -/

/-- FREQ[k] (R30). -/
def freqAt (s : State) (k : Sym) : Weight := s.freq[k.toNat]'(k.isLt)

/-- NODE[i] of a node memory (R31): every 9-bit index names an entry. -/
def nodeOf (m : Vector Node 512) (i : NodeIdx) : Node := m[i.toNat]'(i.isLt)

/-- NODE[i] (R31). -/
def nodeAt (s : State) (i : NodeIdx) : Node := nodeOf s.node i

/-- NODE[i] <- n -/
def putNode (m : Vector Node 512) (i : NodeIdx) (n : Node) : Vector Node 512 := m.set i.toNat n i.isLt

/-- CODE[k] of a code table (R32). -/
def codeOf (t : Vector CodeEntry 256) (k : Sym) : CodeEntry := t[k.toNat]'(k.isLt)

/-- CODE[k] <- c -/
def putCode (t : Vector CodeEntry 256) (k : Sym) (c : CodeEntry) : Vector CodeEntry 256 :=
  t.set k.toNat c k.isLt

/-- FREQ all zero. -/
def noCounts : Vector Weight 256 := Vector.replicate 256 0

/-- NODE all zero: every entry FREE. -/
def noNodes : Vector Node 512 := Vector.replicate 512 Node.zero

/-- CODE all zero: no symbol has a code. -/
def noCodes : Vector CodeEntry 256 := Vector.replicate 256 CodeEntry.zero

/-! ### The byte memories -/

/-- The byte listed at an index, if one is. -/
def memFind : Memory → Nat → Option Byte
  | [], _ => none
  | (a, b) :: m, k => if k = a then some b else memFind m k

/-- The memory with a byte listed at an index; the order of the indices is kept. -/
def memInsert : Memory → Nat → Byte → Memory
  | [], k, v => [(k, v)]
  | (a, b) :: m, k, v =>
    if k < a then (k, v) :: (a, b) :: m
    else if k = a then (k, v) :: m
    else (a, b) :: memInsert m k v

/-- IBUF[k]: the byte last written, or the free value of an index not written since reset (R33, U1). -/
def ibufByte (s : State) (k : Nat) : Byte := (memFind s.ibuf k).getD (Config.ibufFree s.resets k)

/-- OBUF[k] as the host reads it: a byte of the output below WLEN, the free value from WLEN on (R34, U2). -/
def obufByte (s : State) (k : Nat) : Byte :=
  if k < s.wlen.toNat then (memFind s.obuf k).getD (Config.obufFree s.ops k) else Config.obufFree s.ops k

/-! ### The writer -/

/-- WBITS = 8*WLEN + WCNT (R27). -/
def wbits (s : State) : Nat := 8 * s.wlen.toNat + s.wcnt.toNat

/-- A byte with bit `k` written. -/
def putBit (acc : BitVec 8) (k : Nat) (b : Bool) : BitVec 8 :=
  if b then acc ||| (1#8 <<< k) else acc &&& ~~~(1#8 <<< k)

/-- AppendBit(b) (R64). The store goes to OBUF[WLEN]; "the store OBUF[WLEN] <- WACC always has WLEN <
OCAP", and where it had not, the model stops (log entry 7). -/
def appendBit (b : Bool) (s : State) : Except Fault State :=
  let acc := putBit s.wacc (7 - s.wcnt.toNat) b
  if s.wcnt.toNat + 1 = 8 then
    if s.wlen.toNat < s.ocap then
      .ok { s with
        obuf := memInsert s.obuf s.wlen.toNat acc
        wlen := s.wlen + 1
        wacc := 0
        wcnt := 0 }
    else .error .obufOutside
  else .ok { s with wacc := acc, wcnt := s.wcnt + 1 }

/-- AppendBit for each bit of a bit string, first bit first. -/
def appendBits : List Bool → State → Except Fault State
  | [], s => .ok s
  | b :: bs, s =>
    match appendBit b s with
    | .ok t => appendBits bs t
    | .error f => .error f

/-- The capacity check of every writing command fails: `8*WLEN + WCNT + n > 8*OCAP` (R64, R14). -/
def overflows (s : State) (n : Nat) : Bool := decide (8 * s.ocap < wbits s + n)

/-! ### The reader -/

/-- RdBit(p) = IBUF[p div 8][7 - (p mod 8)] for 0 <= p < 8*ICAP (R62); outside IBUF the model stops (log
entry 7). -/
def rdBit (s : State) (p : Nat) : Except Fault Bool :=
  if p < 8 * s.icap then .ok ((ibufByte s (p / 8)).getLsbD (7 - p % 8)) else .error .ibufOutside

/-- Reads `n` bits from position `p` on: v = 2*v + RdBit(p + j) for j = 0 to n-1 (R192). -/
def readBits (s : State) : Nat → Nat → Nat → Except Fault Nat
  | 0, _, v => .ok v
  | n + 1, p, v =>
    match rdBit s p with
    | .ok b => readBits s n (p + 1) (2 * v + b.toNat)
    | .error f => .error f

/-- Whether one of the `n` bits from position `p` on is 1, looking at them in order and no further than the
first that is (R193). -/
def anyOne (s : State) : Nat → Nat → Except Fault Bool
  | 0, _ => .ok false
  | n + 1, p =>
    match rdBit s p with
    | .ok true => .ok true
    | .ok false => anyOne s n (p + 1)
    | .error f => .error f

end Sys2Proof.Machine
end

