-- ==== Sys2Proof/Machine/CodeTableGen.lean ====
section
/-! DEFINITION. huffman_code_table_gen: CTG_GEN (42_code_table_gen.md). -/

namespace Sys2Proof.Machine

/-- What Gen carries along (R151): the table T, whether a placeholder was met (PHN), SUM and N. -/
structure GenAcc where
  table : Vector CodeEntry 256
  phMet : Bool
  sum : Nat
  coded : Nat
deriving DecidableEq, Repr

/-- The start of Gen's variables (R151). -/
def genStart : GenAcc := { table := noCodes, phMet := false, sum := 0, coded := 0 }

/-- The depth at which no INTERNAL node may stand (R5: MAXLEN; R151). -/
def maxLen : Nat := 255

/-- Gen at a node whose children are not walked: the cases FREE, LEAF and PLACEHOLDER, and an INTERNAL node
at depth 255 (R151). `d` is the depth, `p` the path as a number. -/
def genVisit (n : Node) (d p : Nat) (acc : GenAcc) : Except Cause GenAcc :=
  match n.kind with
  | .free => .error .badNode
  | .internal => .error .badTree
  | .leaf =>
    if (codeOf acc.table n.sym).len ≠ 0 then .error .dupSymbol
    else .ok { acc with
      table := putCode acc.table n.sym { len := BitVec.ofNat 8 d, bits := BitVec.ofNat 255 p }
      sum := acc.sum + n.weight.toNat * d
      coded := acc.coded + 1 }
  | .placeholder => if acc.phMet then .error .badTree else .ok { acc with phMet := true }

/-- Gen(i, d, p) of R151 with `rem` = 255 - d levels left: left subtree wholly before right subtree, the
first fault met is the one reported. -/
def gen (m : Vector Node 512) : (rem : Nat) → NodeIdx → (p : Nat) → GenAcc → Except Cause GenAcc
  | 0, i, p, acc => genVisit (nodeOf m i) maxLen p acc
  | rem + 1, i, p, acc =>
    match (nodeOf m i).kind with
    | .internal =>
      match gen m rem (nodeOf m i).left (2 * p) acc with
      | .ok acc' => gen m rem (nodeOf m i).right (2 * p + 1) acc'
      | .error c => .error c
    | .free => genVisit (nodeOf m i) (maxLen - (rem + 1)) p acc
    | .leaf => genVisit (nodeOf m i) (maxLen - (rem + 1)) p acc
    | .placeholder => genVisit (nodeOf m i) (maxLen - (rem + 1)) p acc

/-- CTG_GEN's walk of the tree at a root, the root check included (R151). -/
def genTable (m : Vector Node 512) (root : NodeIdx) : Except Cause GenAcc :=
  if (nodeOf m root).kind = .internal then gen m maxLen root 0 genStart else .error .badTree

/-- CTG_GEN after E_NO_TREE is ruled out: "the old table is gone whatever happens" (R151). -/
def tableCleared (s : State) : State :=
  { s with code := noCodes, totbits := 0, status := putFlag s.status .codeValid false }

/-- CTG_GEN's result written (R151): TOTBITS is SUM modulo 2^64. -/
def tableWritten (acc : GenAcc) (s : State) : State :=
  { s with
    code := acc.table
    totbits := BitVec.ofNat 64 acc.sum
    status := putFlag s.status .codeValid true }

/-- CTG_GEN generates the code table from the tree (R151). A fault after the table is cleared leaves it
cleared (R288). -/
def execCtgGen (s : State) : Result :=
  guarded .ctgGen s <|
    if s.flag .treeValid = false then failWith .noTree .ctgGen s
    else match genTable s.node s.root with
      | .error c => failWith c .ctgGen (tableCleared s)
      | .ok acc => finish (BitVec.ofNat 64 acc.coded) (tableWritten acc s)

end Sys2Proof.Machine
end

