-- ==== Sys2Proof/Machine/Reader.lean ====
section
/-! DEFINITION. bitstream_reader: BSR_OPEN, BSR_GETBITS, BSR_TRIM (44_bitstream_reader.md). -/

namespace Sys2Proof.Machine

/-- BSR_OPEN starts reading IBUF[0..ILEN-1] from its first bit (R191). -/
def execBsrOpen (s : State) : Result :=
  guarded .bsrOpen s <|
    if s.icap < s.ilen.toNat then failWith .badLen .bsrOpen s
    else finish (BitVec.ofNat 64 (8 * s.ilen.toNat))
      { s with rpos := 0, rlim := BitVec.ofNat 64 (8 * s.ilen.toNat) }

/-- BSR_GETBITS n reads the next n bits as an unsigned number, first bit most significant (R192). -/
def execBsrGetbits (n : BitVec 8) (s : State) : Result :=
  guarded (.bsrGetbits n) s <|
    if s.rlim.toNat < s.rpos.toNat + n.toNat then failWith .underrun (.bsrGetbits n) s
    else match readBits s n.toNat s.rpos.toNat 0 with
      | .ok v => finish (BitVec.ofNat 64 v) { s with rpos := BitVec.ofNat 64 (s.rpos.toNat + n.toNat) }
      | .error f => .fault f

/-- BSR_TRIM p takes the last p bits before RLIM out of the stream, after checking that they exist and are
zero (R193). -/
def execBsrTrim (p : BitVec 8) (s : State) : Result :=
  guarded (.bsrTrim p) s <|
    if s.rlim.toNat - s.rpos.toNat < p.toNat then failWith .padRange (.bsrTrim p) s
    else match anyOne s p.toNat (s.rlim.toNat - p.toNat) with
      | .ok true => failWith .padNonzero (.bsrTrim p) s
      | .ok false =>
        finish (BitVec.ofNat 64 (s.rlim.toNat - p.toNat - s.rpos.toNat))
          { s with rlim := BitVec.ofNat 64 (s.rlim.toNat - p.toNat) }
      | .error f => .fault f

end Sys2Proof.Machine
end

