-- ==== Sys2Proof/Machine/Sys.lean ====
section
/-! DEFINITION. The system commands SYS_NOP and SYS_RESET (40_sys.md). -/

namespace Sys2Proof.Machine

/-- SYS_NOP does nothing (R121). -/
def execSysNop (s : State) : Result := guarded .sysNop s (finish 0 s)

/-- The reset state of R38 in the block at hand: the capacities stay, the host's operations not yet
executed stay, and the contents of IBUF are forgotten, so that they are free anew (R122, U1). -/
def resetState (s : State) : State :=
  { State.reset with
    ocap := s.ocap, icap := s.icap
    pending := s.pending, reply := s.reply
    resets := s.resets + 1, ops := s.ops }

/-- SYS_RESET puts the block into the reset state; "the one command that executes when the block is
locked" (R122, R290). -/
def execSysReset (s : State) : Result := finish 0 (resetState s)

end Sys2Proof.Machine
end

