-- ==== Sys2Proof/Machine/TreeBuilder.lean ====
section
/-! DEFINITION. huffman_tree_builder: TB_BUILD and TB_CLRF (41_tree_builder.md). -/

namespace Sys2Proof.Machine

/-- All 256 symbols, ascending. -/
def allSyms : List Sym := (List.range 256).map (BitVec.ofNat 8)

/-- The symbols with a nonzero count, ascending; K is their number (R131). -/
def countedSyms (f : Vector Weight 256) : List Sym :=
  allSyms.filter (fun k => f[k.toNat]'(k.isLt) ≠ 0)

/-- TOTAL = the sum of the FREQ entries, exact (R131, R14). -/
def totalCount (f : Vector Weight 256) : Nat :=
  (allSyms.map (fun k => (f[k.toNat]'(k.isLt)).toNat)).sum

/-- The index of the leaf of symbol k (R131, D8). -/
def leafIdx (k : Sym) : NodeIdx := k.setWidth 9

/-- The index of the placeholder (R131). -/
def placeholderIdx : NodeIdx := 256

/-- A leaf node for symbol k (R131). -/
def leafNode (k : Sym) (w : Weight) : Node := { kind := .leaf, sym := k, left := 0, right := 0, weight := w }

/-- The placeholder node: weight 0 (R133). -/
def placeholderNode : Node := { kind := .placeholder, sym := 0, left := 0, right := 0, weight := 0 }

/-- A node merged from the nodes at a and b (R131). -/
def mergedNode (m : Vector Node 512) (a b : NodeIdx) : Node :=
  { kind := .internal, sym := 0, left := a, right := b
    weight := (nodeOf m a).weight + (nodeOf m b).weight }

/-- The order of candidates: by weight, then by index (R132). -/
def comesBefore (m : Vector Node 512) (i j : NodeIdx) : Bool :=
  decide ((nodeOf m i).weight < (nodeOf m j).weight)
    || (decide ((nodeOf m i).weight = (nodeOf m j).weight) && decide (i < j))

/-- The least of `a` and the members of a list in the order of R132. -/
def leastOf (m : Vector Node 512) : NodeIdx → List NodeIdx → NodeIdx
  | a, [] => a
  | a, b :: rest => leastOf m (if comesBefore m b a then b else a) rest

/-- The merge loop of R131: while ACTIVE has more than one member, its two least are merged into the node at
`next`. `fuel` bounds the number of merges; with fuel >= the number of members it never runs out, since a
merge makes ACTIVE one smaller. Gives NODE and the one member left. -/
def mergeLoop : (fuel : Nat) → Vector Node 512 → List NodeIdx → (next : NodeIdx) → Vector Node 512 × NodeIdx
  | 0, m, act, _ => (m, act.headD 0)
  | _ + 1, m, [], _ => (m, 0)
  | fuel + 1, m, x :: xs, next =>
    let a := leastOf m x xs
    match (x :: xs).erase a with
    | [] => (m, a)
    | y :: ys =>
      let b := leastOf m y ys
      mergeLoop fuel (putNode m next (mergedNode m a b)) (((y :: ys).erase b) ++ [next]) (next + 1)

/-- NODE with the leaves of the counted symbols and, when there is exactly one, the placeholder (R131, R133). -/
def leafNodes (f : Vector Weight 256) : Vector Node 512 :=
  let withLeaves := (countedSyms f).foldl (fun m k => putNode m (leafIdx k) (leafNode k (f[k.toNat]'(k.isLt)))) noNodes
  if (countedSyms f).length = 1 then putNode withLeaves placeholderIdx placeholderNode else withLeaves

/-- The candidates the merging starts from (R131, R133). -/
def firstCandidates (f : Vector Weight 256) : List NodeIdx :=
  (countedSyms f).map leafIdx ++ (if (countedSyms f).length = 1 then [placeholderIdx] else [])

/-- The tree of a frequency table: NODE and ROOT (R131). -/
def buildTree (f : Vector Weight 256) : Vector Node 512 × NodeIdx :=
  mergeLoop (firstCandidates f).length (leafNodes f) (firstCandidates f) 257

/-- TB_BUILD after its checks: NODE and ROOT are the tree, TREE_VALID 1, CODE_VALID and ARMED 0 (R131). -/
def treeBuilt (s : State) : State :=
  { s with
    node := (buildTree s.freq).1
    root := (buildTree s.freq).2
    status := putFlag (putFlag (putFlag s.status .codeValid false) .armed false) .treeValid true }

/-- TB_BUILD builds the tree (R131; E_EMPTY_TABLE R137, E_WEIGHT_OVF R138). -/
def execTbBuild (s : State) : Result :=
  guarded .tbBuild s <|
    if (countedSyms s.freq).length = 0 then failWith .emptyTable .tbBuild s
    else if 2 ^ 56 ≤ totalCount s.freq then failWith .weightOvf .tbBuild s
    else finish ((treeBuilt s).root.setWidth 64) (treeBuilt s)

/-- TB_CLRF clears the frequency table (R136). -/
def execTbClrf (s : State) : Result := guarded .tbClrf s (finish 0 { s with freq := noCounts })

end Sys2Proof.Machine
end

