-- ==== Sys2Proof/Machine/Walker.lean ====
section
/-! DEFINITION. huffman_decoder_tree_walker: DTW_START, DTW_STEP, DTW_RUN (45_tree_walker.md). -/

namespace Sys2Proof.Machine

/-- DTW_START arms the walker at the root (R211). -/
def execDtwStart (s : State) : Result :=
  guarded .dtwStart s <|
    if s.flag .treeValid = false then failWith .noTree .dtwStart s
    else if (nodeAt s s.root).kind ≠ .internal then failWith .badTree .dtwStart s
    else finish (s.root.setWidth 64)
      { s with
        cur := s.root
        symcnt := 0
        status := putFlag (putFlag s.status .phSeen false) .armed true }

/-- How the pseudocode of DTW_STEP ends (R212). -/
inductive StepEnd where
  /-- one bit was consumed; the response value and the state -/
  | moved (value : BitVec 64) (t : State)
  /-- a check failed before anything was written -/
  | raised (c : Cause)
  /-- a position outside a buffer (log entry 7) -/
  | outside (f : Fault)

/-- The node one edge down from CUR: LEFT on 0, RIGHT on 1 (R212). -/
def childOn (s : State) (b : Bool) : NodeIdx := if b then (nodeAt s s.cur).right else (nodeAt s s.cur).left

/-- The LEAF case: the bit is consumed, the symbol is emitted as 8 bits, the walk restarts (R212). -/
def emitLeaf (k : Sym) (s : State) : StepEnd :=
  if overflows s 8 then .raised .overflow
  else match appendBits (msbFirst 8 k.toNat) { s with rpos := s.rpos + 1 } with
    | .ok t => .moved (0x100 + k.setWidth 64) { t with symcnt := t.symcnt + 1, cur := t.root }
    | .error f => .outside f

/-- The pseudocode of DTW_STEP without its response (R212). -/
def walkStep (s : State) : StepEnd :=
  if s.flag .armed = false then .raised .notArmed
  else if s.rlim.toNat ≤ s.rpos.toNat then .raised .underrun
  else match rdBit s s.rpos.toNat with
    | .error f => .outside f
    | .ok b =>
      match (nodeAt s (childOn s b)).kind with
      | .free => .raised .badNode
      | .internal => .moved 0x000 { s with rpos := s.rpos + 1, cur := childOn s b }
      | .leaf => emitLeaf (nodeAt s (childOn s b)).sym s
      | .placeholder =>
        .moved 0x200 { s with rpos := s.rpos + 1, cur := s.root, status := putFlag s.status .phSeen true }

/-- DTW_STEP consumes one payload bit and moves one edge down the tree (R212). -/
def execDtwStep (s : State) : Result :=
  guarded .dtwStep s <|
    match walkStep s with
    | .moved v t => finish v t
    | .raised c => failWith c .dtwStep s
    | .outside f => .fault f

/-- How the loop of DTW_RUN ends (R213). -/
inductive RunEnd where
  /-- the payload bits are used up -/
  | done (t : State)
  /-- a step raised a fault; `t` is the state the completed steps made -/
  | raised (c : Cause) (t : State)
  /-- a position outside a buffer (log entry 7) -/
  | outside (f : Fault)

/-- The loop of DTW_RUN: steps while RPOS < RLIM (R213). A step that moves consumes one bit, so `fuel` =
RLIM - RPOS never runs out. -/
def walkLoop : (fuel : Nat) → State → RunEnd
  | 0, s => .done s
  | fuel + 1, s =>
    if s.rlim.toNat ≤ s.rpos.toNat then .done s
    else match walkStep s with
      | .moved _ t => walkLoop fuel t
      | .raised c => .raised c s
      | .outside f => .outside f

/-- DTW_RUN decodes until the payload bits are used up (R213). A fault of a step and E_TRUNC_SYMBOL leave the
state as the completed steps made it (R288). -/
def execDtwRun (s : State) : Result :=
  guarded .dtwRun s <|
    if s.flag .armed = false then failWith .notArmed .dtwRun s
    else match walkLoop (s.rlim.toNat - s.rpos.toNat) s with
      | .done t => if t.cur ≠ t.root then failWith .truncSymbol .dtwRun t else finish t.symcnt t
      | .raised c t => failWith c .dtwRun t
      | .outside f => .fault f

end Sys2Proof.Machine
end

