-- ==== Sys2Proof/Machine/Writer.lean ====
section
/-! DEFINITION. bitstream_writer: BSW_INIT, BSW_PUTBITS, BSW_PUTSYM, BSW_FLUSH (43_bitstream_writer.md). -/

namespace Sys2Proof.Machine

/-- BSW_INIT empties the writer; OBUF is not written (R171). -/
def execBswInit (s : State) : Result :=
  guarded .bswInit s (finish 0 { s with wlen := 0, wcnt := 0, wacc := 0, lastpad := 0 })

/-- BSW_PUTBITS n, v appends the n low bits of v, most significant first (R172). -/
def execBswPutbits (n : BitVec 8) (v : BitVec 16) (s : State) : Result :=
  guarded (.bswPutbits n v) s <|
    if overflows s n.toNat then failWith .overflow (.bswPutbits n v) s
    else match appendBits (msbFirst n.toNat v.toNat) s with
      | .ok t => finish (BitVec.ofNat 64 (wbits t)) t
      | .error f => .fault f

/-- BSW_PUTSYM k appends the code of symbol k (R173). -/
def execBswPutsym (k : Sym) (s : State) : Result :=
  guarded (.bswPutsym k) s <|
    if s.flag .codeValid = false then failWith .staleCode (.bswPutsym k) s
    else if (codeOf s.code k).len = 0 then failWith .noCode (.bswPutsym k) s
    else if overflows s (codeOf s.code k).len.toNat then failWith .overflow (.bswPutsym k) s
    else match appendBits (codeString (codeOf s.code k)) s with
      | .ok t => finish ((codeOf s.code k).len.setWidth 64) t
      | .error f => .fault f

/-- P = (8 - WCNT) mod 8, the padding BSW_FLUSH appends (R174). -/
def flushPad (s : State) : Nat := (8 - s.wcnt.toNat) % 8

/-- BSW_FLUSH pads the stream with zero bits to the next byte boundary (R174). -/
def execBswFlush (s : State) : Result :=
  guarded .bswFlush s <|
    match appendBits (List.replicate (flushPad s) false) s with
    | .ok t => finish (BitVec.ofNat 64 (flushPad s)) { t with lastpad := BitVec.ofNat 3 (flushPad s) }
    | .error f => .fault f

end Sys2Proof.Machine
end

