-- ==== Sys2Proof/Machine/Dispatch.lean ====
section
/-! DEFINITION. The meaning of each command: one arm per constructor of Instr (30_encoding.md rule R92). -/

namespace Sys2Proof.Machine

/-- What a command does (R285), the locked block included (R284). -/
def exec (i : Instr) (s : State) : Host.Outcome State Fault Refusal :=
  match i with
  | .sysNop => Sys2Proof.Machine.execSysNop s
  | .sysReset => Sys2Proof.Machine.execSysReset s
  | .tbBuild => Sys2Proof.Machine.execTbBuild s
  | .tbClrf => Sys2Proof.Machine.execTbClrf s
  | .ctgGen => Sys2Proof.Machine.execCtgGen s
  | .bswInit => Sys2Proof.Machine.execBswInit s
  | .bswPutbits n v => Sys2Proof.Machine.execBswPutbits n v s
  | .bswPutsym k => Sys2Proof.Machine.execBswPutsym k s
  | .bswFlush => Sys2Proof.Machine.execBswFlush s
  | .bsrOpen => Sys2Proof.Machine.execBsrOpen s
  | .bsrGetbits n => Sys2Proof.Machine.execBsrGetbits n s
  | .bsrTrim p => Sys2Proof.Machine.execBsrTrim p s
  | .dtwStart => Sys2Proof.Machine.execDtwStart s
  | .dtwStep => Sys2Proof.Machine.execDtwStep s
  | .dtwRun => Sys2Proof.Machine.execDtwRun s

end Sys2Proof.Machine
end

