-- ==== Sys2Proof/Machine/HostPort.lean ====
section
/-! DEFINITION. The host port (20_memory.md rules R60, R68, R69, R70) and the dispatch of a command word
(60_exceptions.md rule R285). -/

namespace Sys2Proof.Machine

/-- Cmd(w) (R285): an illegal word is LOCKED in a locked block and faults with E_ILLEGAL_CMD otherwise. -/
def runWord (w : Word) (s : State) : Result :=
  match decode w with
  | some i => exec i s
  | none => if s.flag .errf then .next (lockedReply s) else .next (raiseFault .illegalCmd w s)

/-- A register as the host reads it: its defined bits in place, all other bits 0 (R20). A number of 14 or
above names no register and reads as 0. -/
def regRead (s : State) (n : Nat) : Reg :=
  match n with
  | 0 => s.status.setWidth 64
  | 1 => s.err.setWidth 64
  | 2 => s.errcmd.setWidth 64
  | 3 => s.root.setWidth 64
  | 4 => s.totbits
  | 5 => s.wlen
  | 6 => s.wcnt.setWidth 64
  | 7 => s.wacc.setWidth 64
  | 8 => s.lastpad.setWidth 64
  | 9 => s.ilen
  | 10 => s.rpos
  | 11 => s.rlim
  | 12 => s.cur.setWidth 64
  | 13 => s.symcnt
  | _ => 0

/-- HostRead(space, idx): the entry as a number; 0 for a space or an index that does not exist (R69). It never
changes the state (R70) and works while locked (R284). -/
def hostRead (space idx : Nat) (s : State) : Nat :=
  match space with
  | 0 => (regRead s idx).toNat
  | 1 => if h : idx < 256 then (s.freq[idx]).toNat else 0
  | 2 => if h : idx < 512 then (packNode (s.node[idx])).toNat else 0
  | 3 => if h : idx < 256 then (packCode (s.code[idx])).toNat else 0
  | 4 => if idx < s.icap then (ibufByte s idx).toNat else 0
  | 5 => if idx < s.ocap then (obufByte s idx).toNat else 0
  | _ => 0

/-- A host write of ROOT: the tree at ROOT is handed over (R25). -/
def writeRoot (v : Nat) (s : State) : State :=
  { s with
    root := BitVec.ofNat 9 v
    status := putFlag (putFlag (putFlag s.status .treeValid true) .codeValid false) .armed false }

/-- A host write of ILEN closes the reader (R28). -/
def writeIlen (v : Nat) (s : State) : State := { s with ilen := BitVec.ofNat 64 v, rpos := 0, rlim := 0 }

/-- A host write of a register: ROOT and ILEN only (R20, R60). -/
def writeReg (n v : Nat) (s : State) : State :=
  match n with
  | 3 => writeRoot v s
  | 9 => writeIlen v s
  | _ => s

/-- A host write of NODE[i] clears TREE_VALID, CODE_VALID and ARMED (R23, R31). -/
def writeNode (i : NodeIdx) (v : Nat) (s : State) : State :=
  { s with
    node := putNode s.node i (unpackNode (BitVec.ofNat 84 v))
    status := putFlag (putFlag (putFlag s.status .treeValid false) .codeValid false) .armed false }

/-- A host write in an unlocked block: the value is truncated to the entry's width (R70); CODE, OBUF, read-only
registers and what does not exist ignore it (R68, R69). -/
def writeEntry (space idx v : Nat) (s : State) : State :=
  match space with
  | 0 => writeReg idx v s
  | 1 => if h : idx < 256 then { s with freq := s.freq.set idx (BitVec.ofNat 56 v) h } else s
  | 2 => if idx < 512 then writeNode (BitVec.ofNat 9 idx) v s else s
  | 4 => if idx < s.icap then { s with ibuf := memInsert s.ibuf idx (BitVec.ofNat 8 v) } else s
  | _ => s

/-- HostWrite(space, idx, v): ignored while ERRF = 1 (R70, R284). -/
def hostWrite (space idx v : Nat) (s : State) : State := if s.flag .errf then s else writeEntry space idx v s

/-- One operation of the host, executed to completion (R70, R71). A command and a host write advance the
counter behind the free values of U2; a host read changes nothing (R68). -/
def runOp (op : HostOp) (s : State) : Result :=
  match op with
  | .cmd w => runWord w { s with ops := s.ops + 1 }
  | .read space idx => .next { s with reply := some (.data (hostRead space idx s)) }
  | .write space idx v => .next { hostWrite space idx v { s with ops := s.ops + 1 } with reply := some .written }

/-- One step of the machine: the oldest operation the host has issued is executed; with none issued the block
waits and nothing changes (R9, R21, R71; log entries 1 and 8). -/
def runNext (s : State) : Result :=
  match s.pending with
  | [] => .next s
  | op :: rest => runOp op { s with pending := rest }

/-- The state with an operation issued ahead of every other. -/
def issueFirst (op : HostOp) (s : State) : State := { s with pending := op :: s.pending }

end Sys2Proof.Machine
end

