-- ==== Sys2Proof/Machine/Step.lean ====
section
/-! DEFINITION. The step of the machine: one operation of the host (20_memory.md rules R70, R71). -/

namespace Sys2Proof.Machine

/-- One step: the next operation of the host's stream (R71). -/
def step : State → Host.Outcome State Fault Refusal := runNext

/-- The state in which the command word made of the low `nbits` bits of `w` is the next operation of the
host, ahead of every other, so that `step` runs it (log entry 9). -/
def State.withFetchWord (s : State) (nbits w : Nat) : State := issueFirst (.cmd (tableWord nbits w)) s

end Sys2Proof.Machine
end

