-- ==== Sys2Proof/Machine/Sequences.lean ====
section
/-! DEFINITION. The host sequences FREQ_COUNT, PUT_TREE, GET_TREE, COMPRESS and DECOMPRESS
(46_archive_sequences.md). A sequence is a host procedure (R230): every one of its steps is one operation of
the host port, executed by the machine's own `step`. Its variables are the host's, not the block's (R11). -/

namespace Sys2Proof.Machine

/-- The classes of failure (R292). -/
inductive FailureClass where
  | formatError
  | capacityError
  | hostError
deriving DecidableEq, Repr

/-- Why a sequence fails (R244, R255, R256). -/
inductive Failure where
  /-- a command ended in FAULT with this cause code (R230) -/
  | fault (code : BitVec 8)
  /-- a command was answered LOCKED with this cause code; no sequence of R231 to R255 meets it (log entry 11) -/
  | locked (code : BitVec 8)
  /-- F_EMPTY_INPUT -/
  | emptyInput
  /-- F_BAD_EMPTY -/
  | badEmpty
  /-- F_ROOT_LEAF -/
  | rootLeaf
  /-- F_TOO_MANY_NODES -/
  | tooManyNodes
  /-- F_RESERVED_LEAF -/
  | reservedLeaf
  /-- F_DUP_SYMBOL -/
  | dupSymbol
  /-- F_MULTI_PLACEHOLDER -/
  | multiPlaceholder
  /-- F_PLACEHOLDER_SHAPE -/
  | placeholderShape
  /-- the host check m > ICAP (R255) -/
  | tooLong
  /-- PUT_TREE met a FREE node, or a path longer than any TB_BUILD tree has (R240; R327 duty 11) -/
  | notATree
  /-- the machine stopped (log entries 7 and 11) -/
  | stopped
deriving DecidableEq, Repr

/-- The class of a fault (R281, R292). -/
def causeClass : Cause → FailureClass
  | .illegalCmd => .hostError
  | .emptyTable => .hostError
  | .weightOvf => .capacityError
  | .noTree => .hostError
  | .badTree => .hostError
  | .badNode => .hostError
  | .dupSymbol => .hostError
  | .staleCode => .hostError
  | .noCode => .hostError
  | .overflow => .capacityError
  | .badLen => .hostError
  | .underrun => .formatError
  | .padRange => .formatError
  | .padNonzero => .formatError
  | .notArmed => .hostError
  | .truncSymbol => .formatError

/-- The 16 causes (R281). -/
def allCauses : List Cause :=
  [.illegalCmd, .emptyTable, .weightOvf, .noTree, .badTree, .badNode, .dupSymbol, .staleCode, .noCode,
   .overflow, .badLen, .underrun, .padRange, .padNonzero, .notArmed, .truncSymbol]

/-- The cause with a given code, if the code is one of R281. -/
def causeOfCode (code : BitVec 8) : Option Cause := allCauses.find? (fun c => causeCode c == code)

/-- The class of a failure (R256, R292). -/
def failureClass : Failure → FailureClass
  | .fault code => ((causeOfCode code).map causeClass).getD .hostError
  | .locked _ => .hostError
  | .emptyInput => .formatError
  | .badEmpty => .formatError
  | .rootLeaf => .formatError
  | .tooManyNodes => .formatError
  | .reservedLeaf => .formatError
  | .dupSymbol => .formatError
  | .multiPlaceholder => .formatError
  | .placeholderShape => .formatError
  | .tooLong => .capacityError
  | .notATree => .hostError
  | .stopped => .hostError

/-- A host procedure: it drives the block from a state and ends with a result or a failure, and with the state
the block is then in. -/
abbrev Seq := ExceptT Failure (StateM State)

/-- One operation of the host port, executed by `step`; what it returns. -/
def issue (op : HostOp) : Seq Reply := fun s =>
  match step (issueFirst op s) with
  | .next t => (match t.reply with
    | some r => .ok r
    | none => .error .stopped, t)
  | .fault _ => (.error .stopped, s)
  | .refused _ => (.error .stopped, s)

/-- A step written as a mnemonic: `Cmd` of its word. "if its response is FAULT the sequence ends at once"
(R230). Gives the VALUE of an OK response. -/
def seqCmd (i : Instr) : Seq (BitVec 64) := do
  match ← issue (.cmd (encode i)) with
  | .response r =>
    match r.st with
    | .ok => pure r.value
    | .fault => throw (.fault r.cause)
    | .locked => throw (.locked r.cause)
  | .data _ => throw .stopped
  | .written => throw .stopped

/-- HostRead(space, idx). -/
def seqRead (space idx : Nat) : Seq Nat := do
  match ← issue (.read space idx) with
  | .data v => pure v
  | .response _ => throw .stopped
  | .written => throw .stopped

/-- HostWrite(space, idx, v). -/
def seqWrite (space idx v : Nat) : Seq Unit := do
  let _ ← issue (.write space idx v)
  pure ()

/-! ### FREQ_COUNT -/

/-- The loop of FREQ_COUNT over the symbols: a nonzero count is written (R231). -/
def writeCounts (x : List Byte) : List Sym → Seq Unit
  | [] => pure ()
  | k :: ks => do
    if x.count k ≠ 0 then seqWrite 1 k.toNat (x.count k)
    writeCounts x ks

/-- FREQ_COUNT(X) (R231). -/
def freqCount (x : List Byte) : Seq Unit := do
  let _ ← seqCmd .tbClrf
  writeCounts x ((List.range 256).map (BitVec.ofNat 8))

/-! ### PUT_TREE -/

/-- The leaf of symbol k in a tree description: 1, then 0, then the 8 symbol bits (R240, R238). -/
def leafWord (k : Sym) : BitVec 16 := 0x200 + k.setWidth 16

/-- The placeholder in a tree description: 1, then 1, then eight 0 bits (R240, R238). -/
def placeholderWord : BitVec 16 := 0x300

/-- Put(i) (R240). `fuel` is the number of levels left: a TB_BUILD tree has at most 256 (log entry 10). -/
def putNodes : (fuel : Nat) → (i : NodeIdx) → Seq Unit
  | 0, _ => throw .notATree
  | fuel + 1, i => do
    let e ← seqRead 2 i.toNat
    let n := unpackNode (BitVec.ofNat 84 e)
    match n.kind with
    | .internal =>
      let _ ← seqCmd (.bswPutbits 1 0)
      putNodes fuel n.left
      putNodes fuel n.right
    | .leaf =>
      let _ ← seqCmd (.bswPutbits 10 (leafWord n.sym))
      pure ()
    | .placeholder =>
      let _ ← seqCmd (.bswPutbits 10 placeholderWord)
      pure ()
    | .free => throw .notATree

/-- PUT_TREE (R240). -/
def putTree : Seq Unit := do
  let r ← seqRead 0 3
  putNodes 256 (BitVec.ofNat 9 r)

/-! ### GET_TREE -/

/-- The host's variables in GET_TREE (R243); `seen` lists the symbols met. -/
structure ParseVars where
  nx : Nat
  ni : Nat
  nreal : Nat
  ph : Bool
  seen : List Sym
deriving DecidableEq, Repr

/-- All of GET_TREE's variables start at 0 (R243). -/
def parseStart : ParseVars := { nx := 0, ni := 0, nreal := 0, ph := false, seen := [] }

/-- A leaf of a tree description with leaf id v (R243). -/
def parseLeaf (v : Nat) (h : ParseVars) : Seq (Nat × ParseVars) := do
  if v ≤ 0x0FF then
    if BitVec.ofNat 8 v ∈ h.seen then throw .dupSymbol
    seqWrite 2 h.nx (packNode { kind := .leaf, sym := BitVec.ofNat 8 v, left := 0, right := 0, weight := 0 }).toNat
    pure (h.nx, { h with seen := BitVec.ofNat 8 v :: h.seen, nreal := h.nreal + 1, nx := h.nx + 1 })
  else if v = 0x100 then
    if h.ph then throw .multiPlaceholder
    seqWrite 2 h.nx (packNode { kind := .placeholder, sym := 0, left := 0, right := 0, weight := 0 }).toNat
    pure (h.nx, { h with ph := true, nx := h.nx + 1 })
  else throw .reservedLeaf

/-- Parse(depth) (R243): the index of the node read, and the host's variables after it. `fuel` bounds the
depth; with fuel = 256 - depth it never runs out, since a 256th internal node is refused (log entry 10). -/
def parseNode : (fuel : Nat) → (depth : Nat) → ParseVars → Seq (Nat × ParseVars)
  | 0, _, _ => throw .tooManyNodes
  | fuel + 1, depth, h => do
    let d ← seqCmd (.bsrGetbits 1)
    if d = 0 then
      if 255 < h.ni + 1 then throw .tooManyNodes
      let (l, hl) ← parseNode fuel (depth + 1) { h with ni := h.ni + 1, nx := h.nx + 1 }
      let (r, hr) ← parseNode fuel (depth + 1) hl
      seqWrite 2 h.nx (packNode
        { kind := .internal, sym := 0, left := BitVec.ofNat 9 l, right := BitVec.ofNat 9 r, weight := 0 }).toNat
      pure (h.nx, hr)
    else
      if depth = 0 then throw .rootLeaf
      let v ← seqCmd (.bsrGetbits 9)
      parseLeaf v.toNat h

/-- GET_TREE: the index of the root (R243). -/
def getTree : Seq Nat := do
  let (root, h) ← parseNode 256 0 parseStart
  if h.ph && h.nreal != 1 then throw .placeholderShape
  pure root

/-! ### COMPRESS and DECOMPRESS -/

/-- OBUF[k], ..., OBUF[k + n - 1], read with HostRead. -/
def readOutput : (n : Nat) → (k : Nat) → Seq (List Byte)
  | 0, _ => pure []
  | n + 1, k => do
    let b ← seqRead 5 k
    let rest ← readOutput n (k + 1)
    pure (BitVec.ofNat 8 b :: rest)

/-- OBUF[0..WLEN-1] (R250, R255). -/
def takeOutput : Seq (List Byte) := do
  let n ← seqRead 0 5
  readOutput n 0

/-- The payload loop of COMPRESS: one BSW_PUTSYM for each input byte, in order (R250). -/
def putSymbols : List Byte → Seq Unit
  | [] => pure ()
  | b :: bs => do
    let _ ← seqCmd (.bswPutsym b)
    putSymbols bs

/-- P = (-(H + 3 + T)) mod 8 (R239, R250). -/
def padCount (h t : Nat) : Nat := (8 - (h + 3 + t) % 8) % 8

/-- COMPRESS(X) (R250). -/
def compress (x : List Byte) : Seq (List Byte) := do
  let _ ← seqCmd .sysReset
  if x = [] then
    let _ ← seqCmd (.bswPutbits 1 1)
    let _ ← seqCmd .bswFlush
    takeOutput
  else
    freqCount x
    let _ ← seqCmd .tbBuild
    let _ ← seqCmd .ctgGen
    let _ ← seqCmd (.bswPutbits 1 0)
    putTree
    let wlen ← seqRead 0 5
    let wcnt ← seqRead 0 6
    let t ← seqRead 0 4
    let _ ← seqCmd (.bswPutbits 3 (BitVec.ofNat 16 (padCount (8 * wlen + wcnt) t)))
    putSymbols x
    let _ ← seqCmd .bswFlush
    takeOutput

/-- The host writes the archive into IBUF, from index k on (R255). -/
def loadInput : (k : Nat) → List Byte → Seq Unit
  | _, [] => pure ()
  | k, b :: bs => do
    seqWrite 4 k b.toNat
    loadInput (k + 1) bs

/-- DECOMPRESS(A) (R255). -/
def decompress (a : List Byte) : Seq (List Byte) := do
  let _ ← seqCmd .sysReset
  if a = [] then throw .emptyInput
  let s ← get
  if s.icap < a.length then throw .tooLong
  loadInput 0 a
  seqWrite 0 9 a.length
  let _ ← seqCmd .bsrOpen
  let e ← seqCmd (.bsrGetbits 1)
  if e = 1 then
    if a.length ≠ 1 then throw .badEmpty
    let z ← seqCmd (.bsrGetbits 7)
    if z ≠ 0 then throw .badEmpty
    pure []
  else
    let root ← getTree
    let p ← seqCmd (.bsrGetbits 3)
    let _ ← seqCmd (.bsrTrim (p.setWidth 8))
    seqWrite 0 3 root
    let _ ← seqCmd .dtwStart
    let _ ← seqCmd .dtwRun
    takeOutput

end Sys2Proof.Machine
end

