-- ==== Sys2Proof/Safety.lean ====
section
/-! DEFINITION. What the claims speak of: the streams the writer and the reader stand for, paths in the tree,
and the invariants of every reachable state (10_state.md rule R35). -/

namespace Sys2Proof.Machine

/-! ### Streams -/

/-- The eight bits of a byte in stream order (R61). -/
def byteBits (b : Byte) : List Bool := msbFirst 8 b.toNat

/-- The bits written since the writer was initialised: the bytes below WLEN, then the WCNT bits held in the
accumulator (R27, R37). -/
def outputBits (s : State) : List Bool :=
  (List.range s.wlen.toNat).flatMap (fun k => byteBits (obufByte s k)) ++ (byteBits s.wacc).take s.wcnt.toNat

/-- Bit p of the input stream (R61, R62). -/
def inputBit (s : State) (p : Nat) : Bool := (ibufByte s (p / 8)).getLsbD (7 - p % 8)

/-- The `n` bits of the input stream from position p on. -/
def inputBits (s : State) (p n : Nat) : List Bool := (List.range n).map (fun j => inputBit s (p + j))

/-- A bit string as a number, first bit most significant (R63). -/
def bitsValue (bs : List Bool) : Nat := bs.foldl (fun v b => 2 * v + b.toNat) 0

/-- The payload still to be consumed: the bits between RPOS and RLIM (R28). -/
def payloadBits (s : State) : List Bool := inputBits s s.rpos.toNat (s.rlim.toNat - s.rpos.toNat)

/-! ### The tree -/

/-- The node reached from a node along a bit string, LEFT on 0 and RIGHT on 1 (R150, R212). -/
def follow (m : Vector Node 512) : NodeIdx → List Bool → NodeIdx
  | i, [] => i
  | i, b :: bs => follow m (if b then (nodeOf m i).right else (nodeOf m i).left) bs

/-- A binary tree as the document has it (R12: "either a leaf ... or an internal node"), leaves real or the
placeholder (R31). -/
inductive Tree where
  | leaf (k : Sym) (w : Weight)
  | placeholder
  | branch (l r : Tree)
deriving DecidableEq, Repr

/-- The node memory holds the tree at an index: following LEFT and RIGHT from there gives exactly the tree. -/
def TreeAt (m : Vector Node 512) : NodeIdx → Tree → Prop
  | i, .leaf k w => (nodeOf m i).kind = .leaf ∧ (nodeOf m i).sym = k ∧ (nodeOf m i).weight = w
  | i, .placeholder => (nodeOf m i).kind = .placeholder
  | i, .branch l r =>
    (nodeOf m i).kind = .internal ∧ TreeAt m (nodeOf m i).left l ∧ TreeAt m (nodeOf m i).right r

/-- The length of the longest path to a leaf. -/
def Tree.depth : Tree → Nat
  | .leaf _ _ => 0
  | .placeholder => 0
  | .branch l r => max l.depth r.depth + 1

/-- The real symbols, left to right. -/
def Tree.symbols : Tree → List Sym
  | .leaf k _ => [k]
  | .placeholder => []
  | .branch l r => l.symbols ++ r.symbols

/-- How many leaves are the placeholder. -/
def Tree.placeholders : Tree → Nat
  | .leaf _ _ => 0
  | .placeholder => 1
  | .branch l r => l.placeholders + r.placeholders

/-- Each real leaf with its symbol, its weight and its path from the root, 0 = left, 1 = right (R150). -/
def Tree.leaves : Tree → List (Sym × Weight × List Bool)
  | .leaf k w => [(k, w, [])]
  | .placeholder => []
  | .branch l r =>
    l.leaves.map (fun x => (x.1, x.2.1, false :: x.2.2)) ++ r.leaves.map (fun x => (x.1, x.2.1, true :: x.2.2))

/-- The weighted path length: the sum of WEIGHT times depth over the real leaves (R26, R151). -/
def Tree.cost (t : Tree) : Nat := (t.leaves.map (fun x => x.2.1.toNat * x.2.2.length)).sum

/-- The sum of the weights of the real leaves. -/
def Tree.total (t : Tree) : Nat := (t.leaves.map (fun x => x.2.1.toNat)).sum

/-- A tree CTG_GEN accepts (R151, R155): the root is no leaf, no node is deeper than 255, the real symbols are
distinct and there is at most one placeholder. -/
def Tree.Codable (t : Tree) : Prop :=
  (∃ l r, t = .branch l r) ∧ t.depth ≤ 255 ∧ t.symbols.Nodup ∧ t.placeholders ≤ 1

/-- Whether symbol k has a code in a code table (R32). -/
def hasCode (t : Vector CodeEntry 256) (k : Sym) : Prop := (codeOf t k).len ≠ 0

/-- No code of the table is a prefix of the code of another symbol (R35 item 7, R153 b). -/
def NoCodeBeginsAnother (t : Vector CodeEntry 256) : Prop :=
  ∀ a b : Sym, a ≠ b → hasCode t a → hasCode t b → ¬ codeString (codeOf t a) <+: codeString (codeOf t b)

/-! ### The invariants of R35 -/

/-- The parameters are in the range of R5. -/
def CapacitiesOk (s : State) : Prop := (1 ≤ s.ocap ∧ s.ocap < 2 ^ 56) ∧ (1 ≤ s.icap ∧ s.icap < 2 ^ 56)

/-- IBUF and OBUF are in canonical form and list nothing outside their capacities (R33, R34). -/
def BuffersOk (s : State) : Prop :=
  (Memory.wf s.ibuf ∧ ∀ c ∈ s.ibuf, c.1 < s.icap) ∧ (Memory.wf s.obuf ∧ ∀ c ∈ s.obuf, c.1 < s.ocap)

/-- Items 1 and 2 of R35: the accumulator is left-aligned with zeros below, and the stream fits OBUF. -/
def WriterOk (s : State) : Prop := s.wacc.toNat % 2 ^ (8 - s.wcnt.toNat) = 0 ∧ wbits s ≤ 8 * s.ocap

/-- Every byte of the output is a byte the writer stored (R27, R34). -/
def OutputOk (s : State) : Prop := ∀ k, k < s.wlen.toNat → (memFind s.obuf k).isSome

/-- Item 3 of R35: the cursor and the limit stay inside the declared input, and it inside IBUF. -/
def ReaderOk (s : State) : Prop :=
  s.rpos.toNat ≤ s.rlim.toNat
    ∧ (0 < s.rlim.toNat → s.rlim.toNat ≤ 8 * s.ilen.toNat ∧ s.ilen.toNat ≤ s.icap)

/-- Item 4 of R35: an armed walker has a tree, an internal root and stands on an internal node. -/
def WalkerOk (s : State) : Prop :=
  s.flag .armed = true →
    s.flag .treeValid = true ∧ (nodeAt s s.root).kind = .internal ∧ (nodeAt s s.cur).kind = .internal

/-- Item 5 of R35: a valid code table is the one CTG_GEN computes from the present NODE and ROOT. -/
def CodeOk (s : State) : Prop :=
  s.flag .codeValid = true →
    s.flag .treeValid = true ∧ ∃ acc, genTable s.node s.root = .ok acc ∧ s.code = acc.table

/-- Item 6 of R35 with R24: ERRF says whether a cause is recorded, and the record is 0 until then. -/
def ErrorOk (s : State) : Prop :=
  (s.flag .errf = true ↔ errCause s.err ≠ 0) ∧ (s.flag .errf = false → s.err = 0 ∧ s.errcmd = 0)

/-- The invariants of every reachable state (R35; item 7 follows from item 5). -/
structure StateOk (s : State) : Prop where
  capacities : CapacitiesOk s
  buffers : BuffersOk s
  writer : WriterOk s
  output : OutputOk s
  reader : ReaderOk s
  walker : WalkerOk s
  code : CodeOk s
  error : ErrorOk s

/-- The response OK with a value (R96). -/
abbrev okReply (v : BitVec 64) : Option Reply := some (.response ⟨.ok, 0, v⟩)

/-- The response FAULT with a cause (R96, R283). -/
abbrev faultReply (c : Cause) : Option Reply := some (.response ⟨.fault, causeCode c, 0⟩)

/-- The response LOCKED with the recorded cause (R96, R284). -/
abbrev lockedAnswer (s : State) : Option Reply := some (.response ⟨.locked, errCause s.err, 0⟩)

/-- The block accepts commands: no fault has locked it (R284, R285). -/
abbrev Unlocked (s : State) : Prop := s.flag .errf = false

/-- No byte of OBUF as the host reads it differs, but at the indices from WLEN before to WLEN after: the bytes
AppendBit stored (R64). -/
def StoresOnlyOutput (s t : State) : Prop :=
  s.wlen.toNat ≤ t.wlen.toNat
    ∧ ∀ k, k < s.wlen.toNat ∨ t.wlen.toNat ≤ k → obufByte t k = obufByte s k

/-! ### The order of CTG_GEN's walk -/

/-- Preorder on the paths from the root: a node before what is below it, a left subtree wholly before the right
subtree (R151). -/
def PathBefore : List Bool → List Bool → Prop
  | _, [] => False
  | [], _ :: _ => True
  | a :: as, b :: bs => (a = false ∧ b = true) ∨ (a = b ∧ PathBefore as bs)

/-- The node at a path is one the walk may reach: every node above it is INTERNAL and it is no deeper than 255
(R151). -/
def OnWalk (m : Vector Node 512) (root : NodeIdx) (p : List Bool) : Prop :=
  p.length ≤ 255 ∧ ∀ n, n < p.length → (nodeOf m (follow m root (p.take n))).kind = .internal

/-- What is wrong with the node at a path, and the cause it is reported with (R151, R155). -/
def Objection (m : Vector Node 512) (root : NodeIdx) (p : List Bool) (c : Cause) : Prop :=
  match (nodeOf m (follow m root p)).kind with
  | .free => c = .badNode
  | .internal => p.length = 255 ∧ c = .badTree
  | .placeholder => c = .badTree ∧ ∃ q, OnWalk m root q ∧ PathBefore q p
      ∧ (nodeOf m (follow m root q)).kind = .placeholder
  | .leaf => c = .dupSymbol ∧ ∃ q, OnWalk m root q ∧ PathBefore q p
      ∧ (nodeOf m (follow m root q)).kind = .leaf
      ∧ (nodeOf m (follow m root q)).sym = (nodeOf m (follow m root p)).sym

/-- The merging of 41_tree_builder.md rule R131 as a relation: from a node memory, a set of candidates and the
next free index to the final node memory and the one candidate left. -/
inductive Merging : Vector Node 512 → Finset NodeIdx → Nat → Vector Node 512 → NodeIdx → Prop where
  /-- one member is left: it is the root -/
  | done (m : Vector Node 512) (r : NodeIdx) (next : Nat) : Merging m {r} next m r
  /-- a is the least member, b the least of the others (R132); they are merged into the node at `next` -/
  | merge (m m' : Vector Node 512) (act : Finset NodeIdx) (next : Nat) (a b r : NodeIdx)
      (ha : a ∈ act) (hmin : ∀ x ∈ act, x ≠ a → comesBefore m a x = true)
      (hb : b ∈ act) (hab : b ≠ a) (hmin' : ∀ x ∈ act, x ≠ a → x ≠ b → comesBefore m b x = true)
      (rest : Merging
        (putNode m (BitVec.ofNat 9 next)
          { kind := .internal, sym := 0, left := a, right := b
            weight := (nodeOf m a).weight + (nodeOf m b).weight })
        (insert (BitVec.ofNat 9 next) ((act.erase a).erase b)) (next + 1) m' r) :
      Merging m act next m' r

end Sys2Proof.Machine
end

