-- ==== Sys2Proof/Certificates/Slice0/Obligations.lean ====
section
/-! DEFINITION. The statements for the provers. A statement about an instruction concludes that `exec` answers
a next state, under hypotheses on the state and the operands alone; an equation `t = { s with ... }` is its
frame: every field not written there is unchanged. -/

open Sys2Proof Sys2Proof.Machine

/-! ## Encoding -/

/-- R92, R94: every well-formed command's word decodes to it, with every operand at every value. -/
def Obligations.DecodeOfEncode : Prop :=
  ∀ i : Instr, i.WellFormed → decode (encode i) = some i

/-- R92, R94: a word that decodes to a command is that command's one word, and the command is well-formed: no bit
of a legal word is ignored. -/
def Obligations.EncodeOfDecode : Prop :=
  ∀ (w : Word) (i : Instr), decode w = some i → i.WellFormed ∧ encode i = w

/-- R95: the illegal words are exactly (a) to (f), by the numbers UNIT, OP, A, B of the word; executing one
faults with E_ILLEGAL_CMD and changes no other state. -/
def Obligations.IllegalWordsFault : Prop :=
  (∀ (w : Word) (s : State), Unlocked s → decode w = none →
    runWord w s = .next (raiseFault .illegalCmd w s)) ∧
  ∀ (w : Word) (u o a b : Nat),
    u = w.toNat / 2 ^ 28 → o = w.toNat / 2 ^ 24 % 16 → a = w.toNat / 2 ^ 16 % 256 → b = w.toNat % 2 ^ 16 →
    (decode w = none ↔
      6 ≤ u
      ∨ (u = 0 ∧ 2 ≤ o ∨ u = 1 ∧ 2 ≤ o ∨ u = 2 ∧ 1 ≤ o ∨ u = 3 ∧ 4 ≤ o ∨ u = 4 ∧ 3 ≤ o ∨ u = 5 ∧ 3 ≤ o)
      ∨ (b ≠ 0 ∧ ¬ (u = 3 ∧ o = 1)
          ∨ a ≠ 0 ∧ ¬ (u = 3 ∧ o = 1 ∨ u = 3 ∧ o = 2 ∨ u = 4 ∧ o = 1 ∨ u = 4 ∧ o = 2))
      ∨ (u = 3 ∧ o = 1 ∧ (16 < a ∨ 2 ^ a ≤ b))
      ∨ (u = 4 ∧ o = 1 ∧ 16 < a)
      ∨ (u = 4 ∧ o = 2 ∧ 7 < a))

/-- Words written out in the spec (95_test_vectors.md V1 and V2) decode as it says. A sanity statement. -/
def Obligations.SpecWordsDecode : Prop :=
  decode 0x3110FFFF = some (.bswPutbits 16 0xFFFF) ∧ decode 0x32FF0000 = some (.bswPutsym 0xFF)
    ∧ decode 0x41100000 = some (.bsrGetbits 16) ∧ decode 0x42070000 = some (.bsrTrim 7)
    ∧ decode 0x20000000 = some .ctgGen ∧ decode 0x52000000 = some .dtwRun
    ∧ decode 0x31030008 = none ∧ decode 0xFFFFFFFF = none

/-! ## The step and the host port -/

/-- R71, R285: when the next operation of the host is a command word, one step runs that word on the state in which
the operation is taken from the host's stream and counted (the model's own fields, log entries 1 and 5): for a word that decodes it is `exec` of the decoded
command; a word that does not decode faults with E_ILLEGAL_CMD in an unlocked block (R95, R283) and is answered
LOCKED in a locked one (R284), and nothing else changes. -/
def Obligations.StepRunsDecodedCommand : Prop :=
  ∀ (s : State) (w : Word) (rest : List HostOp), s.pending = .cmd w :: rest →
    step s = runWord w { s with pending := rest, ops := s.ops + 1 }
    ∧ (∀ i : Instr, decode w = some i → step s = exec i { s with pending := rest, ops := s.ops + 1 })
    ∧ (decode w = none → Unlocked s → step s = .next { s with
        pending := rest, ops := s.ops + 1, status := putFlag s.status .errf true
        err := w.extractLsb' 28 4 ++ 0x01#8, errcmd := w, reply := faultReply .illegalCmd })
    ∧ (decode w = none → s.flag .errf = true → step s = .next { s with
        pending := rest, ops := s.ops + 1, reply := lockedAnswer s })

/-- R9, R21: with no operation issued the block does nothing. The step that waits is the model's own (log
entry 8). -/
def Obligations.StepWaitsForTheHost : Prop := ∀ s : State, s.pending = [] → step s = .next s

/-- R68, R69, R70, R284: a host read is one step that changes no state of the block, locked or not, and returns
0 for a space or an index that does not exist, and otherwise the entry named: a register of R20 (STATUS with its
flags where R23 puts them), a count of FREQ, a NODE or CODE entry packed as R31 and R32 say, a byte of IBUF the host
has written, a byte of OBUF below WLEN (R34). Other bytes of IBUF and OBUF are free values, whatever they are (log
entries 4 and 5). -/
def Obligations.HostReadChangesNothing : Prop :=
  ∀ (s : State) (space idx : Nat) (rest : List HostOp), s.pending = .read space idx :: rest →
    ∃ v, step s = .next { s with pending := rest, reply := some (.data v) }
      ∧ (6 ≤ space ∨ (space = 0 ∧ 14 ≤ idx) ∨ (space = 1 ∧ 256 ≤ idx) ∨ (space = 2 ∧ 512 ≤ idx)
        ∨ (space = 3 ∧ 256 ≤ idx) ∨ (space = 4 ∧ s.icap ≤ idx) ∨ (space = 5 ∧ s.ocap ≤ idx) → v = 0)
      ∧ (space = 0 → idx < 14 → some v =
          [(s.flag .treeValid).toNat + 2 * (s.flag .codeValid).toNat + 4 * (s.flag .armed).toNat
              + 8 * (s.flag .phSeen).toNat + 16 * (s.flag .errf).toNat,
            s.err.toNat, s.errcmd.toNat, s.root.toNat, s.totbits.toNat, s.wlen.toNat, s.wcnt.toNat, s.wacc.toNat,
            s.lastpad.toNat, s.ilen.toNat, s.rpos.toNat, s.rlim.toNat, s.cur.toNat, s.symcnt.toNat][idx]?)
      ∧ (∀ k : Sym, space = 1 → idx = k.toNat → v = (freqAt s k).toNat)
      ∧ (∀ (i : NodeIdx) (n : Node), space = 2 → idx = i.toNat → n = nodeAt s i →
          v = (match n.kind with | .free => 0 | .internal => 1 | .leaf => 2 | .placeholder => 3) * 2 ^ 82
            + n.sym.toNat * 2 ^ 74 + n.left.toNat * 2 ^ 65 + n.right.toNat * 2 ^ 56 + n.weight.toNat)
      ∧ (∀ k : Sym, space = 3 → idx = k.toNat →
          v = (codeOf s.code k).bits.toNat * 2 ^ 8 + (codeOf s.code k).len.toNat)
      ∧ (space = 4 → idx < s.icap →
          (∀ b, memFind s.ibuf idx = some b → v = b.toNat)
          ∧ (memFind s.ibuf idx = none → v = (Config.ibufFree s.resets idx).toNat))
      ∧ (space = 5 → idx < s.ocap →
          (∀ b, idx < s.wlen.toNat → memFind s.obuf idx = some b → v = b.toNat)
          ∧ (s.wlen.toNat ≤ idx → v = (Config.obufFree s.ops idx).toNat))

/-- R25: a host write of ROOT stores v[8:0], sets TREE_VALID and clears CODE_VALID and ARMED; nothing else. -/
def Obligations.HostWriteOfRootHandsTreeOver : Prop :=
  ∀ (s : State) (v : Nat) (rest : List HostOp), Unlocked s → s.pending = .write 0 3 v :: rest →
    ∃ t, step s = .next t ∧ t.root.toNat = v % 2 ^ 9
      ∧ t.flag .treeValid = true ∧ t.flag .codeValid = false ∧ t.flag .armed = false
      ∧ t.flag .phSeen = s.flag .phSeen ∧ t.flag .errf = s.flag .errf
      ∧ t = { s with root := t.root, status := t.status, pending := rest, ops := s.ops + 1, reply := some .written }

/-- R28: a host write of ILEN stores v[63:0] and closes the reader; nothing else. -/
def Obligations.HostWriteOfIlenClosesReader : Prop :=
  ∀ (s : State) (v : Nat) (rest : List HostOp), Unlocked s → s.pending = .write 0 9 v :: rest →
    ∃ t, step s = .next t ∧ t.ilen.toNat = v % 2 ^ 64
      ∧ t = { s with
          ilen := t.ilen, rpos := 0, rlim := 0, pending := rest, ops := s.ops + 1, reply := some .written }

/-- R23, R31: a host write of an entry of NODE writes that entry alone and clears TREE_VALID, CODE_VALID and
ARMED. -/
def Obligations.HostWriteOfNodeStalesTheTree : Prop :=
  ∀ (s : State) (i v : Nat) (rest : List HostOp), Unlocked s → i < 512 → s.pending = .write 2 i v :: rest →
    ∃ t, step s = .next t
      ∧ (∀ j : NodeIdx, nodeAt t j = if j.toNat = i then unpackNode (BitVec.ofNat 84 v) else nodeAt s j)
      ∧ t.flag .treeValid = false ∧ t.flag .codeValid = false ∧ t.flag .armed = false
      ∧ t.flag .phSeen = s.flag .phSeen ∧ t.flag .errf = s.flag .errf
      ∧ t = { s with node := t.node, status := t.status, pending := rest, ops := s.ops + 1, reply := some .written }

/-- R30, R33, R70: a host write of FREQ stores v[55:0] and of IBUF v[7:0] in the entry named and in no other,
and changes no flag or register. -/
def Obligations.HostWriteOfFreqAndIbufStores : Prop :=
  ∀ (s : State) (i v : Nat) (rest : List HostOp), Unlocked s →
    (i < 256 → s.pending = .write 1 i v :: rest →
      ∃ t, step s = .next t
        ∧ (∀ k : Sym, (freqAt t k).toNat = if k.toNat = i then v % 2 ^ 56 else (freqAt s k).toNat)
        ∧ t = { s with freq := t.freq, pending := rest, ops := s.ops + 1, reply := some .written })
    ∧ (i < s.icap → s.pending = .write 4 i v :: rest →
      ∃ t, step s = .next t
        ∧ (∀ k : Nat, (ibufByte t k).toNat = if k = i then v % 2 ^ 8 else (ibufByte s k).toNat)
        ∧ t = { s with ibuf := t.ibuf, pending := rest, ops := s.ops + 1, reply := some .written })

/-- R68, R69, R70: host writes of CODE, OBUF, read-only registers, spaces and indices that do not exist, and every
host write to a locked block are ignored. -/
def Obligations.IgnoredHostWritesChangeNothing : Prop :=
  ∀ (s : State) (space i v : Nat) (rest : List HostOp), s.pending = .write space i v :: rest →
    (s.flag .errf = true ∨ space = 3 ∨ space = 5 ∨ 6 ≤ space ∨ (space = 0 ∧ i ≠ 3 ∧ i ≠ 9)
      ∨ (space = 1 ∧ 256 ≤ i) ∨ (space = 2 ∧ 512 ≤ i) ∨ (space = 4 ∧ s.icap ≤ i)) →
    step s = .next { s with pending := rest, ops := s.ops + 1, reply := some .written }

/-- R71: in an unlocked block a host read of a writable entry returns the value of the latest write to it,
truncated to the entry's width. -/
def Obligations.HostReadReturnsLatestWrite : Prop :=
  ∀ (s : State) (i v : Nat), Unlocked s →
    hostRead 0 3 (hostWrite 0 3 v s) = v % 2 ^ 9
    ∧ hostRead 0 9 (hostWrite 0 9 v s) = v % 2 ^ 64
    ∧ (i < 256 → hostRead 1 i (hostWrite 1 i v s) = v % 2 ^ 56)
    ∧ (i < 512 → hostRead 2 i (hostWrite 2 i v s) = v % 2 ^ 84)
    ∧ (i < s.icap → hostRead 4 i (hostWrite 4 i v s) = v % 2 ^ 8)

/-! ## Faults and the locked state -/

/-- R282, R283: a command word that ends in FAULT, legal or not, has recorded the cause in ERR[7:0], the word's bits
[31:28] (6 to 15 included) in ERR[11:8] and the word in ERRCMD, and has locked the block; its response carries the
cause and the value 0. A word that does not decode records the cause 0x01. -/
def Obligations.FaultRecordsCauseAndWord : Prop :=
  (∀ (w : Word) (s t : State) (c : BitVec 8) (x : BitVec 64), Unlocked s → runWord w s = .next t →
    t.reply = some (.response ⟨.fault, c, x⟩) →
    t.err.toNat = w.toNat / 2 ^ 28 * 2 ^ 8 + c.toNat ∧ errCause t.err = c ∧ c ≠ 0
      ∧ (errUnit t.err).toNat = w.toNat / 2 ^ 28 ∧ t.errcmd = w ∧ t.flag .errf = true ∧ x = 0)
  ∧ (∀ (w : Word) (s : State), Unlocked s → decode w = none →
    ∃ t, runWord w s = .next t ∧ t.reply = some (.response ⟨.fault, 0x01, 0⟩))
  ∧ ∀ (i : Instr) (s t : State) (c : BitVec 8) (x : BitVec 64), Unlocked s → exec i s = .next t →
    t.reply = some (.response ⟨.fault, c, x⟩) →
    errCause t.err = c ∧ c ≠ 0 ∧ errUnit t.err = (encode i).extractLsb' 28 4 ∧ t.errcmd = encode i
      ∧ t.flag .errf = true ∧ x = 0

/-- R284: while ERRF = 1 every command word but SYS_RESET's, legal or not, does nothing and is answered LOCKED
with the recorded cause and the value 0; every host write is ignored; host reads work as ever. -/
def Obligations.LockedBlockIsFrozen : Prop :=
  ∀ s : State, s.flag .errf = true →
    (∀ w : Word, decode w ≠ some .sysReset → runWord w s = .next { s with reply := lockedAnswer s })
    ∧ (∀ i : Instr, i ≠ .sysReset → exec i s = .next { s with reply := lockedAnswer s })
    ∧ (∀ space i v, hostWrite space i v s = s)
    ∧ (∀ space i, runOp (.read space i) s = .next { s with reply := some (.data (hostRead space i s)) })

/-- R287: whatever the command word, legal or not, a fault leaves every register and memory but STATUS.ERRF, ERR
and ERRCMD unchanged, but for the two cases of R288. -/
def Obligations.FaultsArePrecise : Prop :=
  ∀ (w : Word) (s t : State) (c : Cause), Unlocked s → runWord w s = .next t → t.reply = faultReply c →
    ¬ (decode w = some .ctgGen ∧ c ≠ .noTree) → ¬ (decode w = some .dtwRun ∧ c ≠ .notArmed) →
    t = { s with
      status := putFlag s.status .errf true, err := t.err, errcmd := w, reply := faultReply c }

/-- R281: the causes each well-formed command can raise are those of the table. -/
def Obligations.CausesOfEachCommand : Prop :=
  ∀ (i : Instr) (s t : State) (c : Cause), Unlocked s → i.WellFormed → exec i s = .next t →
    t.reply = faultReply c →
    c ∈ (match i with
      | .sysNop => ([] : List Cause)
      | .sysReset => []
      | .tbBuild => [.emptyTable, .weightOvf]
      | .tbClrf => []
      | .ctgGen => [.noTree, .badTree, .badNode, .dupSymbol]
      | .bswInit => []
      | .bswPutbits _ _ => [.overflow]
      | .bswPutsym _ => [.staleCode, .noCode, .overflow]
      | .bswFlush => []
      | .bsrOpen => [.badLen]
      | .bsrGetbits _ => [.underrun]
      | .bsrTrim _ => [.padRange, .padNonzero]
      | .dtwStart => [.noTree, .badTree]
      | .dtwStep => [.notArmed, .underrun, .badNode, .overflow]
      | .dtwRun => [.notArmed, .badNode, .overflow, .truncSymbol])

/-- R8, R96: a command that ends has exactly one of the three outcomes: OK with cause 0 from an unlocked block
that stays unlocked, FAULT with a nonzero cause and value 0 from an unlocked block that is then locked, LOCKED
from a locked block; SYS_RESET is always OK. -/
def Obligations.EveryCommandHasOneOutcome : Prop :=
  ∀ (i : Instr) (s t : State), exec i s = .next t →
    (∃ v, t.reply = okReply v ∧ t.flag .errf = false ∧ (s.flag .errf = true → i = .sysReset))
    ∨ (∃ c, t.reply = faultReply c ∧ s.flag .errf = false ∧ t.flag .errf = true ∧ i ≠ .sysReset)
    ∨ (t.reply = lockedAnswer s ∧ s.flag .errf = true ∧ t.flag .errf = true ∧ i ≠ .sysReset)

/-! ## System commands and reset -/

/-- R121: in an unlocked block SYS_NOP, the word 0x00000000, returns (OK, 0, 0) and changes nothing; in a locked
one it gets the LOCKED response and does not unlock. -/
def Obligations.SysNopDoesNothing : Prop :=
  decode 0x00000000 = some .sysNop ∧ ∀ s : State,
    (Unlocked s → exec .sysNop s = .next { s with reply := okReply 0 })
    ∧ (s.flag .errf = true → exec .sysNop s = .next { s with reply := lockedAnswer s })

/-- R122, R320: from every state, locked or not, SYS_RESET returns (OK, 0, 0) and leaves the reset state: every
field is the one of `State.reset`, but the parameters of the block, the host's operations not yet executed
and the model's own counters; the contents of IBUF and OBUF are free anew. -/
def Obligations.SysResetGivesResetState : Prop :=
  ∀ s : State, ∃ t, exec .sysReset s = .next t ∧ t.reply = okReply 0
    ∧ t = { State.reset with
        ocap := s.ocap, icap := s.icap, pending := s.pending, reply := okReply 0
        resets := s.resets + 1, ops := s.ops }
    ∧ (∀ k, ibufByte t k = Config.ibufFree (s.resets + 1) k) ∧ (∀ k, obufByte t k = Config.obufFree s.ops k)

/-- R38: after reset every register is 0, every entry of FREQ, NODE and CODE is all-zero (KIND = FREE, no code),
and the contents of IBUF and OBUF are unspecified (free values, whatever they are). -/
def Obligations.ResetStateIsZero : Prop :=
  (∀ f : Flag, State.reset.flag f = false)
    ∧ State.reset.status = 0 ∧ State.reset.err = 0 ∧ State.reset.errcmd = 0 ∧ State.reset.root = 0
    ∧ State.reset.totbits = 0 ∧ State.reset.wlen = 0 ∧ State.reset.wcnt = 0 ∧ State.reset.wacc = 0
    ∧ State.reset.lastpad = 0 ∧ State.reset.ilen = 0 ∧ State.reset.rpos = 0 ∧ State.reset.rlim = 0
    ∧ State.reset.cur = 0 ∧ State.reset.symcnt = 0
    ∧ (∀ k : Sym, freqAt State.reset k = 0)
    ∧ (∀ i : NodeIdx, nodeAt State.reset i = ⟨.free, 0, 0, 0, 0⟩)
    ∧ (∀ k : Sym, codeOf State.reset.code k = ⟨0, 0⟩)
    ∧ (∀ k, ibufByte State.reset k = Config.ibufFree 0 k) ∧ (∀ k, obufByte State.reset k = Config.obufFree 0 k)

/-! ## The tree builder -/

/-- R136: TB_CLRF, the word 0x11000000, clears FREQ, returns (OK, 0, 0), and changes no flag and nothing else;
TB_BUILD after it faults with E_EMPTY_TABLE. -/
def Obligations.TbClrfClearsCounts : Prop :=
  decode 0x11000000 = some .tbClrf ∧ ∀ s : State, Unlocked s →
    ∃ t, exec .tbClrf s = .next t ∧ (∀ k : Sym, freqAt t k = 0)
      ∧ t = { s with freq := t.freq, reply := okReply 0 }
      ∧ exec .tbBuild t = .next (raiseFault .emptyTable 0x10000000 t)

/-- R137, R138: TB_BUILD faults with E_EMPTY_TABLE when no count is nonzero, else with E_WEIGHT_OVF when the counts
sum to 2^56 or more, and builds nothing. -/
def Obligations.TbBuildRefusesBadTables : Prop :=
  ∀ s : State, Unlocked s →
    ((∀ k : Sym, freqAt s k = 0) → exec .tbBuild s = .next (raiseFault .emptyTable (encode .tbBuild) s))
    ∧ ((∃ k : Sym, freqAt s k ≠ 0) → 2 ^ 56 ≤ ∑ k : Sym, (freqAt s k).toNat →
        exec .tbBuild s = .next (raiseFault .weightOvf (encode .tbBuild) s))

/-- R131: on a table with a nonzero count and a sum below 2^56, TB_BUILD ends OK with the root as its value; NODE
and ROOT are what the merging of the rule gives from the leaves (and the placeholder when there is one symbol),
TREE_VALID is 1, CODE_VALID and ARMED are 0, and nothing else changes. -/
def Obligations.TbBuildMergesTheLeastTwo : Prop :=
  ∀ s : State, Unlocked s → (∃ k : Sym, freqAt s k ≠ 0) → (∑ k : Sym, (freqAt s k).toNat) < 2 ^ 56 →
    ∃ (t : State) (m : Vector Node 512) (act : Finset NodeIdx),
      exec .tbBuild s = .next t ∧ t.reply = okReply (t.root.setWidth 64)
      ∧ t = { s with node := t.node, root := t.root, status := t.status, reply := t.reply }
      ∧ t.flag .treeValid = true ∧ t.flag .codeValid = false ∧ t.flag .armed = false
      ∧ t.flag .phSeen = s.flag .phSeen ∧ t.flag .errf = s.flag .errf
      ∧ Merging m act 257 t.node t.root
      ∧ (∀ k : Sym, freqAt s k ≠ 0 →
          k.setWidth 9 ∈ act ∧ nodeOf m (k.setWidth 9) = ⟨.leaf, k, 0, 0, freqAt s k⟩)
      ∧ (∀ i : NodeIdx, i ∈ act → (∃ k : Sym, i = k.setWidth 9 ∧ freqAt s k ≠ 0)
          ∨ (i = 256 ∧ ∃ k : Sym, ∀ j : Sym, freqAt s j ≠ 0 ↔ j = k))
      ∧ ((∃ k : Sym, ∀ j : Sym, freqAt s j ≠ 0 ↔ j = k) →
          (256 : NodeIdx) ∈ act ∧ nodeOf m 256 = ⟨.placeholder, 0, 0, 0, 0⟩)
      ∧ (∀ i : NodeIdx, i ∉ act → nodeOf m i = ⟨.free, 0, 0, 0, 0⟩)

/-- R132: the order of candidates (weight first, then index) is a strict total order, so the least member of a
nonempty list of candidates is unique, and `leastOf` is it. -/
def Obligations.LeastCandidateIsUnique : Prop :=
  ∀ m : Vector Node 512,
    (∀ i j : NodeIdx, comesBefore m i j = true ↔
      (nodeOf m i).weight.toNat < (nodeOf m j).weight.toNat
        ∨ (nodeOf m i).weight.toNat = (nodeOf m j).weight.toNat ∧ i.toNat < j.toNat)
    ∧ (∀ i : NodeIdx, comesBefore m i i = false)
    ∧ (∀ i j k : NodeIdx, comesBefore m i j = true → comesBefore m j k = true → comesBefore m i k = true)
    ∧ (∀ i j : NodeIdx, i ≠ j → comesBefore m i j = true ∨ comesBefore m j i = true)
    ∧ (∀ (a : NodeIdx) (l : List NodeIdx), leastOf m a l ∈ a :: l
        ∧ ∀ x ∈ a :: l, x ≠ leastOf m a l → comesBefore m (leastOf m a l) x = true)

/-- R133: with exactly one nonzero count TB_BUILD gives NODE[257] = INTERNAL(256, s, FREQ[s]) over the placeholder
of weight 0 at 256 and the leaf at s, ROOT = 257, and every other entry FREE. -/
def Obligations.SingleSymbolTree : Prop :=
  ∀ (s : State) (k : Sym), Unlocked s → (∀ j : Sym, freqAt s j ≠ 0 ↔ j = k) →
    ∃ t, exec .tbBuild s = .next t ∧ t.reply = okReply 257 ∧ t.root = 257
      ∧ nodeAt t 257 = ⟨.internal, 0, 256, k.setWidth 9, freqAt s k⟩
      ∧ nodeAt t 256 = ⟨.placeholder, 0, 0, 0, 0⟩
      ∧ nodeAt t (k.setWidth 9) = ⟨.leaf, k, 0, 0, freqAt s k⟩
      ∧ ∀ i : NodeIdx, i ≠ 257 → i ≠ 256 → i ≠ k.setWidth 9 → nodeAt t i = ⟨.free, 0, 0, 0, 0⟩

/-- R134: with L leaves (the nonzero counts, and 2 when there is only one) TB_BUILD gives ROOT = 255 + L, internal;
the internal nodes are exactly NODE[257] to NODE[255 + L], each with children of smaller index; the leaf of
symbol k is NODE[k] with weight FREQ[k]; the root's weight is the sum of the counts. -/
def Obligations.BuiltTreeShape : Prop :=
  ∀ (s : State) (l : Nat), Unlocked s → (∑ k : Sym, (freqAt s k).toNat) < 2 ^ 56 →
    (∃ k : Sym, freqAt s k ≠ 0) →
    l = max 2 (Finset.univ.filter (fun k : Sym => freqAt s k ≠ 0)).card →
    ∃ t, exec .tbBuild s = .next t ∧ t.root.toNat = 255 + l
      ∧ (nodeAt t t.root).weight.toNat = ∑ k : Sym, (freqAt s k).toNat
      ∧ (∀ i : NodeIdx, (nodeAt t i).kind = .internal ↔ 257 ≤ i.toNat ∧ i.toNat ≤ 255 + l)
      ∧ (∀ i : NodeIdx, (nodeAt t i).kind = .internal →
          (nodeAt t i).left.toNat < i.toNat ∧ (nodeAt t i).right.toNat < i.toNat)
      ∧ (∀ i : NodeIdx, (nodeAt t i).kind = .leaf ↔ ∃ k : Sym, i = k.setWidth 9 ∧ freqAt s k ≠ 0)
      ∧ (∀ k : Sym, freqAt s k ≠ 0 → nodeAt t (k.setWidth 9) = ⟨.leaf, k, 0, 0, freqAt s k⟩)

/-- R135: the tree TB_BUILD builds has an internal root and, as its real leaves, exactly the counted symbols weighted
with their counts, and it is optimal: no such tree has a smaller weighted path length. Hence it takes at most 8
bits for each counted byte (R251 f). -/
def Obligations.BuiltTreeIsOptimal : Prop :=
  ∀ s : State, Unlocked s → (∃ k : Sym, freqAt s k ≠ 0) → (∑ k : Sym, (freqAt s k).toNat) < 2 ^ 56 →
    ∃ t x, exec .tbBuild s = .next t ∧ TreeAt t.node t.root x
      ∧ (∃ l r, x = .branch l r) ∧ x.symbols.Nodup ∧ (∀ k : Sym, k ∈ x.symbols ↔ freqAt s k ≠ 0)
      ∧ (∀ l ∈ x.leaves, l.2.1 = freqAt s l.1)
      ∧ (∀ y : Tree, (∃ l r, y = .branch l r) → y.symbols.Nodup → (∀ k : Sym, k ∈ y.symbols ↔ freqAt s k ≠ 0) →
          (∀ l ∈ y.leaves, l.2.1 = freqAt s l.1) → x.cost ≤ y.cost)
      ∧ x.cost ≤ 8 * ∑ k : Sym, (freqAt s k).toNat

/-! ## The code table generator -/

/-- R151: on a tree it accepts, CTG_GEN ends OK with the number of real leaves as its value; the code of each leaf's
symbol is the path to it, with BITS[254:LEN] = 0 (R32), no other symbol has a code, TOTBITS is the weighted path length modulo 2^64,
CODE_VALID is 1, and nothing else changes. -/
def Obligations.CtgGenCodesTheTree : Prop :=
  ∀ (s : State) (x : Tree), Unlocked s → s.flag .treeValid = true → TreeAt s.node s.root x → x.Codable →
    ∃ t, exec .ctgGen s = .next t ∧ t.reply = okReply (BitVec.ofNat 64 x.symbols.length)
      ∧ (∀ l ∈ x.leaves, hasCode t.code l.1 ∧ codeString (codeOf t.code l.1) = l.2.2
        ∧ (codeOf t.code l.1).len.toNat = l.2.2.length
        ∧ ∀ j, (codeOf t.code l.1).len.toNat ≤ j → (codeOf t.code l.1).bits.getLsbD j = false)
      ∧ (∀ k : Sym, k ∉ x.symbols → codeOf t.code k = ⟨0, 0⟩)
      ∧ t.totbits.toNat = x.cost % 2 ^ 64
      ∧ t = { s with code := t.code, totbits := t.totbits, status := putFlag s.status .codeValid true, reply := t.reply }

/-- R152, R153 c: CTG_GEN always ends, and where it ends OK the nodes reachable from ROOT form a tree it accepts. -/
def Obligations.CtgGenAcceptsOnlyTrees : Prop :=
  ∀ s : State, Unlocked s →
    ∃ t, exec .ctgGen s = .next t ∧ ∀ v, t.reply = okReply v → ∃ x, TreeAt s.node s.root x ∧ x.Codable

/-- R153 b, R35 item 7: in a code table CTG_GEN made, no code begins another symbol's code, and every code has 1 to
255 bits. -/
def Obligations.CodesArePrefixFree : Prop :=
  ∀ (s : State), CodeOk s → s.flag .codeValid = true →
    NoCodeBeginsAnother s.code
    ∧ ∀ k : Sym, hasCode s.code k → 1 ≤ (codeString (codeOf s.code k)).length
        ∧ (codeString (codeOf s.code k)).length ≤ 255

/-- R153 d: walking from ROOT along the code of a symbol ends on the leaf of that symbol, over internal nodes only. -/
def Obligations.CodeLeadsToItsLeaf : Prop :=
  ∀ (s : State) (k : Sym), CodeOk s → s.flag .codeValid = true → hasCode s.code k →
    (nodeAt s (follow s.node s.root (codeString (codeOf s.code k)))).kind = .leaf
    ∧ (nodeAt s (follow s.node s.root (codeString (codeOf s.code k)))).sym = k
    ∧ ∀ n, n < (codeString (codeOf s.code k)).length →
        (nodeAt s (follow s.node s.root ((codeString (codeOf s.code k)).take n))).kind = .internal

/-- R151, R155, R286, R288: CTG_GEN faults with E_NO_TREE, nothing written, when TREE_VALID is 0; with E_BAD_TREE when
the root is not internal; otherwise exactly with the first thing wrong in preorder: a FREE node is E_BAD_NODE, an
internal node at depth 255 or a second placeholder E_BAD_TREE, a symbol met before E_DUP_SYMBOL. Every fault but
E_NO_TREE leaves CODE all zero, TOTBITS 0 and CODE_VALID 0, and nothing else changed. -/
def Obligations.CtgGenFaultsClearTheTable : Prop :=
  ∀ s : State, Unlocked s →
    (s.flag .treeValid = false → exec .ctgGen s = .next (raiseFault .noTree (encode .ctgGen) s))
    ∧ (s.flag .treeValid = true → (nodeAt s s.root).kind ≠ .internal →
        ∃ t, exec .ctgGen s = .next t ∧ t.reply = faultReply .badTree)
    ∧ (s.flag .treeValid = true → (nodeAt s s.root).kind = .internal → ∀ c : Cause,
        (∃ t, exec .ctgGen s = .next t ∧ t.reply = faultReply c) ↔
          ∃ p, OnWalk s.node s.root p ∧ Objection s.node s.root p c
            ∧ ∀ q d, OnWalk s.node s.root q → PathBefore q p → ¬ Objection s.node s.root q d)
    ∧ (∀ (t : State) (c : Cause), exec .ctgGen s = .next t → t.reply = faultReply c → c ≠ .noTree →
        t = { s with
          code := Vector.replicate 256 ⟨0, 0⟩, totbits := 0
          status := putFlag (putFlag s.status .codeValid false) .errf true
          err := 0x2#4 ++ causeCode c, errcmd := 0x20000000, reply := faultReply c })

/-- R154, R155: CTG_GEN right after TB_BUILD never faults; every counted symbol gets a code, no other does, the
response is their number, and TOTBITS is exactly the number of bits the counted input takes. -/
def Obligations.CtgGenAfterTbBuild : Prop :=
  ∀ s t : State, Unlocked s → (∃ k : Sym, freqAt s k ≠ 0) → (∑ k : Sym, (freqAt s k).toNat) < 2 ^ 56 →
    exec .tbBuild s = .next t →
    ∃ u, exec .ctgGen t = .next u
      ∧ u.reply = okReply (BitVec.ofNat 64 (Finset.univ.filter (fun k : Sym => freqAt s k ≠ 0)).card)
      ∧ u.flag .codeValid = true
      ∧ (∀ k : Sym, hasCode u.code k ↔ freqAt s k ≠ 0)
      ∧ u.totbits.toNat = ∑ k : Sym, (freqAt s k).toNat * (codeOf u.code k).len.toNat

/-! ## The writer -/

/-- R171: BSW_INIT, the word 0x30000000, empties the writer, returns (OK, 0, 0) and writes neither OBUF nor a flag
nor anything else. -/
def Obligations.BswInitEmptiesTheWriter : Prop :=
  decode 0x30000000 = some .bswInit ∧ ∀ s : State, Unlocked s →
    exec .bswInit s = .next { s with wlen := 0, wcnt := 0, wacc := 0, lastpad := 0, reply := okReply 0 }

/-- R172, R63: where the bits fit, BSW_PUTBITS n, v ends OK with WBITS as its value, having appended v[n-1], ...,
v[0] to the stream; only the writer's registers and the bytes completed change. -/
def Obligations.PutbitsAppendsTheBits : Prop :=
  ∀ (n : BitVec 8) (v : BitVec 16) (s : State), Unlocked s → CapacitiesOk s → n.toNat ≤ 16 → v.toNat < 2 ^ n.toNat →
    8 * s.wlen.toNat + s.wcnt.toNat + n.toNat ≤ 8 * s.ocap →
    ∃ t, exec (.bswPutbits n v) s = .next t
      ∧ outputBits t = outputBits s ++ (List.range n.toNat).map (fun j => v.getLsbD (n.toNat - 1 - j))
      ∧ 8 * t.wlen.toNat + t.wcnt.toNat = 8 * s.wlen.toNat + s.wcnt.toNat + n.toNat
      ∧ t.reply = okReply (BitVec.ofNat 64 (8 * t.wlen.toNat + t.wcnt.toNat))
      ∧ t = { s with wlen := t.wlen, wcnt := t.wcnt, wacc := t.wacc, obuf := t.obuf, reply := t.reply }
      ∧ StoresOnlyOutput s t

/-- R173: where CODE is valid, the symbol has a code and it fits, BSW_PUTSYM ends OK with the code's length as its
value, having appended BITS[LEN-1], ..., BITS[0]; only the writer's registers and the bytes completed change. -/
def Obligations.PutsymAppendsTheCode : Prop :=
  ∀ (k : Sym) (s : State), Unlocked s → CapacitiesOk s → s.flag .codeValid = true →
    (codeOf s.code k).len ≠ 0 →
    8 * s.wlen.toNat + s.wcnt.toNat + (codeOf s.code k).len.toNat ≤ 8 * s.ocap →
    ∃ t, exec (.bswPutsym k) s = .next t
      ∧ outputBits t = outputBits s ++ (List.range (codeOf s.code k).len.toNat).map
          (fun j => (codeOf s.code k).bits.getLsbD ((codeOf s.code k).len.toNat - 1 - j))
      ∧ t.reply = okReply ((codeOf s.code k).len.setWidth 64)
      ∧ t = { s with wlen := t.wlen, wcnt := t.wcnt, wacc := t.wacc, obuf := t.obuf, reply := t.reply }
      ∧ StoresOnlyOutput s t

/-- R174, R72: BSW_FLUSH appends the least number of zero bits that completes a byte, records it in LASTPAD and
returns it; afterwards the accumulator is empty and the stream is the bytes OBUF[0..WLEN-1]. -/
def Obligations.FlushPadsWithZeros : Prop :=
  ∀ s : State, Unlocked s → CapacitiesOk s → WriterOk s →
    ∃ t, exec .bswFlush s = .next t
      ∧ (∃ p, p < 8 ∧ (8 * s.wlen.toNat + s.wcnt.toNat + p) % 8 = 0
          ∧ outputBits t = outputBits s ++ List.replicate p false
          ∧ t.lastpad.toNat = p ∧ t.reply = okReply (BitVec.ofNat 64 p))
      ∧ t.wcnt = 0 ∧ t.wacc = 0
      ∧ outputBits t = (List.range t.wlen.toNat).flatMap (fun k => byteBits (obufByte t k))
      ∧ t = { s with
          wlen := t.wlen, wcnt := t.wcnt, wacc := t.wacc, obuf := t.obuf, lastpad := t.lastpad, reply := t.reply }
      ∧ StoresOnlyOutput s t

/-- R172, R173, R286: the writer's faults and their order: BSW_PUTBITS E_OVERFLOW; BSW_PUTSYM E_STALE_CODE, then
E_NO_CODE, then E_OVERFLOW; nothing is written. -/
def Obligations.WriterFaultsInOrder : Prop :=
  ∀ (s : State) (n : BitVec 8) (v : BitVec 16) (k : Sym), Unlocked s →
    (n.toNat ≤ 16 → v.toNat < 2 ^ n.toNat → 8 * s.ocap < 8 * s.wlen.toNat + s.wcnt.toNat + n.toNat →
      exec (.bswPutbits n v) s = .next (raiseFault .overflow (encode (.bswPutbits n v)) s))
    ∧ (s.flag .codeValid = false → exec (.bswPutsym k) s = .next (raiseFault .staleCode (encode (.bswPutsym k)) s))
    ∧ (s.flag .codeValid = true → (codeOf s.code k).len = 0 →
      exec (.bswPutsym k) s = .next (raiseFault .noCode (encode (.bswPutsym k)) s))
    ∧ (s.flag .codeValid = true → (codeOf s.code k).len ≠ 0 →
      8 * s.ocap < 8 * s.wlen.toNat + s.wcnt.toNat + (codeOf s.code k).len.toNat →
      exec (.bswPutsym k) s = .next (raiseFault .overflow (encode (.bswPutsym k)) s))

/-! ## The reader -/

/-- R191: BSR_OPEN, the word 0x40000000, faults with E_BAD_LEN when ILEN > ICAP, and otherwise sets RPOS to 0 and
RLIM to 8*ILEN, returns RLIM, and changes nothing else. -/
def Obligations.OpenStartsAtTheFirstBit : Prop :=
  decode 0x40000000 = some .bsrOpen ∧ ∀ s : State, Unlocked s → CapacitiesOk s →
    (s.icap < s.ilen.toNat → exec .bsrOpen s = .next (raiseFault .badLen (encode .bsrOpen) s))
    ∧ (s.ilen.toNat ≤ s.icap → ∃ t, exec .bsrOpen s = .next t ∧ t.rlim.toNat = 8 * s.ilen.toNat
        ∧ t = { s with rpos := 0, rlim := t.rlim, reply := okReply t.rlim })

/-- R192, R61, R63: where n bits remain, BSR_GETBITS n returns the n bits from RPOS on as a number, first bit most
significant and below 2^n, advances RPOS by n, and changes nothing else. Bytes not written since reset are
free values, and the statement holds whatever they are. -/
def Obligations.GetbitsReadsTheNumber : Prop :=
  ∀ (n : BitVec 8) (s : State), Unlocked s → n.toNat ≤ 16 → s.rpos.toNat + n.toNat ≤ s.rlim.toNat →
    s.rlim.toNat ≤ 8 * s.icap →
    ∃ t v, exec (.bsrGetbits n) s = .next t ∧ v < 2 ^ n.toNat
      ∧ (∀ j, j < n.toNat → v.testBit (n.toNat - 1 - j) =
          (ibufByte s ((s.rpos.toNat + j) / 8)).getLsbD (7 - (s.rpos.toNat + j) % 8))
      ∧ t.rpos.toNat = s.rpos.toNat + n.toNat
      ∧ t = { s with rpos := t.rpos, reply := okReply (BitVec.ofNat 64 v) }

/-- R193: where the last p bits before RLIM exist and are 0, BSR_TRIM p lowers RLIM by p, returns the number of bits
left, and changes nothing else. -/
def Obligations.TrimTakesZeroBits : Prop :=
  ∀ (p : BitVec 8) (s : State), Unlocked s → p.toNat ≤ 7 → s.rpos.toNat + p.toNat ≤ s.rlim.toNat →
    s.rlim.toNat ≤ 8 * s.icap → (∀ j, j < p.toNat → inputBit s (s.rlim.toNat - p.toNat + j) = false) →
    ∃ t, exec (.bsrTrim p) s = .next t ∧ t.rlim.toNat = s.rlim.toNat - p.toNat
      ∧ t = { s with rlim := t.rlim, reply := okReply (BitVec.ofNat 64 (t.rlim.toNat - s.rpos.toNat)) }

/-- R192, R193, R286: the reader's faults and their order: BSR_GETBITS E_UNDERRUN; BSR_TRIM E_PAD_RANGE, then
E_PAD_NONZERO; the reader's state is unchanged. -/
def Obligations.ReaderFaultsInOrder : Prop :=
  ∀ (s : State) (n p : BitVec 8), Unlocked s → n.toNat ≤ 16 → p.toNat ≤ 7 → ReaderOk s →
    (s.rlim.toNat < s.rpos.toNat + n.toNat →
      exec (.bsrGetbits n) s = .next (raiseFault .underrun (encode (.bsrGetbits n)) s))
    ∧ (s.rlim.toNat < s.rpos.toNat + p.toNat →
      exec (.bsrTrim p) s = .next (raiseFault .padRange (encode (.bsrTrim p)) s))
    ∧ (s.rpos.toNat + p.toNat ≤ s.rlim.toNat →
      (∃ j, j < p.toNat ∧ inputBit s (s.rlim.toNat - p.toNat + j) = true) →
      exec (.bsrTrim p) s = .next (raiseFault .padNonzero (encode (.bsrTrim p)) s))

/-! ## The walker -/

/-- R211: with a tree whose root is internal DTW_START puts CUR at ROOT, SYMCNT and PH_SEEN to 0 and ARMED to 1,
returns ROOT, and touches neither reader nor writer nor anything else. -/
def Obligations.StartArmsTheWalker : Prop :=
  ∀ s : State, Unlocked s → s.flag .treeValid = true → (nodeAt s s.root).kind = .internal →
    ∃ t, exec .dtwStart s = .next t ∧ t.flag .armed = true ∧ t.flag .phSeen = false
      ∧ t.flag .treeValid = s.flag .treeValid ∧ t.flag .codeValid = s.flag .codeValid ∧ t.flag .errf = s.flag .errf
      ∧ t = { s with cur := s.root, symcnt := 0, status := t.status, reply := okReply (s.root.setWidth 64) }

/-- R212: with the walker armed and a payload bit left, DTW_STEP consumes it and moves to the LEFT child on 0 and
the RIGHT child on 1: an INTERNAL child becomes CUR; a LEAF's symbol is appended as 8 bits, counted, and CUR
returns to ROOT; a PLACEHOLDER sets PH_SEEN and CUR returns to ROOT. The response says which; nothing else changes. -/
def Obligations.StepMovesOneEdge : Prop :=
  ∀ (s : State) (c : Node), Unlocked s → CapacitiesOk s → s.flag .armed = true →
    s.rpos.toNat < s.rlim.toNat → s.rpos.toNat < 8 * s.icap →
    c = nodeAt s (if inputBit s s.rpos.toNat then (nodeAt s s.cur).right else (nodeAt s s.cur).left) →
    (c.kind = .internal →
      exec .dtwStep s = .next { s with
        rpos := s.rpos + 1, reply := okReply 0x000
        cur := if inputBit s s.rpos.toNat then (nodeAt s s.cur).right else (nodeAt s s.cur).left })
    ∧ (c.kind = .leaf → 8 * s.wlen.toNat + s.wcnt.toNat + 8 ≤ 8 * s.ocap →
      ∃ t, exec .dtwStep s = .next t ∧ outputBits t = outputBits s ++ byteBits c.sym
        ∧ t = { s with
            rpos := s.rpos + 1, cur := s.root, symcnt := s.symcnt + 1, reply := okReply (0x100 + c.sym.setWidth 64)
            wlen := t.wlen, wcnt := t.wcnt, wacc := t.wacc, obuf := t.obuf }
        ∧ StoresOnlyOutput s t)
    ∧ (c.kind = .placeholder →
      exec .dtwStep s = .next { s with
        rpos := s.rpos + 1, cur := s.root, status := putFlag s.status .phSeen true, reply := okReply 0x200 })

/-- R213: DTW_RUN is DTW_STEP repeated. With no payload bit left it returns SYMCNT at the root and faults with
E_TRUNC_SYMBOL elsewhere; with one left, a DTW_STEP that ends OK may be done first, and a DTW_STEP that faults ends
DTW_RUN with the same fault. -/
def Obligations.RunIsRepeatedSteps : Prop :=
  ∀ s : State, Unlocked s → s.flag .armed = true → ReaderOk s →
    (s.rpos = s.rlim → s.cur = s.root → exec .dtwRun s = .next { s with reply := okReply s.symcnt })
    ∧ (s.rpos = s.rlim → s.cur ≠ s.root → exec .dtwRun s = .next (raiseFault .truncSymbol (encode .dtwRun) s))
    ∧ (s.rpos ≠ s.rlim → ∀ t v, exec .dtwStep s = .next t → t.reply = okReply v → exec .dtwRun s = exec .dtwRun t)
    ∧ (s.rpos ≠ s.rlim → ∀ t c, exec .dtwStep s = .next t → t.reply = faultReply c →
        exec .dtwRun s = .next (raiseFault c (encode .dtwRun) s))

/-- R211, R212, R213, R286: the walker's faults and their order: DTW_START E_NO_TREE, then E_BAD_TREE; DTW_STEP
E_NOT_ARMED, then E_UNDERRUN, then E_BAD_NODE, then E_OVERFLOW; DTW_RUN E_NOT_ARMED; nothing is written. -/
def Obligations.WalkerFaultsInOrder : Prop :=
  ∀ (s : State) (c : Node), Unlocked s →
    c = nodeAt s (if inputBit s s.rpos.toNat then (nodeAt s s.cur).right else (nodeAt s s.cur).left) →
    (s.flag .treeValid = false → exec .dtwStart s = .next (raiseFault .noTree (encode .dtwStart) s))
    ∧ (s.flag .treeValid = true → (nodeAt s s.root).kind ≠ .internal →
      exec .dtwStart s = .next (raiseFault .badTree (encode .dtwStart) s))
    ∧ (s.flag .armed = false → exec .dtwStep s = .next (raiseFault .notArmed (encode .dtwStep) s)
      ∧ exec .dtwRun s = .next (raiseFault .notArmed (encode .dtwRun) s))
    ∧ (s.flag .armed = true → s.rlim.toNat ≤ s.rpos.toNat →
      exec .dtwStep s = .next (raiseFault .underrun (encode .dtwStep) s))
    ∧ (s.flag .armed = true → s.rpos.toNat < s.rlim.toNat → s.rlim.toNat ≤ 8 * s.icap → c.kind = .free →
      exec .dtwStep s = .next (raiseFault .badNode (encode .dtwStep) s))
    ∧ (s.flag .armed = true → s.rpos.toNat < s.rlim.toNat → s.rlim.toNat ≤ 8 * s.icap → c.kind = .leaf →
      8 * s.ocap < 8 * s.wlen.toNat + s.wcnt.toNat + 8 →
      exec .dtwStep s = .next (raiseFault .overflow (encode .dtwStep) s))

/-- R215: where CODE is valid for the present tree, the payload between RPOS and RLIM is the codes of x1, ..., xn,
the walker is armed at ROOT and OBUF has room, DTW_RUN ends OK: it emits x1, ..., xn in that order, never meets the
placeholder, ends with CUR = ROOT and returns n (SYMCNT counted from where it stood); only the reader's cursor,
the walker's and the writer's registers and the bytes completed change. -/
def Obligations.WalkerInvertsTheWriter : Prop :=
  ∀ (s : State) (xs : List Sym), StateOk s → Unlocked s → s.flag .codeValid = true → s.flag .armed = true →
    s.cur = s.root → (∀ x ∈ xs, hasCode s.code x) →
    payloadBits s = xs.flatMap (fun x => codeString (codeOf s.code x)) →
    8 * s.wlen.toNat + s.wcnt.toNat + 8 * xs.length ≤ 8 * s.ocap →
    ∃ t, exec .dtwRun s = .next t
      ∧ outputBits t = outputBits s ++ xs.flatMap byteBits
      ∧ t.symcnt = s.symcnt + BitVec.ofNat 64 xs.length
      ∧ t.reply = okReply t.symcnt
      ∧ t = { s with
          rpos := s.rlim, symcnt := t.symcnt, reply := t.reply
          wlen := t.wlen, wcnt := t.wcnt, wacc := t.wacc, obuf := t.obuf }
      ∧ StoresOnlyOutput s t

/-- R212, R213, R288: whatever DTW_STEP or DTW_RUN meets, a next state differs from the state before in RPOS, CUR,
SYMCNT, PH_SEEN, the writer's registers and the bytes completed, the fault record and the response alone. -/
def Obligations.WalkerFrame : Prop :=
  ∀ (i : Instr) (s t : State), StateOk s → i = .dtwStep ∨ i = .dtwRun → exec i s = .next t →
    t = { s with
      rpos := t.rpos, cur := t.cur, symcnt := t.symcnt, status := t.status, err := t.err, errcmd := t.errcmd
      wlen := t.wlen, wcnt := t.wcnt, wacc := t.wacc, obuf := t.obuf, reply := t.reply }
    ∧ (∀ f : Flag, f ≠ .phSeen → f ≠ .errf → t.flag f = s.flag f)
    ∧ s.rpos.toNat ≤ t.rpos.toNat ∧ t.rpos.toNat ≤ s.rlim.toNat
    ∧ StoresOnlyOutput s t

/-! ## Whole-machine rules -/

/-- R60, R20: each memory is written by the commands the table names and by no other; no command writes IBUF or the
parameters or the host's stream. SYS_RESET stands beside them for IBUF and OBUF because the model drops what the two
lists hold when it makes their contents unspecified (R122): the model's own form, log entries 4 and 5. -/
def Obligations.MemoriesChangeOnlyAsListed : Prop :=
  ∀ (i : Instr) (s t : State), exec i s = .next t →
    (t.freq ≠ s.freq → i = .tbClrf ∨ i = .sysReset)
    ∧ (t.node ≠ s.node → i = .tbBuild ∨ i = .sysReset)
    ∧ (t.code ≠ s.code → i = .ctgGen ∨ i = .sysReset)
    ∧ (t.ibuf ≠ s.ibuf ∨ t.resets ≠ s.resets → i = .sysReset)
    ∧ (t.obuf ≠ s.obuf → (∃ n v, i = .bswPutbits n v) ∨ (∃ k, i = .bswPutsym k) ∨ i = .bswFlush
        ∨ i = .dtwStep ∨ i = .dtwRun ∨ i = .sysReset)
    ∧ t.ocap = s.ocap ∧ t.icap = s.icap ∧ t.pending = s.pending ∧ t.ops = s.ops

/-- R23: no command other than those listed sets or clears a flag. -/
def Obligations.FlagsChangeOnlyAsListed : Prop :=
  ∀ (i : Instr) (s t : State), exec i s = .next t →
    (s.flag .treeValid = false → t.flag .treeValid = true → i = .tbBuild)
    ∧ (s.flag .treeValid = true → t.flag .treeValid = false → i = .sysReset)
    ∧ (s.flag .codeValid = false → t.flag .codeValid = true → i = .ctgGen)
    ∧ (s.flag .codeValid = true → t.flag .codeValid = false → i = .sysReset ∨ i = .tbBuild ∨ i = .ctgGen)
    ∧ (s.flag .armed = false → t.flag .armed = true → i = .dtwStart)
    ∧ (s.flag .armed = true → t.flag .armed = false → i = .sysReset ∨ i = .tbBuild)
    ∧ (s.flag .phSeen = false → t.flag .phSeen = true → i = .dtwStep ∨ i = .dtwRun)
    ∧ (s.flag .phSeen = true → t.flag .phSeen = false → i = .sysReset ∨ i = .dtwStart)
    ∧ (s.flag .errf = false → t.flag .errf = true → ∃ c, t.reply = faultReply c)
    ∧ (s.flag .errf = true → t.flag .errf = false → i = .sysReset)

/-- R35, R320: the reset state meets the invariants. -/
def Obligations.ResetMeetsInvariants : Prop := StateOk State.reset

/-- R35: every step keeps the invariants of reachable states, whatever the host has issued. -/
def Obligations.StepKeepsInvariants : Prop := ∀ s t : State, StateOk s → step s = .next t → StateOk t

/-- R62, R64, R95, R329: in a state that meets the invariants a step always ends in a next state: no position outside
a buffer is met and no word lacks an outcome. -/
def Obligations.InvariantStatesNeverStop : Prop := ∀ s : State, StateOk s → ∃ t, step s = .next t

/-! ## The host sequences -/

/-- R231: FREQ_COUNT sets FREQ to the count of each byte value of X and changes no other state of the block. -/
def Obligations.FreqCountCountsBytes : Prop :=
  ∀ (x : List Byte) (s : State), Unlocked s → x.length < 2 ^ 56 →
    ∃ t, freqCount x s = (.ok (), t) ∧ (∀ k : Sym, (freqAt t k).toNat = x.count k)
      ∧ t = { s with freq := t.freq, ops := t.ops, reply := t.reply }

/-- R245: where GET_TREE returns a root, the nodes reachable from it form a tree that CTG_GEN accepts, with a
placeholder only beside exactly one real symbol, and the root's entry is INTERNAL. -/
def Obligations.GetTreeReadsOnlyTrees : Prop :=
  ∀ (s t : State) (root : Nat), CapacitiesOk s → Unlocked s → ReaderOk s → getTree s = (.ok root, t) →
    (nodeAt t (BitVec.ofNat 9 root)).kind = .internal
    ∧ ∃ x, TreeAt t.node (BitVec.ofNat 9 root) x ∧ x.Codable ∧ (x.placeholders = 1 → x.symbols.length = 1)

/-- R236, R244, R256, R258 items 3 and 4: COMPRESS of the empty sequence is the one byte 0x80, and DECOMPRESS of it
is the empty sequence; DECOMPRESS refuses the empty sequence with F_EMPTY_INPUT, a first byte of 0x40 to 0x7F
with F_ROOT_LEAF, a first byte of 0x81 to 0xFF, and 0x80 with more bytes after it, with F_BAD_EMPTY, and a first
leaf, left under the root, of leaf id 0x101 to 0x1FF with F_RESERVED_LEAF; from any state of any block with room.
And wherever GET_TREE meets a leaf (R238, R243), it refuses it at depth 0 with F_ROOT_LEAF, and below with
F_RESERVED_LEAF where its 9 bits are 0x101 to 0x1FF, with F_DUP_SYMBOL where they are a symbol met before, with
F_MULTI_PLACEHOLDER where they are 0x100 and a placeholder was met before. -/
def Obligations.EmptyArchiveAndForeignStarts : Prop :=
  (∀ (s : State) (b : Byte) (rest : List Byte), CapacitiesOk s → (b :: rest).length ≤ s.icap →
    (∃ t, compress [] s = (.ok [0x80], t)) ∧ (∃ t, decompress [0x80] s = (.ok [], t))
    ∧ (∃ t, decompress [] s = (.error .emptyInput, t))
    ∧ (0x40 ≤ b.toNat → b.toNat ≤ 0x7F → ∃ t, decompress (b :: rest) s = (.error .rootLeaf, t))
    ∧ (0x80 ≤ b.toNat → b :: rest ≠ [0x80] → ∃ t, decompress (b :: rest) s = (.error .badEmpty, t))
    ∧ (∀ b' rest', rest = b' :: rest' → b.toNat / 2 ^ 5 = 1 →
        0x101 ≤ b.toNat % 2 ^ 5 * 2 ^ 4 + b'.toNat / 2 ^ 4 →
        ∃ t, decompress (b :: rest) s = (.error .reservedLeaf, t)))
  ∧ ∀ (s : State) (n depth v : Nat) (h : ParseVars), Unlocked s → ReaderOk s → CapacitiesOk s →
    s.rpos.toNat + 10 ≤ s.rlim.toNat → inputBit s s.rpos.toNat = true →
    v = bitsValue (inputBits s (s.rpos.toNat + 1) 9) →
    (depth = 0 → ∃ t, parseNode (n + 1) depth h s = (.error .rootLeaf, t))
    ∧ (depth ≠ 0 → 0x101 ≤ v → ∃ t, parseNode (n + 1) depth h s = (.error .reservedLeaf, t))
    ∧ (depth ≠ 0 → v ≤ 0xFF → BitVec.ofNat 8 v ∈ h.seen →
        ∃ t, parseNode (n + 1) depth h s = (.error .dupSymbol, t))
    ∧ (depth ≠ 0 → v = 0x100 → h.ph = true →
        ∃ t, parseNode (n + 1) depth h s = (.error .multiPlaceholder, t))

/-- R258 item 1, R251 a: every input X of fewer than 2^56 bytes has an archive, such that COMPRESS of X ends with it on
every block whose OCAP is at least the archive's length, whatever the block's state, and DECOMPRESS of it, on any
block with room for it and for X, ends with X. The archive has at most 353 + 32 bytes for each byte of X. -/
def Obligations.CompressDecompressRoundTrip : Prop :=
  ∀ x : List Byte, x.length < 2 ^ 56 → ∃ a : List Byte, a.length ≤ 353 + 32 * x.length ∧
    ∀ s : State, CapacitiesOk s → a.length ≤ s.ocap →
      (∃ t, compress x s = (.ok a, t)) ∧
      ∀ s' : State, CapacitiesOk s' → a.length ≤ s'.icap → x.length ≤ s'.ocap → ∃ t', decompress a s' = (.ok x, t')

/-- R258 item 2, R251 d: the archive is a function of X alone: two blocks of any state and any capacities that both
compress X give the same archive. -/
def Obligations.CompressIsDeterministic : Prop :=
  ∀ (x a a' : List Byte) (s s' t t' : State), x.length < 2 ^ 56 → CapacitiesOk s → CapacitiesOk s' →
    compress x s = (.ok a, t) → compress x s' = (.ok a', t') → a = a'

/-- R245, R256, R292: for every byte sequence DECOMPRESS ends, and where it fails the failure is a FormatError or a
CapacityError, never a HostError. -/
def Obligations.DecompressNeverBlamesTheHost : Prop :=
  ∀ (a : List Byte) (s t : State) (e : Failure), CapacitiesOk s → decompress a s = (.error e, t) →
    failureClass e = .formatError ∨ failureClass e = .capacityError
end

