-- ==== Sys2Proof/Laws/Decode.lean ====
section
/-! SUPPORT. Words and their fields (30_encoding.md rule R90), and what each row's decoder accepts. -/

namespace Sys2Proof

/-- Each bit of a word made of fields (R90). -/
theorem joinFields_getLsbD (f : Fields) (i : Nat) : (joinFields f).getLsbD i =
    if i < 16 then f.b.getLsbD i else if i < 24 then f.a.getLsbD (i - 16)
    else if i < 28 then f.op.getLsbD (i - 24) else f.unit.getLsbD (i - 28) := by
  unfold joinFields
  rw [BitVec.getLsbD_append, BitVec.getLsbD_append, BitVec.getLsbD_append]
  by_cases h1 : i < 16
  · simp [h1]
  · by_cases h2 : i < 24
    · have : i - 16 < 8 := by omega
      simp [h1, h2, this]
    · by_cases h3 : i < 28
      · have h4 : ¬ i - 16 < 8 := by omega
        have h6 : i - 16 - 8 = i - 24 := by omega
        have h5 : i - 24 < 4 := by omega
        simp [h1, h2, h3, h4, h5, h6]
      · have h4 : ¬ i - 16 < 8 := by omega
        have h5 : ¬ i - 16 - 8 < 4 := by omega
        have h6 : i - 16 - 8 - 4 = i - 28 := by omega
        simp [h1, h2, h3, h4, h5, h6]

/-- The fields of a word made of fields are those fields. -/
@[simp] theorem splitWord_joinFields (f : Fields) : splitWord (joinFields f) = f := by
  obtain ⟨u, o, a, b⟩ := f
  simp only [splitWord, Fields.mk.injEq]
  refine ⟨?_, ?_, ?_, ?_⟩ <;>
    (apply BitVec.eq_of_getLsbD_eq; intro i hi
     rw [BitVec.getLsbD_extractLsb', joinFields_getLsbD]
     simp only [hi, decide_true, Bool.true_and])
  · rw [if_neg (by omega), if_neg (by omega), if_neg (by omega)]; congr 1; omega
  · rw [if_neg (by omega), if_neg (by omega), if_pos (by omega)]; congr 1; omega
  · rw [if_neg (by omega), if_pos (by omega)]; congr 1; omega
  · rw [if_pos (by omega)]; congr 1; omega

/-- A word is the word made of its fields. -/
@[simp] theorem joinFields_splitWord (w : Word) : joinFields (splitWord w) = w := by
  apply BitVec.eq_of_getLsbD_eq
  intro i hi
  rw [joinFields_getLsbD]
  simp only [splitWord, BitVec.getLsbD_extractLsb']
  split
  · simp [*]
  · split
    · rw [show 16 + (i - 16) = i by omega]; simp; omega
    · split
      · rw [show 24 + (i - 24) = i by omega]; simp; omega
      · rw [show 28 + (i - 28) = i by omega]; simp; omega

theorem decodeBare_ok {f : Fields} {i j : Instr} :
    decodeBare f i = .ok j ↔ (f.a = 0 ∧ f.b = 0) ∧ i = j := by
  unfold decodeBare; split <;> simp_all

theorem decodeA_ok {f : Fields} {i j : Instr} {r : Bool} {out : Illegal} :
    decodeA f i r out = .ok j ↔ f.b = 0 ∧ r = true ∧ i = j := by
  unfold decodeA; split <;> [split; skip] <;> simp_all

theorem decodePutbits_ok {f : Fields} {j : Instr} :
    decodePutbits f = .ok j ↔ wfPutbits f.a f.b = true ∧ .bswPutbits f.a f.b = j := by
  unfold decodePutbits; split <;> simp_all

/-- Decoding a word made of fields is decoding the fields. -/
theorem decode_joinFields (f : Fields) : decode (joinFields f) = (decodeFields f).toOption := by
  simp [decode, decodeNamed]

end Sys2Proof
end

