-- ==== Sys2Proof/Laws/State.lean ====
section
/-! SUPPORT. The fields of a state after each named update, and the flags of each status word written: one
lemma per field per update, so that no later proof unfolds a record update. -/

namespace Sys2Proof.Machine

/-! ### respond -/

@[simp] theorem respond_status (v : BitVec 64) (s : State) : (respond v s).status = s.status := rfl
@[simp] theorem respond_err (v : BitVec 64) (s : State) : (respond v s).err = s.err := rfl
@[simp] theorem respond_errcmd (v : BitVec 64) (s : State) : (respond v s).errcmd = s.errcmd := rfl
@[simp] theorem respond_root (v : BitVec 64) (s : State) : (respond v s).root = s.root := rfl
@[simp] theorem respond_totbits (v : BitVec 64) (s : State) : (respond v s).totbits = s.totbits := rfl
@[simp] theorem respond_wlen (v : BitVec 64) (s : State) : (respond v s).wlen = s.wlen := rfl
@[simp] theorem respond_wcnt (v : BitVec 64) (s : State) : (respond v s).wcnt = s.wcnt := rfl
@[simp] theorem respond_wacc (v : BitVec 64) (s : State) : (respond v s).wacc = s.wacc := rfl
@[simp] theorem respond_lastpad (v : BitVec 64) (s : State) : (respond v s).lastpad = s.lastpad := rfl
@[simp] theorem respond_ilen (v : BitVec 64) (s : State) : (respond v s).ilen = s.ilen := rfl
@[simp] theorem respond_rpos (v : BitVec 64) (s : State) : (respond v s).rpos = s.rpos := rfl
@[simp] theorem respond_rlim (v : BitVec 64) (s : State) : (respond v s).rlim = s.rlim := rfl
@[simp] theorem respond_cur (v : BitVec 64) (s : State) : (respond v s).cur = s.cur := rfl
@[simp] theorem respond_symcnt (v : BitVec 64) (s : State) : (respond v s).symcnt = s.symcnt := rfl
@[simp] theorem respond_freq (v : BitVec 64) (s : State) : (respond v s).freq = s.freq := rfl
@[simp] theorem respond_node (v : BitVec 64) (s : State) : (respond v s).node = s.node := rfl
@[simp] theorem respond_code (v : BitVec 64) (s : State) : (respond v s).code = s.code := rfl
@[simp] theorem respond_ibuf (v : BitVec 64) (s : State) : (respond v s).ibuf = s.ibuf := rfl
@[simp] theorem respond_obuf (v : BitVec 64) (s : State) : (respond v s).obuf = s.obuf := rfl
@[simp] theorem respond_ocap (v : BitVec 64) (s : State) : (respond v s).ocap = s.ocap := rfl
@[simp] theorem respond_icap (v : BitVec 64) (s : State) : (respond v s).icap = s.icap := rfl
@[simp] theorem respond_pending (v : BitVec 64) (s : State) : (respond v s).pending = s.pending := rfl
@[simp] theorem respond_reply (v : BitVec 64) (s : State) : (respond v s).reply = some (.response ⟨.ok, 0, v⟩) := rfl
@[simp] theorem respond_resets (v : BitVec 64) (s : State) : (respond v s).resets = s.resets := rfl
@[simp] theorem respond_ops (v : BitVec 64) (s : State) : (respond v s).ops = s.ops := rfl

/-! ### raiseFault -/

@[simp] theorem raiseFault_status (c : Cause) (w : Word) (s : State) : (raiseFault c w s).status = putFlag s.status .errf true := rfl
@[simp] theorem raiseFault_err (c : Cause) (w : Word) (s : State) : (raiseFault c w s).err = w.extractLsb' 28 4 ++ causeCode c := rfl
@[simp] theorem raiseFault_errcmd (c : Cause) (w : Word) (s : State) : (raiseFault c w s).errcmd = w := rfl
@[simp] theorem raiseFault_root (c : Cause) (w : Word) (s : State) : (raiseFault c w s).root = s.root := rfl
@[simp] theorem raiseFault_totbits (c : Cause) (w : Word) (s : State) : (raiseFault c w s).totbits = s.totbits := rfl
@[simp] theorem raiseFault_wlen (c : Cause) (w : Word) (s : State) : (raiseFault c w s).wlen = s.wlen := rfl
@[simp] theorem raiseFault_wcnt (c : Cause) (w : Word) (s : State) : (raiseFault c w s).wcnt = s.wcnt := rfl
@[simp] theorem raiseFault_wacc (c : Cause) (w : Word) (s : State) : (raiseFault c w s).wacc = s.wacc := rfl
@[simp] theorem raiseFault_lastpad (c : Cause) (w : Word) (s : State) : (raiseFault c w s).lastpad = s.lastpad := rfl
@[simp] theorem raiseFault_ilen (c : Cause) (w : Word) (s : State) : (raiseFault c w s).ilen = s.ilen := rfl
@[simp] theorem raiseFault_rpos (c : Cause) (w : Word) (s : State) : (raiseFault c w s).rpos = s.rpos := rfl
@[simp] theorem raiseFault_rlim (c : Cause) (w : Word) (s : State) : (raiseFault c w s).rlim = s.rlim := rfl
@[simp] theorem raiseFault_cur (c : Cause) (w : Word) (s : State) : (raiseFault c w s).cur = s.cur := rfl
@[simp] theorem raiseFault_symcnt (c : Cause) (w : Word) (s : State) : (raiseFault c w s).symcnt = s.symcnt := rfl
@[simp] theorem raiseFault_freq (c : Cause) (w : Word) (s : State) : (raiseFault c w s).freq = s.freq := rfl
@[simp] theorem raiseFault_node (c : Cause) (w : Word) (s : State) : (raiseFault c w s).node = s.node := rfl
@[simp] theorem raiseFault_code (c : Cause) (w : Word) (s : State) : (raiseFault c w s).code = s.code := rfl
@[simp] theorem raiseFault_ibuf (c : Cause) (w : Word) (s : State) : (raiseFault c w s).ibuf = s.ibuf := rfl
@[simp] theorem raiseFault_obuf (c : Cause) (w : Word) (s : State) : (raiseFault c w s).obuf = s.obuf := rfl
@[simp] theorem raiseFault_ocap (c : Cause) (w : Word) (s : State) : (raiseFault c w s).ocap = s.ocap := rfl
@[simp] theorem raiseFault_icap (c : Cause) (w : Word) (s : State) : (raiseFault c w s).icap = s.icap := rfl
@[simp] theorem raiseFault_pending (c : Cause) (w : Word) (s : State) : (raiseFault c w s).pending = s.pending := rfl
@[simp] theorem raiseFault_reply (c : Cause) (w : Word) (s : State) : (raiseFault c w s).reply = some (.response ⟨.fault, causeCode c, 0⟩) := rfl
@[simp] theorem raiseFault_resets (c : Cause) (w : Word) (s : State) : (raiseFault c w s).resets = s.resets := rfl
@[simp] theorem raiseFault_ops (c : Cause) (w : Word) (s : State) : (raiseFault c w s).ops = s.ops := rfl

/-! ### lockedReply -/

@[simp] theorem lockedReply_status (s : State) : (lockedReply s).status = s.status := rfl
@[simp] theorem lockedReply_err (s : State) : (lockedReply s).err = s.err := rfl
@[simp] theorem lockedReply_errcmd (s : State) : (lockedReply s).errcmd = s.errcmd := rfl
@[simp] theorem lockedReply_root (s : State) : (lockedReply s).root = s.root := rfl
@[simp] theorem lockedReply_totbits (s : State) : (lockedReply s).totbits = s.totbits := rfl
@[simp] theorem lockedReply_wlen (s : State) : (lockedReply s).wlen = s.wlen := rfl
@[simp] theorem lockedReply_wcnt (s : State) : (lockedReply s).wcnt = s.wcnt := rfl
@[simp] theorem lockedReply_wacc (s : State) : (lockedReply s).wacc = s.wacc := rfl
@[simp] theorem lockedReply_lastpad (s : State) : (lockedReply s).lastpad = s.lastpad := rfl
@[simp] theorem lockedReply_ilen (s : State) : (lockedReply s).ilen = s.ilen := rfl
@[simp] theorem lockedReply_rpos (s : State) : (lockedReply s).rpos = s.rpos := rfl
@[simp] theorem lockedReply_rlim (s : State) : (lockedReply s).rlim = s.rlim := rfl
@[simp] theorem lockedReply_cur (s : State) : (lockedReply s).cur = s.cur := rfl
@[simp] theorem lockedReply_symcnt (s : State) : (lockedReply s).symcnt = s.symcnt := rfl
@[simp] theorem lockedReply_freq (s : State) : (lockedReply s).freq = s.freq := rfl
@[simp] theorem lockedReply_node (s : State) : (lockedReply s).node = s.node := rfl
@[simp] theorem lockedReply_code (s : State) : (lockedReply s).code = s.code := rfl
@[simp] theorem lockedReply_ibuf (s : State) : (lockedReply s).ibuf = s.ibuf := rfl
@[simp] theorem lockedReply_obuf (s : State) : (lockedReply s).obuf = s.obuf := rfl
@[simp] theorem lockedReply_ocap (s : State) : (lockedReply s).ocap = s.ocap := rfl
@[simp] theorem lockedReply_icap (s : State) : (lockedReply s).icap = s.icap := rfl
@[simp] theorem lockedReply_pending (s : State) : (lockedReply s).pending = s.pending := rfl
@[simp] theorem lockedReply_reply (s : State) : (lockedReply s).reply = some (.response ⟨.locked, errCause s.err, 0⟩) := rfl
@[simp] theorem lockedReply_resets (s : State) : (lockedReply s).resets = s.resets := rfl
@[simp] theorem lockedReply_ops (s : State) : (lockedReply s).ops = s.ops := rfl

/-! ### resetState -/

@[simp] theorem resetState_status (s : State) : (resetState s).status = 0 := rfl
@[simp] theorem resetState_err (s : State) : (resetState s).err = 0 := rfl
@[simp] theorem resetState_errcmd (s : State) : (resetState s).errcmd = 0 := rfl
@[simp] theorem resetState_root (s : State) : (resetState s).root = 0 := rfl
@[simp] theorem resetState_totbits (s : State) : (resetState s).totbits = 0 := rfl
@[simp] theorem resetState_wlen (s : State) : (resetState s).wlen = 0 := rfl
@[simp] theorem resetState_wcnt (s : State) : (resetState s).wcnt = 0 := rfl
@[simp] theorem resetState_wacc (s : State) : (resetState s).wacc = 0 := rfl
@[simp] theorem resetState_lastpad (s : State) : (resetState s).lastpad = 0 := rfl
@[simp] theorem resetState_ilen (s : State) : (resetState s).ilen = 0 := rfl
@[simp] theorem resetState_rpos (s : State) : (resetState s).rpos = 0 := rfl
@[simp] theorem resetState_rlim (s : State) : (resetState s).rlim = 0 := rfl
@[simp] theorem resetState_cur (s : State) : (resetState s).cur = 0 := rfl
@[simp] theorem resetState_symcnt (s : State) : (resetState s).symcnt = 0 := rfl
@[simp] theorem resetState_freq (s : State) : (resetState s).freq = noCounts := rfl
@[simp] theorem resetState_node (s : State) : (resetState s).node = noNodes := rfl
@[simp] theorem resetState_code (s : State) : (resetState s).code = noCodes := rfl
@[simp] theorem resetState_ibuf (s : State) : (resetState s).ibuf = [] := rfl
@[simp] theorem resetState_obuf (s : State) : (resetState s).obuf = [] := rfl
@[simp] theorem resetState_ocap (s : State) : (resetState s).ocap = s.ocap := rfl
@[simp] theorem resetState_icap (s : State) : (resetState s).icap = s.icap := rfl
@[simp] theorem resetState_pending (s : State) : (resetState s).pending = s.pending := rfl
@[simp] theorem resetState_reply (s : State) : (resetState s).reply = s.reply := rfl
@[simp] theorem resetState_resets (s : State) : (resetState s).resets = s.resets + 1 := rfl
@[simp] theorem resetState_ops (s : State) : (resetState s).ops = s.ops := rfl

/-! ### treeBuilt -/

@[simp] theorem treeBuilt_status (s : State) : (treeBuilt s).status = putFlag (putFlag (putFlag s.status .codeValid false) .armed false) .treeValid true := rfl
@[simp] theorem treeBuilt_err (s : State) : (treeBuilt s).err = s.err := rfl
@[simp] theorem treeBuilt_errcmd (s : State) : (treeBuilt s).errcmd = s.errcmd := rfl
@[simp] theorem treeBuilt_root (s : State) : (treeBuilt s).root = (buildTree s.freq).2 := rfl
@[simp] theorem treeBuilt_totbits (s : State) : (treeBuilt s).totbits = s.totbits := rfl
@[simp] theorem treeBuilt_wlen (s : State) : (treeBuilt s).wlen = s.wlen := rfl
@[simp] theorem treeBuilt_wcnt (s : State) : (treeBuilt s).wcnt = s.wcnt := rfl
@[simp] theorem treeBuilt_wacc (s : State) : (treeBuilt s).wacc = s.wacc := rfl
@[simp] theorem treeBuilt_lastpad (s : State) : (treeBuilt s).lastpad = s.lastpad := rfl
@[simp] theorem treeBuilt_ilen (s : State) : (treeBuilt s).ilen = s.ilen := rfl
@[simp] theorem treeBuilt_rpos (s : State) : (treeBuilt s).rpos = s.rpos := rfl
@[simp] theorem treeBuilt_rlim (s : State) : (treeBuilt s).rlim = s.rlim := rfl
@[simp] theorem treeBuilt_cur (s : State) : (treeBuilt s).cur = s.cur := rfl
@[simp] theorem treeBuilt_symcnt (s : State) : (treeBuilt s).symcnt = s.symcnt := rfl
@[simp] theorem treeBuilt_freq (s : State) : (treeBuilt s).freq = s.freq := rfl
@[simp] theorem treeBuilt_node (s : State) : (treeBuilt s).node = (buildTree s.freq).1 := rfl
@[simp] theorem treeBuilt_code (s : State) : (treeBuilt s).code = s.code := rfl
@[simp] theorem treeBuilt_ibuf (s : State) : (treeBuilt s).ibuf = s.ibuf := rfl
@[simp] theorem treeBuilt_obuf (s : State) : (treeBuilt s).obuf = s.obuf := rfl
@[simp] theorem treeBuilt_ocap (s : State) : (treeBuilt s).ocap = s.ocap := rfl
@[simp] theorem treeBuilt_icap (s : State) : (treeBuilt s).icap = s.icap := rfl
@[simp] theorem treeBuilt_pending (s : State) : (treeBuilt s).pending = s.pending := rfl
@[simp] theorem treeBuilt_reply (s : State) : (treeBuilt s).reply = s.reply := rfl
@[simp] theorem treeBuilt_resets (s : State) : (treeBuilt s).resets = s.resets := rfl
@[simp] theorem treeBuilt_ops (s : State) : (treeBuilt s).ops = s.ops := rfl

/-! ### tableCleared -/

@[simp] theorem tableCleared_status (s : State) : (tableCleared s).status = putFlag s.status .codeValid false := rfl
@[simp] theorem tableCleared_err (s : State) : (tableCleared s).err = s.err := rfl
@[simp] theorem tableCleared_errcmd (s : State) : (tableCleared s).errcmd = s.errcmd := rfl
@[simp] theorem tableCleared_root (s : State) : (tableCleared s).root = s.root := rfl
@[simp] theorem tableCleared_totbits (s : State) : (tableCleared s).totbits = 0 := rfl
@[simp] theorem tableCleared_wlen (s : State) : (tableCleared s).wlen = s.wlen := rfl
@[simp] theorem tableCleared_wcnt (s : State) : (tableCleared s).wcnt = s.wcnt := rfl
@[simp] theorem tableCleared_wacc (s : State) : (tableCleared s).wacc = s.wacc := rfl
@[simp] theorem tableCleared_lastpad (s : State) : (tableCleared s).lastpad = s.lastpad := rfl
@[simp] theorem tableCleared_ilen (s : State) : (tableCleared s).ilen = s.ilen := rfl
@[simp] theorem tableCleared_rpos (s : State) : (tableCleared s).rpos = s.rpos := rfl
@[simp] theorem tableCleared_rlim (s : State) : (tableCleared s).rlim = s.rlim := rfl
@[simp] theorem tableCleared_cur (s : State) : (tableCleared s).cur = s.cur := rfl
@[simp] theorem tableCleared_symcnt (s : State) : (tableCleared s).symcnt = s.symcnt := rfl
@[simp] theorem tableCleared_freq (s : State) : (tableCleared s).freq = s.freq := rfl
@[simp] theorem tableCleared_node (s : State) : (tableCleared s).node = s.node := rfl
@[simp] theorem tableCleared_code (s : State) : (tableCleared s).code = noCodes := rfl
@[simp] theorem tableCleared_ibuf (s : State) : (tableCleared s).ibuf = s.ibuf := rfl
@[simp] theorem tableCleared_obuf (s : State) : (tableCleared s).obuf = s.obuf := rfl
@[simp] theorem tableCleared_ocap (s : State) : (tableCleared s).ocap = s.ocap := rfl
@[simp] theorem tableCleared_icap (s : State) : (tableCleared s).icap = s.icap := rfl
@[simp] theorem tableCleared_pending (s : State) : (tableCleared s).pending = s.pending := rfl
@[simp] theorem tableCleared_reply (s : State) : (tableCleared s).reply = s.reply := rfl
@[simp] theorem tableCleared_resets (s : State) : (tableCleared s).resets = s.resets := rfl
@[simp] theorem tableCleared_ops (s : State) : (tableCleared s).ops = s.ops := rfl

/-! ### tableWritten -/

@[simp] theorem tableWritten_status (acc : GenAcc) (s : State) : (tableWritten acc s).status = putFlag s.status .codeValid true := rfl
@[simp] theorem tableWritten_err (acc : GenAcc) (s : State) : (tableWritten acc s).err = s.err := rfl
@[simp] theorem tableWritten_errcmd (acc : GenAcc) (s : State) : (tableWritten acc s).errcmd = s.errcmd := rfl
@[simp] theorem tableWritten_root (acc : GenAcc) (s : State) : (tableWritten acc s).root = s.root := rfl
@[simp] theorem tableWritten_totbits (acc : GenAcc) (s : State) : (tableWritten acc s).totbits = BitVec.ofNat 64 acc.sum := rfl
@[simp] theorem tableWritten_wlen (acc : GenAcc) (s : State) : (tableWritten acc s).wlen = s.wlen := rfl
@[simp] theorem tableWritten_wcnt (acc : GenAcc) (s : State) : (tableWritten acc s).wcnt = s.wcnt := rfl
@[simp] theorem tableWritten_wacc (acc : GenAcc) (s : State) : (tableWritten acc s).wacc = s.wacc := rfl
@[simp] theorem tableWritten_lastpad (acc : GenAcc) (s : State) : (tableWritten acc s).lastpad = s.lastpad := rfl
@[simp] theorem tableWritten_ilen (acc : GenAcc) (s : State) : (tableWritten acc s).ilen = s.ilen := rfl
@[simp] theorem tableWritten_rpos (acc : GenAcc) (s : State) : (tableWritten acc s).rpos = s.rpos := rfl
@[simp] theorem tableWritten_rlim (acc : GenAcc) (s : State) : (tableWritten acc s).rlim = s.rlim := rfl
@[simp] theorem tableWritten_cur (acc : GenAcc) (s : State) : (tableWritten acc s).cur = s.cur := rfl
@[simp] theorem tableWritten_symcnt (acc : GenAcc) (s : State) : (tableWritten acc s).symcnt = s.symcnt := rfl
@[simp] theorem tableWritten_freq (acc : GenAcc) (s : State) : (tableWritten acc s).freq = s.freq := rfl
@[simp] theorem tableWritten_node (acc : GenAcc) (s : State) : (tableWritten acc s).node = s.node := rfl
@[simp] theorem tableWritten_code (acc : GenAcc) (s : State) : (tableWritten acc s).code = acc.table := rfl
@[simp] theorem tableWritten_ibuf (acc : GenAcc) (s : State) : (tableWritten acc s).ibuf = s.ibuf := rfl
@[simp] theorem tableWritten_obuf (acc : GenAcc) (s : State) : (tableWritten acc s).obuf = s.obuf := rfl
@[simp] theorem tableWritten_ocap (acc : GenAcc) (s : State) : (tableWritten acc s).ocap = s.ocap := rfl
@[simp] theorem tableWritten_icap (acc : GenAcc) (s : State) : (tableWritten acc s).icap = s.icap := rfl
@[simp] theorem tableWritten_pending (acc : GenAcc) (s : State) : (tableWritten acc s).pending = s.pending := rfl
@[simp] theorem tableWritten_reply (acc : GenAcc) (s : State) : (tableWritten acc s).reply = s.reply := rfl
@[simp] theorem tableWritten_resets (acc : GenAcc) (s : State) : (tableWritten acc s).resets = s.resets := rfl
@[simp] theorem tableWritten_ops (acc : GenAcc) (s : State) : (tableWritten acc s).ops = s.ops := rfl

/-! ### writeRoot -/

@[simp] theorem writeRoot_status (v : Nat) (s : State) : (writeRoot v s).status = putFlag (putFlag (putFlag s.status .treeValid true) .codeValid false) .armed false := rfl
@[simp] theorem writeRoot_err (v : Nat) (s : State) : (writeRoot v s).err = s.err := rfl
@[simp] theorem writeRoot_errcmd (v : Nat) (s : State) : (writeRoot v s).errcmd = s.errcmd := rfl
@[simp] theorem writeRoot_root (v : Nat) (s : State) : (writeRoot v s).root = BitVec.ofNat 9 v := rfl
@[simp] theorem writeRoot_totbits (v : Nat) (s : State) : (writeRoot v s).totbits = s.totbits := rfl
@[simp] theorem writeRoot_wlen (v : Nat) (s : State) : (writeRoot v s).wlen = s.wlen := rfl
@[simp] theorem writeRoot_wcnt (v : Nat) (s : State) : (writeRoot v s).wcnt = s.wcnt := rfl
@[simp] theorem writeRoot_wacc (v : Nat) (s : State) : (writeRoot v s).wacc = s.wacc := rfl
@[simp] theorem writeRoot_lastpad (v : Nat) (s : State) : (writeRoot v s).lastpad = s.lastpad := rfl
@[simp] theorem writeRoot_ilen (v : Nat) (s : State) : (writeRoot v s).ilen = s.ilen := rfl
@[simp] theorem writeRoot_rpos (v : Nat) (s : State) : (writeRoot v s).rpos = s.rpos := rfl
@[simp] theorem writeRoot_rlim (v : Nat) (s : State) : (writeRoot v s).rlim = s.rlim := rfl
@[simp] theorem writeRoot_cur (v : Nat) (s : State) : (writeRoot v s).cur = s.cur := rfl
@[simp] theorem writeRoot_symcnt (v : Nat) (s : State) : (writeRoot v s).symcnt = s.symcnt := rfl
@[simp] theorem writeRoot_freq (v : Nat) (s : State) : (writeRoot v s).freq = s.freq := rfl
@[simp] theorem writeRoot_node (v : Nat) (s : State) : (writeRoot v s).node = s.node := rfl
@[simp] theorem writeRoot_code (v : Nat) (s : State) : (writeRoot v s).code = s.code := rfl
@[simp] theorem writeRoot_ibuf (v : Nat) (s : State) : (writeRoot v s).ibuf = s.ibuf := rfl
@[simp] theorem writeRoot_obuf (v : Nat) (s : State) : (writeRoot v s).obuf = s.obuf := rfl
@[simp] theorem writeRoot_ocap (v : Nat) (s : State) : (writeRoot v s).ocap = s.ocap := rfl
@[simp] theorem writeRoot_icap (v : Nat) (s : State) : (writeRoot v s).icap = s.icap := rfl
@[simp] theorem writeRoot_pending (v : Nat) (s : State) : (writeRoot v s).pending = s.pending := rfl
@[simp] theorem writeRoot_reply (v : Nat) (s : State) : (writeRoot v s).reply = s.reply := rfl
@[simp] theorem writeRoot_resets (v : Nat) (s : State) : (writeRoot v s).resets = s.resets := rfl
@[simp] theorem writeRoot_ops (v : Nat) (s : State) : (writeRoot v s).ops = s.ops := rfl

/-! ### writeIlen -/

@[simp] theorem writeIlen_status (v : Nat) (s : State) : (writeIlen v s).status = s.status := rfl
@[simp] theorem writeIlen_err (v : Nat) (s : State) : (writeIlen v s).err = s.err := rfl
@[simp] theorem writeIlen_errcmd (v : Nat) (s : State) : (writeIlen v s).errcmd = s.errcmd := rfl
@[simp] theorem writeIlen_root (v : Nat) (s : State) : (writeIlen v s).root = s.root := rfl
@[simp] theorem writeIlen_totbits (v : Nat) (s : State) : (writeIlen v s).totbits = s.totbits := rfl
@[simp] theorem writeIlen_wlen (v : Nat) (s : State) : (writeIlen v s).wlen = s.wlen := rfl
@[simp] theorem writeIlen_wcnt (v : Nat) (s : State) : (writeIlen v s).wcnt = s.wcnt := rfl
@[simp] theorem writeIlen_wacc (v : Nat) (s : State) : (writeIlen v s).wacc = s.wacc := rfl
@[simp] theorem writeIlen_lastpad (v : Nat) (s : State) : (writeIlen v s).lastpad = s.lastpad := rfl
@[simp] theorem writeIlen_ilen (v : Nat) (s : State) : (writeIlen v s).ilen = BitVec.ofNat 64 v := rfl
@[simp] theorem writeIlen_rpos (v : Nat) (s : State) : (writeIlen v s).rpos = 0 := rfl
@[simp] theorem writeIlen_rlim (v : Nat) (s : State) : (writeIlen v s).rlim = 0 := rfl
@[simp] theorem writeIlen_cur (v : Nat) (s : State) : (writeIlen v s).cur = s.cur := rfl
@[simp] theorem writeIlen_symcnt (v : Nat) (s : State) : (writeIlen v s).symcnt = s.symcnt := rfl
@[simp] theorem writeIlen_freq (v : Nat) (s : State) : (writeIlen v s).freq = s.freq := rfl
@[simp] theorem writeIlen_node (v : Nat) (s : State) : (writeIlen v s).node = s.node := rfl
@[simp] theorem writeIlen_code (v : Nat) (s : State) : (writeIlen v s).code = s.code := rfl
@[simp] theorem writeIlen_ibuf (v : Nat) (s : State) : (writeIlen v s).ibuf = s.ibuf := rfl
@[simp] theorem writeIlen_obuf (v : Nat) (s : State) : (writeIlen v s).obuf = s.obuf := rfl
@[simp] theorem writeIlen_ocap (v : Nat) (s : State) : (writeIlen v s).ocap = s.ocap := rfl
@[simp] theorem writeIlen_icap (v : Nat) (s : State) : (writeIlen v s).icap = s.icap := rfl
@[simp] theorem writeIlen_pending (v : Nat) (s : State) : (writeIlen v s).pending = s.pending := rfl
@[simp] theorem writeIlen_reply (v : Nat) (s : State) : (writeIlen v s).reply = s.reply := rfl
@[simp] theorem writeIlen_resets (v : Nat) (s : State) : (writeIlen v s).resets = s.resets := rfl
@[simp] theorem writeIlen_ops (v : Nat) (s : State) : (writeIlen v s).ops = s.ops := rfl

/-! ### writeNode -/

@[simp] theorem writeNode_status (i : NodeIdx) (v : Nat) (s : State) : (writeNode i v s).status = putFlag (putFlag (putFlag s.status .treeValid false) .codeValid false) .armed false := rfl
@[simp] theorem writeNode_err (i : NodeIdx) (v : Nat) (s : State) : (writeNode i v s).err = s.err := rfl
@[simp] theorem writeNode_errcmd (i : NodeIdx) (v : Nat) (s : State) : (writeNode i v s).errcmd = s.errcmd := rfl
@[simp] theorem writeNode_root (i : NodeIdx) (v : Nat) (s : State) : (writeNode i v s).root = s.root := rfl
@[simp] theorem writeNode_totbits (i : NodeIdx) (v : Nat) (s : State) : (writeNode i v s).totbits = s.totbits := rfl
@[simp] theorem writeNode_wlen (i : NodeIdx) (v : Nat) (s : State) : (writeNode i v s).wlen = s.wlen := rfl
@[simp] theorem writeNode_wcnt (i : NodeIdx) (v : Nat) (s : State) : (writeNode i v s).wcnt = s.wcnt := rfl
@[simp] theorem writeNode_wacc (i : NodeIdx) (v : Nat) (s : State) : (writeNode i v s).wacc = s.wacc := rfl
@[simp] theorem writeNode_lastpad (i : NodeIdx) (v : Nat) (s : State) : (writeNode i v s).lastpad = s.lastpad := rfl
@[simp] theorem writeNode_ilen (i : NodeIdx) (v : Nat) (s : State) : (writeNode i v s).ilen = s.ilen := rfl
@[simp] theorem writeNode_rpos (i : NodeIdx) (v : Nat) (s : State) : (writeNode i v s).rpos = s.rpos := rfl
@[simp] theorem writeNode_rlim (i : NodeIdx) (v : Nat) (s : State) : (writeNode i v s).rlim = s.rlim := rfl
@[simp] theorem writeNode_cur (i : NodeIdx) (v : Nat) (s : State) : (writeNode i v s).cur = s.cur := rfl
@[simp] theorem writeNode_symcnt (i : NodeIdx) (v : Nat) (s : State) : (writeNode i v s).symcnt = s.symcnt := rfl
@[simp] theorem writeNode_freq (i : NodeIdx) (v : Nat) (s : State) : (writeNode i v s).freq = s.freq := rfl
@[simp] theorem writeNode_node (i : NodeIdx) (v : Nat) (s : State) : (writeNode i v s).node = putNode s.node i (unpackNode (BitVec.ofNat 84 v)) := rfl
@[simp] theorem writeNode_code (i : NodeIdx) (v : Nat) (s : State) : (writeNode i v s).code = s.code := rfl
@[simp] theorem writeNode_ibuf (i : NodeIdx) (v : Nat) (s : State) : (writeNode i v s).ibuf = s.ibuf := rfl
@[simp] theorem writeNode_obuf (i : NodeIdx) (v : Nat) (s : State) : (writeNode i v s).obuf = s.obuf := rfl
@[simp] theorem writeNode_ocap (i : NodeIdx) (v : Nat) (s : State) : (writeNode i v s).ocap = s.ocap := rfl
@[simp] theorem writeNode_icap (i : NodeIdx) (v : Nat) (s : State) : (writeNode i v s).icap = s.icap := rfl
@[simp] theorem writeNode_pending (i : NodeIdx) (v : Nat) (s : State) : (writeNode i v s).pending = s.pending := rfl
@[simp] theorem writeNode_reply (i : NodeIdx) (v : Nat) (s : State) : (writeNode i v s).reply = s.reply := rfl
@[simp] theorem writeNode_resets (i : NodeIdx) (v : Nat) (s : State) : (writeNode i v s).resets = s.resets := rfl
@[simp] theorem writeNode_ops (i : NodeIdx) (v : Nat) (s : State) : (writeNode i v s).ops = s.ops := rfl

/-! ### issueFirst -/

@[simp] theorem issueFirst_status (op : HostOp) (s : State) : (issueFirst op s).status = s.status := rfl
@[simp] theorem issueFirst_err (op : HostOp) (s : State) : (issueFirst op s).err = s.err := rfl
@[simp] theorem issueFirst_errcmd (op : HostOp) (s : State) : (issueFirst op s).errcmd = s.errcmd := rfl
@[simp] theorem issueFirst_root (op : HostOp) (s : State) : (issueFirst op s).root = s.root := rfl
@[simp] theorem issueFirst_totbits (op : HostOp) (s : State) : (issueFirst op s).totbits = s.totbits := rfl
@[simp] theorem issueFirst_wlen (op : HostOp) (s : State) : (issueFirst op s).wlen = s.wlen := rfl
@[simp] theorem issueFirst_wcnt (op : HostOp) (s : State) : (issueFirst op s).wcnt = s.wcnt := rfl
@[simp] theorem issueFirst_wacc (op : HostOp) (s : State) : (issueFirst op s).wacc = s.wacc := rfl
@[simp] theorem issueFirst_lastpad (op : HostOp) (s : State) : (issueFirst op s).lastpad = s.lastpad := rfl
@[simp] theorem issueFirst_ilen (op : HostOp) (s : State) : (issueFirst op s).ilen = s.ilen := rfl
@[simp] theorem issueFirst_rpos (op : HostOp) (s : State) : (issueFirst op s).rpos = s.rpos := rfl
@[simp] theorem issueFirst_rlim (op : HostOp) (s : State) : (issueFirst op s).rlim = s.rlim := rfl
@[simp] theorem issueFirst_cur (op : HostOp) (s : State) : (issueFirst op s).cur = s.cur := rfl
@[simp] theorem issueFirst_symcnt (op : HostOp) (s : State) : (issueFirst op s).symcnt = s.symcnt := rfl
@[simp] theorem issueFirst_freq (op : HostOp) (s : State) : (issueFirst op s).freq = s.freq := rfl
@[simp] theorem issueFirst_node (op : HostOp) (s : State) : (issueFirst op s).node = s.node := rfl
@[simp] theorem issueFirst_code (op : HostOp) (s : State) : (issueFirst op s).code = s.code := rfl
@[simp] theorem issueFirst_ibuf (op : HostOp) (s : State) : (issueFirst op s).ibuf = s.ibuf := rfl
@[simp] theorem issueFirst_obuf (op : HostOp) (s : State) : (issueFirst op s).obuf = s.obuf := rfl
@[simp] theorem issueFirst_ocap (op : HostOp) (s : State) : (issueFirst op s).ocap = s.ocap := rfl
@[simp] theorem issueFirst_icap (op : HostOp) (s : State) : (issueFirst op s).icap = s.icap := rfl
@[simp] theorem issueFirst_pending (op : HostOp) (s : State) : (issueFirst op s).pending = op :: s.pending := rfl
@[simp] theorem issueFirst_reply (op : HostOp) (s : State) : (issueFirst op s).reply = s.reply := rfl
@[simp] theorem issueFirst_resets (op : HostOp) (s : State) : (issueFirst op s).resets = s.resets := rfl
@[simp] theorem issueFirst_ops (op : HostOp) (s : State) : (issueFirst op s).ops = s.ops := rfl

end Sys2Proof.Machine
end

