-- ==== Sys2Proof/Laws/Flags.lean ====
section
/-! SUPPORT. Reading a flag after a flag is written (10_state.md rule R23), and the codes of the causes
(60_exceptions.md rule R281). -/

namespace Sys2Proof.Machine

/-- Writing a flag changes that flag and no other. -/
@[simp] theorem getFlag_putFlag (st : BitVec 5) (f g : Flag) (v : Bool) :
    getFlag (putFlag st f v) g = if f = g then v else getFlag st g := by
  revert st
  cases f <;> cases g <;> cases v <;> decide

/-- No flag is set in the STATUS of reset. -/
@[simp] theorem getFlag_zero (f : Flag) : getFlag 0#5 f = false := by cases f <;> decide

/-- Two STATUS values with the same five flags are the same. -/
theorem status_ext {a b : BitVec 5} (h : ∀ f, getFlag a f = getFlag b f) : a = b := by
  have h0 := h .treeValid; have h1 := h .codeValid; have h2 := h .armed
  have h3 := h .phSeen; have h4 := h .errf
  simp only [getFlag, flagPos] at h0 h1 h2 h3 h4
  apply BitVec.eq_of_getLsbD_eq
  intro i hi
  interval_cases i <;> assumption

/-- Writing back the value a flag has changes nothing. -/
theorem putFlag_same (st : BitVec 5) (f : Flag) (v : Bool) (h : getFlag st f = v) : putFlag st f v = st := by
  apply status_ext
  intro g
  rw [getFlag_putFlag]
  split <;> simp_all

@[simp] theorem respond_flag (v : BitVec 64) (s : State) (f : Flag) : (respond v s).flag f = s.flag f := rfl
@[simp] theorem lockedReply_flag (s : State) (f : Flag) : (lockedReply s).flag f = s.flag f := rfl
@[simp] theorem issueFirst_flag (op : HostOp) (s : State) (f : Flag) : (issueFirst op s).flag f = s.flag f := rfl
@[simp] theorem writeIlen_flag (v : Nat) (s : State) (f : Flag) : (writeIlen v s).flag f = s.flag f := rfl

@[simp] theorem raiseFault_flag (c : Cause) (w : Word) (s : State) (f : Flag) :
    (raiseFault c w s).flag f = if Flag.errf = f then true else s.flag f := by simp [State.flag]

@[simp] theorem resetState_flag (s : State) (f : Flag) : (resetState s).flag f = false := by simp [State.flag]

@[simp] theorem treeBuilt_flag (s : State) (f : Flag) : (treeBuilt s).flag f =
    if Flag.treeValid = f then true else if Flag.armed = f then false
    else if Flag.codeValid = f then false else s.flag f := by simp [State.flag]

@[simp] theorem tableCleared_flag (s : State) (f : Flag) :
    (tableCleared s).flag f = if Flag.codeValid = f then false else s.flag f := by simp [State.flag]

@[simp] theorem tableWritten_flag (acc : GenAcc) (s : State) (f : Flag) :
    (tableWritten acc s).flag f = if Flag.codeValid = f then true else s.flag f := by simp [State.flag]

@[simp] theorem writeRoot_flag (v : Nat) (s : State) (f : Flag) : (writeRoot v s).flag f =
    if Flag.armed = f then false else if Flag.codeValid = f then false
    else if Flag.treeValid = f then true else s.flag f := by simp [State.flag]

@[simp] theorem writeNode_flag (i : NodeIdx) (v : Nat) (s : State) (f : Flag) : (writeNode i v s).flag f =
    if Flag.armed = f then false else if Flag.codeValid = f then false
    else if Flag.treeValid = f then false else s.flag f := by simp [State.flag]

/-- No cause has code 0 (R281: 0x00 is "no fault recorded"). -/
theorem causeCode_ne_zero (c : Cause) : causeCode c ≠ 0 := by cases c <;> decide

/-- Different causes have different codes. -/
theorem causeCode_inj {c d : Cause} (h : causeCode c = causeCode d) : c = d := by
  cases c <;> cases d <;> first | rfl | (exact absurd h (by decide))

/-- ERR.CAUSE of a record is the cause recorded (R24, R283). -/
@[simp] theorem errCause_append (u : BitVec 4) (c : BitVec 8) : errCause (u ++ c) = c :=
  BitVec.extractLsb'_append_eq_right

/-- ERR.UNIT of a record is the unit recorded (R24, R283). -/
@[simp] theorem errUnit_append (u : BitVec 4) (c : BitVec 8) : errUnit (u ++ c) = u :=
  BitVec.extractLsb'_append_eq_left

/-- STATUS as a number, from its five flags (R23). -/
theorem status_toNat (st : BitVec 5) : st.toNat = (getFlag st .treeValid).toNat + 2 * (getFlag st .codeValid).toNat
    + 4 * (getFlag st .armed).toNat + 8 * (getFlag st .phSeen).toNat + 16 * (getFlag st .errf).toNat := by
  revert st; decide

end Sys2Proof.Machine
end

