-- ==== Sys2Proof/Laws/Exec.lean ====
section
/-! SUPPORT. What the shared frame of the commands does (60_exceptions.md rules R283 to R285): locked first, then
the illegal operand, then the command's own checks and effect. -/

namespace Sys2Proof.Machine

/-- A locked block does nothing (R284). -/
theorem guarded_locked {i : Instr} {s : State} {body : Result} (h : s.flag .errf = true) :
    guarded i s body = .next (lockedReply s) := by simp [guarded, h]

/-- An unlocked block runs a well-formed command (R285). -/
theorem guarded_runs {i : Instr} {s : State} {body : Result} (h : s.flag .errf = false) (hw : i.wf = true) :
    guarded i s body = body := by simp [guarded, h, hw]

/-- An unlocked block refuses an ill-formed command (R285, R95). -/
theorem guarded_illFormed {i : Instr} {s : State} {body : Result} (h : s.flag .errf = false) (hw : i.wf = false) :
    guarded i s body = .next (raiseFault .illegalCmd (encode i) s) := by simp [guarded, h, hw]

/-- Everything the frame can do (R285). -/
theorem guarded_cases {i : Instr} {s t : State} {body : Result} (h : guarded i s body = .next t) :
    (s.flag .errf = true ∧ t = lockedReply s)
    ∨ (s.flag .errf = false ∧ i.wf = false ∧ t = raiseFault .illegalCmd (encode i) s)
    ∨ (s.flag .errf = false ∧ i.wf = true ∧ body = .next t) := by
  unfold guarded at h
  split at h
  · cases h; simp_all
  · split at h
    · simp_all
    · cases h; simp_all

/-- A command word that decodes runs its command (R285). -/
theorem runWord_decoded {w : Word} {i : Instr} (s : State) (h : decode w = some i) : runWord w s = exec i s := by
  simp [runWord, h]

/-- Every command but SYS_RESET is answered LOCKED by a locked block (R284). -/
theorem exec_locked {i : Instr} {s : State} (h : s.flag .errf = true) (hi : i ≠ .sysReset) :
    exec i s = .next (lockedReply s) := by
  cases i <;> first | exact absurd rfl hi | exact guarded_locked h

/-- An unlocked block refuses operands that no legal word holds (R95 d, e, f). -/
theorem exec_illFormed {i : Instr} {s : State} (h : s.flag .errf = false) (hw : i.wf = false) :
    exec i s = .next (raiseFault .illegalCmd (encode i) s) := by
  cases i <;> first | (simp [Instr.wf] at hw; done) | exact guarded_illFormed h hw

end Sys2Proof.Machine
end

