-- ==== Sys2Proof/Laws/HostPort.lean ====
section
/-! SUPPORT. What one step does with each operation of the host (20_memory.md rules R68 to R71), and what a host
write does. -/

namespace Sys2Proof.Machine

theorem step_idle {s : State} (h : s.pending = []) : step s = .next s := by simp [step, runNext, h]

theorem step_cmd {s : State} {w : Word} {rest : List HostOp} (h : s.pending = .cmd w :: rest) :
    step s = runWord w { s with pending := rest, ops := s.ops + 1 } := by simp [step, runNext, h, runOp]

theorem step_read {s : State} {space idx : Nat} {rest : List HostOp} (h : s.pending = .read space idx :: rest) :
    step s = .next { s with pending := rest, reply := some (.data (hostRead space idx { s with pending := rest })) } := by
  simp [step, runNext, h, runOp]

theorem step_write {s : State} {space idx v : Nat} {rest : List HostOp} (h : s.pending = .write space idx v :: rest) :
    step s = .next { hostWrite space idx v { s with pending := rest, ops := s.ops + 1 } with
      reply := some .written } := by simp [step, runNext, h, runOp]

/-- Everything a step can do. -/
theorem step_cases {s t : State} (h : step s = .next t) :
    (s.pending = [] ∧ t = s)
    ∨ (∃ w rest, s.pending = .cmd w :: rest ∧ runWord w { s with pending := rest, ops := s.ops + 1 } = .next t)
    ∨ (∃ space idx rest v, s.pending = .read space idx :: rest
        ∧ t = { s with pending := rest, reply := some (.data v) })
    ∨ ∃ space idx v rest, s.pending = .write space idx v :: rest
        ∧ t = { hostWrite space idx v { s with pending := rest, ops := s.ops + 1 } with reply := some .written } := by
  rcases hp : s.pending with _ | ⟨op, rest⟩
  · rw [step_idle hp] at h; cases h; exact .inl ⟨rfl, rfl⟩
  · cases op with
    | cmd w => exact .inr (.inl ⟨w, rest, rfl, by rw [← step_cmd hp, h]⟩)
    | read space idx => rw [step_read hp] at h; cases h; exact .inr (.inr (.inl ⟨space, idx, rest, _, rfl, rfl⟩))
    | write space idx v => rw [step_write hp] at h; cases h; exact .inr (.inr (.inr ⟨space, idx, v, rest, rfl, rfl⟩))

theorem hostWrite_locked {s : State} (space idx v : Nat) (h : s.flag .errf = true) : hostWrite space idx v s = s := by
  simp [hostWrite, h]

theorem hostWrite_unlocked {s : State} (space idx v : Nat) (h : s.flag .errf = false) :
    hostWrite space idx v s = writeEntry space idx v s := by simp [hostWrite, h]

/-- Everything a host write can do (R68 to R70). -/
theorem hostWrite_cases (space idx v : Nat) (s : State) :
    hostWrite space idx v s = s
    ∨ (s.flag .errf = false ∧
      ((space = 0 ∧ idx = 3 ∧ hostWrite space idx v s = writeRoot v s)
      ∨ (space = 0 ∧ idx = 9 ∧ hostWrite space idx v s = writeIlen v s)
      ∨ (space = 1 ∧ ∃ h : idx < 256, hostWrite space idx v s = { s with freq := s.freq.set idx (BitVec.ofNat 56 v) h })
      ∨ (space = 2 ∧ idx < 512 ∧ hostWrite space idx v s = writeNode (BitVec.ofNat 9 idx) v s)
      ∨ (space = 4 ∧ idx < s.icap
          ∧ hostWrite space idx v s = { s with ibuf := memInsert s.ibuf idx (BitVec.ofNat 8 v) }))) := by
  by_cases hf : s.flag .errf = true
  · exact .inl (hostWrite_locked space idx v hf)
  · have hf' : s.flag .errf = false := by simpa using hf
    rw [hostWrite_unlocked space idx v hf']
    unfold writeEntry
    split
    · unfold writeReg
      split
      · exact .inr ⟨hf', .inl ⟨rfl, rfl, rfl⟩⟩
      · exact .inr ⟨hf', .inr (.inl ⟨rfl, rfl, rfl⟩)⟩
      · exact .inl rfl
    · split
      · exact .inr ⟨hf', .inr (.inr (.inl ⟨rfl, ‹_›, rfl⟩))⟩
      · exact .inl rfl
    · split
      · exact .inr ⟨hf', .inr (.inr (.inr (.inl ⟨rfl, ‹_›, rfl⟩)))⟩
      · exact .inl rfl
    · split
      · exact .inr ⟨hf', .inr (.inr (.inr (.inr ⟨rfl, ‹_›, rfl⟩)))⟩
      · exact .inl rfl
    · exact .inl rfl

/-- A kind survives its code (R31). -/
theorem kindCode_kindOfCode (k : BitVec 2) : kindCode (kindOfCode k) = k := by revert k; decide
@[simp] theorem kindOfCode_kindCode (k : NodeKind) : kindOfCode (kindCode k) = k := by cases k <;> rfl

/-- A packed value survives unpacking and packing (R31). -/
@[simp] theorem packNode_unpackNode (v : BitVec 84) : packNode (unpackNode v) = v := by
  simp only [packNode, unpackNode, kindCode_kindOfCode]
  refine BitVec.eq_of_getLsbD_eq fun i hi => ?_
  simp only [BitVec.getLsbD_append, BitVec.getLsbD_extractLsb']
  by_cases h1 : i < 56
  · simp [h1]
  · by_cases h2 : i - 56 < 9
    · simp [h1, h2, show 56 + (i - 56) = i by omega]
    · by_cases h3 : i - 56 - 9 < 9
      · simp only [h1, h2, h3, decide_true, if_true, if_false, Bool.true_and, show 65 + (i - 56 - 9) = i by omega]
      · by_cases h4 : i - 56 - 9 - 9 < 8
        · simp only [h1, h2, h3, h4, decide_true, if_true, if_false, Bool.true_and,
            show 74 + (i - 56 - 9 - 9) = i by omega]
        · have h5 : i - 56 - 9 - 9 - 8 < 2 := by omega
          simp only [h1, h2, h3, h4, h5, decide_true, if_false, Bool.true_and,
            show 82 + (i - 56 - 9 - 9 - 8) = i by omega]

/-- A NODE entry survives packing and unpacking (R31). -/
@[simp] theorem unpackNode_packNode (n : Node) : unpackNode (packNode n) = n := by
  obtain ⟨k, s, l, r, w⟩ := n
  simp only [packNode, unpackNode, Node.mk.injEq]
  refine ⟨?_, ?_, ?_, ?_, ?_⟩
  · conv_rhs => rw [← kindOfCode_kindCode k]
    congr 1
    refine BitVec.eq_of_getLsbD_eq fun i hi => ?_
    simp only [BitVec.getLsbD_append, BitVec.getLsbD_extractLsb', hi, decide_true, Bool.true_and]
    rw [if_neg (by omega), if_neg (by omega), if_neg (by omega), if_neg (by omega)]
    congr 1; omega
  · refine BitVec.eq_of_getLsbD_eq fun i hi => ?_
    simp only [BitVec.getLsbD_append, BitVec.getLsbD_extractLsb', hi, decide_true, Bool.true_and]
    rw [if_neg (by omega), if_neg (by omega), if_neg (by omega), if_pos (by omega)]
    congr 1; omega
  · refine BitVec.eq_of_getLsbD_eq fun i hi => ?_
    simp only [BitVec.getLsbD_append, BitVec.getLsbD_extractLsb', hi, decide_true, Bool.true_and]
    rw [if_neg (by omega), if_neg (by omega), if_pos (by omega)]
    congr 1; omega
  · refine BitVec.eq_of_getLsbD_eq fun i hi => ?_
    simp only [BitVec.getLsbD_append, BitVec.getLsbD_extractLsb', hi, decide_true, Bool.true_and]
    rw [if_neg (by omega), if_pos (by omega)]
    congr 1; omega
  · refine BitVec.eq_of_getLsbD_eq fun i hi => ?_
    simp only [BitVec.getLsbD_append, BitVec.getLsbD_extractLsb', hi, decide_true, Bool.true_and]
    rw [if_pos (by omega)]
    congr 1; omega

/-! ### Packed entries as numbers -/

/-- Two fields side by side, as a number. -/
theorem toNat_fields {n m : Nat} (a : BitVec n) (b : BitVec m) : (a ++ b).toNat = a.toNat * 2 ^ m + b.toNat := by
  rw [BitVec.toNat_append, ← Nat.shiftLeft_add_eq_or_of_lt b.isLt, Nat.shiftLeft_eq]

theorem packNode_toNat (n : Node) : (packNode n).toNat =
    (kindCode n.kind).toNat * 2 ^ 82 + n.sym.toNat * 2 ^ 74 + n.left.toNat * 2 ^ 65 + n.right.toNat * 2 ^ 56
      + n.weight.toNat := by
  simp only [packNode, toNat_fields]; ring

theorem packCode_toNat (c : CodeEntry) : (packCode c).toNat = c.bits.toNat * 2 ^ 8 + c.len.toNat := toNat_fields _ _

end Sys2Proof.Machine
end

