-- ==== Sys2Proof/Laws/Reader.lean ====
section
/-! SUPPORT. Everything the read primitive can do (20_memory.md rule R62), in terms of the input stream. -/

namespace Sys2Proof.Machine

/-- A bit string as a number, read on from a number already read. -/
theorem foldl_bits (bs : List Bool) (v : Nat) :
    bs.foldl (fun v b => 2 * v + b.toNat) v = v * 2 ^ bs.length + bitsValue bs := by
  induction bs generalizing v with
  | nil => simp [bitsValue]
  | cons b bs ih =>
    simp only [List.foldl_cons, List.length_cons, bitsValue, Nat.mul_zero, Nat.zero_add]
    rw [ih, ih]
    simp only [bitsValue, pow_succ]
    ring

@[simp] theorem bitsValue_nil : bitsValue [] = 0 := rfl

theorem bitsValue_cons (b : Bool) (bs : List Bool) :
    bitsValue (b :: bs) = b.toNat * 2 ^ bs.length + bitsValue bs := by
  have := foldl_bits bs b.toNat
  simpa [bitsValue] using this

theorem bitsValue_append (as bs : List Bool) :
    bitsValue (as ++ bs) = bitsValue as * 2 ^ bs.length + bitsValue bs := by
  simp only [bitsValue, List.foldl_append]
  rw [foldl_bits]
  rfl

/-- A bit string of length n is a number below 2^n. -/
theorem bitsValue_lt (bs : List Bool) : bitsValue bs < 2 ^ bs.length := by
  induction bs with
  | nil => simp
  | cons b bs ih =>
    rw [bitsValue_cons, List.length_cons, pow_succ]
    cases b <;> simp <;> omega

/-- The bits of a number below 2^n, read back, are the number (R63). -/
theorem bitsValue_msbFirst (n v : Nat) : bitsValue (msbFirst n v) = v % 2 ^ n := by
  induction n with
  | zero => simp [msbFirst, Nat.mod_one]
  | succ n ih =>
    rw [msbFirst, bitsValue_cons, ih]
    have hl : (msbFirst n v).length = n := by
      clear ih
      induction n with
      | zero => rfl
      | succ n ih => simp [msbFirst, ih]
    rw [hl, pow_succ, Nat.mod_mul, Nat.testBit_eq_decide_div_mod_eq]
    have h2 : v / 2 ^ n % 2 = 0 ∨ v / 2 ^ n % 2 = 1 := by omega
    rcases h2 with h | h
    · simp [h]
    · simp [h]; omega

/-- A bit string of length n is the n bits of its number. -/
theorem msbFirst_bitsValue (bs : List Bool) : msbFirst bs.length (bitsValue bs) = bs := by
  have key : ∀ (bs : List Bool) (v : Nat), msbFirst bs.length (v * 2 ^ bs.length + bitsValue bs) = bs := by
    intro bs
    induction bs with
    | nil => intro v; rfl
    | cons b bs ih =>
      intro v
      have hlt := bitsValue_lt bs
      have e : v * 2 ^ (bs.length + 1) + bitsValue (b :: bs)
          = (2 * v + b.toNat) * 2 ^ bs.length + bitsValue bs := by
        rw [bitsValue_cons, pow_succ]; ring
      simp only [List.length_cons, msbFirst]
      rw [e, ih]
      congr 1
      rw [Nat.testBit_eq_decide_div_mod_eq, Nat.add_comm, Nat.add_mul_div_right _ _ (Nat.two_pow_pos _),
        Nat.div_eq_of_lt hlt]
      cases b <;> simp
  simpa using key bs 0

@[simp] theorem inputBits_zero (s : State) (p : Nat) : inputBits s p 0 = [] := rfl

@[simp] theorem inputBits_length (s : State) (p n : Nat) : (inputBits s p n).length = n := by
  simp [inputBits]

theorem inputBits_succ (s : State) (p n : Nat) :
    inputBits s p (n + 1) = inputBit s p :: inputBits s (p + 1) n := by
  simp only [inputBits, List.range_succ_eq_map, List.map_cons, List.map_map, Nat.add_zero]
  congr 1
  apply List.map_congr_left
  intro j _
  simp only [Function.comp, Nat.succ_eq_add_one]
  congr 1
  omega

theorem inputBits_add (s : State) (p m n : Nat) :
    inputBits s p (m + n) = inputBits s p m ++ inputBits s (p + m) n := by
  induction m generalizing p with
  | zero => simp
  | succ m ih =>
    rw [show m + 1 + n = (m + n) + 1 by omega, inputBits_succ, ih, inputBits_succ, List.cons_append,
      show p + 1 + m = p + (m + 1) by omega]

/-- RdBit(p) for a position inside IBUF (R62). -/
theorem rdBit_inside (s : State) (p : Nat) (h : p < 8 * s.icap) : rdBit s p = .ok (inputBit s p) := by
  simp only [rdBit, h, ↓reduceIte, inputBit]

/-- The loop of BSR_GETBITS inside IBUF reads the bits as a number (R192). -/
theorem readBits_inside (s : State) (n p v : Nat) (h : p + n ≤ 8 * s.icap) :
    readBits s n p v = .ok (v * 2 ^ n + bitsValue (inputBits s p n)) := by
  induction n generalizing p v with
  | zero => simp [readBits]
  | succ n ih =>
    simp only [readBits, rdBit_inside s p (by omega), ih (p + 1) _ (by omega), inputBits_succ, bitsValue_cons,
      inputBits_length, Except.ok.injEq, pow_succ]
    ring

/-- The check of BSR_TRIM inside IBUF asks whether one of the bits is 1 (R193). -/
theorem anyOne_inside (s : State) (n p : Nat) (h : p + n ≤ 8 * s.icap) :
    anyOne s n p = .ok ((inputBits s p n).any id) := by
  induction n generalizing p with
  | zero => rfl
  | succ n ih =>
    simp only [anyOne, rdBit_inside s p (by omega), inputBits_succ, List.any_cons, id]
    cases inputBit s p
    · simpa using ih (p + 1) (by omega)
    · simp

/-- One of the bits is 1. -/
theorem inputBits_any (s : State) (p n : Nat) :
    (inputBits s p n).any id = true ↔ ∃ j, j < n ∧ inputBit s (p + j) = true := by simp [inputBits]

end Sys2Proof.Machine
end

