-- ==== Sys2Proof/Laws/Memory.lean ====
section
/-! SUPPORT. The byte memories: reading after writing, and that a write keeps the canonical form. -/

namespace Sys2Proof.Machine

/-- A read after a write to the same index gives the byte written. -/
@[simp] theorem memFind_memInsert_same (m : Memory) (k : Nat) (v : Byte) :
    memFind (memInsert m k v) k = some v := by
  induction m with
  | nil => simp [memInsert, memFind]
  | cons c m ih =>
    obtain ⟨a, b⟩ := c
    simp only [memInsert]
    split
    · simp [memFind]
    · split
      · simp [memFind]
      · rename_i h1 h2
        simp [memFind, h2, ih]

/-- A write leaves every other index alone. -/
theorem memFind_memInsert_other (m : Memory) (k j : Nat) (v : Byte) (h : j ≠ k) :
    memFind (memInsert m k v) j = memFind m j := by
  induction m with
  | nil => simp [memInsert, memFind, h]
  | cons c m ih =>
    obtain ⟨a, b⟩ := c
    simp only [memInsert]
    split
    · simp [memFind, h]
    · split
      · rename_i h1 h2
        subst h2
        simp [memFind, h]
      · simp only [memFind, ih]

/-- What a write lists: the written index and what was listed. -/
theorem mem_memInsert {m : Memory} {k : Nat} {v : Byte} {c : Host.Cell} (h : c ∈ memInsert m k v) :
    c = (k, v) ∨ c ∈ m := by
  induction m with
  | nil => simpa [memInsert] using h
  | cons d m ih =>
    obtain ⟨a, b⟩ := d
    simp only [memInsert] at h
    split at h
    · simpa using h
    · split at h
      · rcases List.mem_cons.1 h with h | h
        · exact .inl h
        · exact .inr (List.mem_cons_of_mem _ h)
      · rcases List.mem_cons.1 h with h | h
        · exact .inr (h ▸ List.mem_cons_self)
        · rcases ih h with h | h
          · exact .inl h
          · exact .inr (List.mem_cons_of_mem _ h)

/-- A write keeps the canonical form. -/
theorem memInsert_wf {m : Memory} (k : Nat) (v : Byte) (h : Memory.wf m) : Memory.wf (memInsert m k v) := by
  induction m with
  | nil => simp [memInsert, Memory.wf]
  | cons d m ih =>
    obtain ⟨a, b⟩ := d
    obtain ⟨hd, hm⟩ := List.pairwise_cons.1 h
    simp only [memInsert]
    split
    · rename_i hk
      refine List.pairwise_cons.2 ⟨?_, h⟩
      intro c hc
      rcases List.mem_cons.1 hc with rfl | hc
      · exact hk
      · exact Nat.lt_trans hk (hd c hc)
    · split
      · rename_i h1 h2
        subst h2
        exact List.pairwise_cons.2 ⟨hd, hm⟩
      · rename_i h1 h2
        refine List.pairwise_cons.2 ⟨?_, ih hm⟩
        intro c hc
        rcases mem_memInsert hc with rfl | hc
        · simp only; omega
        · exact hd c hc

/-- A write at an index below a bound keeps every listed index below it. -/
theorem memInsert_below {m : Memory} {k n : Nat} (v : Byte) (h : ∀ c ∈ m, c.1 < n) (hk : k < n) :
    ∀ c ∈ memInsert m k v, c.1 < n := by
  intro c hc
  rcases mem_memInsert hc with rfl | hc
  · exact hk
  · exact h c hc

/-- The memories right after reset are in canonical form (R38). -/
theorem reset_wf : Memory.wf State.reset.ibuf ∧ Memory.wf State.reset.obuf := ⟨.nil, .nil⟩

end Sys2Proof.Machine
end

