-- ==== Sys2Proof/Laws/Writer.lean ====
section
/-! SUPPORT. Everything AppendBit and a run of AppendBits can do (20_memory.md rule R64), said once in terms of
the stream the writer stands for. -/

namespace Sys2Proof.Machine

/-- A 3-bit count is one of 0 to 7. -/
theorem count_cases (c : BitVec 3) : c = 0 ∨ c = 1 ∨ c = 2 ∨ c = 3 ∨ c = 4 ∨ c = 5 ∨ c = 6 ∨ c = 7 := by
  revert c; decide

/-- The count after a byte is completed. -/
theorem count_zero : (0 : BitVec 3).toNat = 0 := rfl

/-- The bits of a byte, named. -/
theorem byteBits_eq (b : Byte) : byteBits b =
    [b.getLsbD 7, b.getLsbD 6, b.getLsbD 5, b.getLsbD 4, b.getLsbD 3, b.getLsbD 2, b.getLsbD 1, b.getLsbD 0] := by
  simp only [byteBits, msbFirst, BitVec.testBit_toNat]

@[simp] theorem byteBits_length (b : Byte) : (byteBits b).length = 8 := by simp [byteBits_eq]

@[simp] theorem msbFirst_length (n v : Nat) : (msbFirst n v).length = n := by
  induction n with
  | zero => rfl
  | succ n ih => simp [msbFirst, ih]

/-- Bit j of a byte after bit k was written. -/
theorem getLsbD_putBit (acc : BitVec 8) (k j : Nat) (b : Bool) (hk : k < 8) (hj : j < 8) :
    (putBit acc k b).getLsbD j = if j = k then b else acc.getLsbD j := by
  have key : (1#8 <<< k).getLsbD j = decide (j = k) := by
    interval_cases k <;> interval_cases j <;> decide
  unfold putBit
  cases b
  · simp only [Bool.false_eq_true, ↓reduceIte, BitVec.getLsbD_and, BitVec.getLsbD_not, key, hj, decide_true,
      Bool.true_and]
    by_cases h : j = k <;> simp [h]
  · simp only [↓reduceIte, BitVec.getLsbD_or, key]
    by_cases h : j = k <;> simp [h]

/-- Filling the last place completes the byte with the bit. -/
theorem byteBits_putBit_last (acc : BitVec 8) (b : Bool) :
    byteBits (putBit acc 0 b) = (byteBits acc).take 7 ++ [b] := by
  simp (disch := decide) only [byteBits_eq, getLsbD_putBit, List.take]
  simp

/-- Filling place 7 - c adds the bit after the first c. -/
theorem byteBits_putBit_take (acc : BitVec 8) (c : Nat) (b : Bool) (hc : c < 7) :
    (byteBits (putBit acc (7 - c) b)).take (c + 1) = (byteBits acc).take c ++ [b] := by
  interval_cases c <;> simp (disch := decide) only [byteBits_eq, getLsbD_putBit, List.take] <;> simp

/-- The low bits below the count are 0 exactly when each of them is. -/
theorem low_zero_iff (acc : BitVec 8) (n : Nat) :
    acc.toNat % 2 ^ n = 0 ↔ ∀ j, j < n → acc.getLsbD j = false := by
  constructor
  · intro h j hj
    have := congrArg (fun x => x.testBit j) h
    simpa [Nat.testBit_mod_two_pow, hj, BitVec.testBit_toNat] using this
  · intro h
    apply Nat.eq_of_testBit_eq
    intro j
    rw [Nat.testBit_mod_two_pow]
    by_cases hj : j < n <;> simp [hj, BitVec.testBit_toNat]
    exact h j hj

/-- What appending the bits `bs` does to a state (R64): only the writer's registers and OBUF change, the
stream grows by `bs`, and OBUF changes at the completed bytes only. -/
structure Appended (bs : List Bool) (s t : State) : Prop where
  frame : t = { s with wlen := t.wlen, wcnt := t.wcnt, wacc := t.wacc, obuf := t.obuf }
  count : wbits t = wbits s + bs.length
  stream : outputBits t = outputBits s ++ bs
  outside : ∀ k, k < s.wlen.toNat ∨ t.wlen.toNat ≤ k → memFind t.obuf k = memFind s.obuf k
  low : s.wacc.toNat % 2 ^ (8 - s.wcnt.toNat) = 0 → t.wacc.toNat % 2 ^ (8 - t.wcnt.toNat) = 0
  listed : OutputOk s → OutputOk t
  wf : Memory.wf s.obuf → Memory.wf t.obuf
  inside : (∀ c ∈ s.obuf, c.1 < s.ocap) → ∀ c ∈ t.obuf, c.1 < t.ocap
  longer : s.wlen.toNat ≤ t.wlen.toNat

theorem Appended.refl (s : State) : Appended [] s s :=
  ⟨rfl, by simp, by simp, fun _ _ => rfl, id, id, id, id, le_rfl⟩

theorem Appended.trans {as bs : List Bool} {s t u : State} (h : Appended as s t) (g : Appended bs t u) :
    Appended (as ++ bs) s u where
  frame := by rw [g.frame, h.frame]
  count := by rw [g.count, h.count, List.length_append, Nat.add_assoc]
  stream := by rw [g.stream, h.stream, List.append_assoc]
  outside := by
    intro k hk
    have := h.longer; have := g.longer
    rw [g.outside k (by omega), h.outside k (by omega)]
  low := g.low ∘ h.low
  listed := g.listed ∘ h.listed
  wf := g.wf ∘ h.wf
  inside := g.inside ∘ h.inside
  longer := le_trans h.longer g.longer

/-- One AppendBit, when there is room for the bit. -/
theorem appendBit_spec (b : Bool) (s : State) (hcap : s.ocap < 2 ^ 56) (hroom : wbits s + 1 ≤ 8 * s.ocap) :
    ∃ t, appendBit b s = .ok t ∧ Appended [b] s t := by
  have hw : s.wlen.toNat < 2 ^ 56 := by unfold wbits at hroom; omega
  have hc8 : s.wcnt.toNat < 8 := s.wcnt.isLt
  by_cases h7 : s.wcnt.toNat + 1 = 8
  · have hlt : s.wlen.toNat < s.ocap := by unfold wbits at hroom; omega
    have hlen : (s.wlen + 1).toNat = s.wlen.toNat + 1 := by
      rw [BitVec.toNat_add]; simp; omega
    have h70 : 7 - s.wcnt.toNat = 0 := by omega
    have h7' : s.wcnt.toNat = 7 := by omega
    refine ⟨_, by simp only [appendBit, h7, ↓reduceIte, hlt]; rfl, ?_⟩
    refine ⟨rfl, ?_, ?_, ?_, ?_, ?_, ?_, ?_, ?_⟩
    · simp only [wbits, hlen, List.length_singleton, count_zero]; omega
    · simp only [outputBits, hlen, List.range_succ, List.flatMap_append, List.flatMap_singleton, h7',
        count_zero, List.take_zero, List.append_nil, List.append_assoc]
      congr 1
      · apply List.flatMap_congr
        intro k hk
        have hk' : k < s.wlen.toNat := List.mem_range.1 hk
        simp only [obufByte, hlen, hk', show k < s.wlen.toNat + 1 by omega, ↓reduceIte]
        rw [memFind_memInsert_other _ _ _ _ (by omega)]
      · simp only [obufByte, hlen, show s.wlen.toNat < s.wlen.toNat + 1 by omega, ↓reduceIte,
          memFind_memInsert_same, Option.getD_some]
        rw [show (7 - 7 : Nat) = 0 from rfl, byteBits_putBit_last]
    · intro k hk
      simp only [hlen] at hk
      exact memFind_memInsert_other _ _ _ _ (by omega)
    · intro _; simp
    · intro hl k hk
      simp only [hlen] at hk
      by_cases hks : k = s.wlen.toNat
      · subst hks; simp
      · simp only [memFind_memInsert_other _ _ _ _ hks]; exact hl k (by omega)
    · exact memInsert_wf _ _
    · intro hin
      exact memInsert_below _ hin hlt
    · simp only [hlen]; omega
  · have hcnt : (s.wcnt + 1).toNat = s.wcnt.toNat + 1 := by
      rw [BitVec.toNat_add]; simp; omega
    refine ⟨_, by simp only [appendBit, h7, ↓reduceIte]; rfl, ?_⟩
    refine ⟨rfl, ?_, ?_, ?_, ?_, ?_, ?_, ?_, ?_⟩
    · simp only [wbits, hcnt, List.length_singleton]; omega
    · simp only [outputBits, hcnt, List.append_assoc]
      congr 1
      exact byteBits_putBit_take _ _ _ (by omega)
    · intro k _; rfl
    · simp only [hcnt]
      rw [low_zero_iff, low_zero_iff]
      intro h j hj
      rw [getLsbD_putBit _ _ _ _ (by omega) (by omega), if_neg (by omega)]
      exact h j (by omega)
    · exact id
    · exact id
    · exact id
    · exact le_rfl

/-- A run of AppendBits, when there is room for all the bits. -/
theorem appendBits_spec (bs : List Bool) (s : State) (hcap : s.ocap < 2 ^ 56)
    (hroom : wbits s + bs.length ≤ 8 * s.ocap) : ∃ t, appendBits bs s = .ok t ∧ Appended bs s t := by
  induction bs generalizing s with
  | nil => exact ⟨s, rfl, .refl s⟩
  | cons b bs ih =>
    simp only [List.length_cons] at hroom
    obtain ⟨t, ht, ha⟩ := appendBit_spec b s hcap (by omega)
    have hco : t.ocap = s.ocap := by rw [ha.frame]
    have hcn := ha.count
    simp only [List.length_singleton] at hcn
    obtain ⟨u, hu, hb⟩ := ih t (by omega) (by omega)
    exact ⟨u, by simp only [appendBits, ht, hu], ha.trans hb⟩

/-- The capacity check (R64). -/
theorem overflows_eq_true {s : State} {n : Nat} :
    overflows s n = true ↔ 8 * s.ocap < 8 * s.wlen.toNat + s.wcnt.toNat + n := by
  rw [overflows, decide_eq_true_eq, wbits]

theorem overflows_eq_false {s : State} {n : Nat} :
    overflows s n = false ↔ 8 * s.wlen.toNat + s.wcnt.toNat + n ≤ 8 * s.ocap := by
  rw [overflows, decide_eq_false_iff_not, not_lt, wbits]

/-- OBUF as the host reads it changes at the completed bytes only. -/
theorem Appended.stores {bs : List Bool} {s t : State} (h : Appended bs s t) : StoresOnlyOutput s t := by
  refine ⟨h.longer, fun k hk => ?_⟩
  have hl := h.longer
  have hops : t.ops = s.ops := by rw [h.frame]
  unfold obufByte
  rw [h.outside k hk, hops]
  rcases hk with hk | hk
  · rw [if_pos hk, if_pos (by omega)]
  · rw [if_neg (by omega), if_neg (by omega)]

/-- The bits of a field, by their place in the stream (R63). -/
theorem msbFirst_eq_map (m v : Nat) : msbFirst m v = (List.range m).map (fun j => v.testBit (m - 1 - j)) := by
  induction m with
  | zero => rfl
  | succ m ih =>
    rw [msbFirst, ih, List.range_succ_eq_map, List.map_cons, List.map_map]
    congr 1
    apply List.map_congr_left
    intro j _
    simp only [Function.comp]
    congr 1
    omega

end Sys2Proof.Machine
end

