-- ==== Sys2Proof/Laws/Meanings.lean ====
section
/-! SUPPORT. For each command: what it is in an unlocked block (`exec_x`), and everything a next state of it can be
there (`exec_x_cases`), so that no later proof unfolds a meaning. -/

namespace Sys2Proof.Machine

/-- Whatever the block, a run of AppendBits changes the writer's registers and OBUF only (R64). -/
theorem appendBits_frame {bs : List Bool} {s t : State} (h : appendBits bs s = .ok t) :
    t = { s with wlen := t.wlen, wcnt := t.wcnt, wacc := t.wacc, obuf := t.obuf } := by
  induction bs generalizing s with
  | nil => cases h; rfl
  | cons b bs ih =>
    unfold appendBits at h
    split at h
    · rename_i u hu
      rw [ih h]
      unfold appendBit at hu
      dsimp only at hu
      split_ifs at hu <;> cases hu <;> rfl
    · cases h

variable {s t : State}

/-! ### System -/

theorem exec_sysNop (h : s.flag .errf = false) : exec .sysNop s = .next (respond 0 s) := guarded_runs h rfl

theorem exec_sysReset (s : State) : exec .sysReset s = .next (respond 0 (resetState s)) := rfl

/-! ### Tree builder -/

theorem exec_tbBuild (h : s.flag .errf = false) : exec .tbBuild s =
    if (countedSyms s.freq).length = 0 then .next (raiseFault .emptyTable (encode .tbBuild) s)
    else if 2 ^ 56 ≤ totalCount s.freq then .next (raiseFault .weightOvf (encode .tbBuild) s)
    else .next (respond ((treeBuilt s).root.setWidth 64) (treeBuilt s)) := guarded_runs h rfl

theorem exec_tbBuild_cases (h : s.flag .errf = false) (ht : exec .tbBuild s = .next t) :
    t = raiseFault .emptyTable (encode .tbBuild) s ∨ t = raiseFault .weightOvf (encode .tbBuild) s
    ∨ ((countedSyms s.freq).length ≠ 0 ∧ totalCount s.freq < 2 ^ 56
        ∧ t = respond ((treeBuilt s).root.setWidth 64) (treeBuilt s)) := by
  rw [exec_tbBuild h] at ht
  split_ifs at ht <;> cases ht <;> simp_all

theorem exec_tbClrf (h : s.flag .errf = false) :
    exec .tbClrf s = .next (respond 0 { s with freq := noCounts }) := guarded_runs h rfl

/-! ### Code table generator -/

theorem exec_ctgGen (h : s.flag .errf = false) : exec .ctgGen s =
    if s.flag .treeValid = false then .next (raiseFault .noTree (encode .ctgGen) s)
    else match genTable s.node s.root with
      | .error c => .next (raiseFault c (encode .ctgGen) (tableCleared s))
      | .ok acc => .next (respond (BitVec.ofNat 64 acc.coded) (tableWritten acc s)) := guarded_runs h rfl

theorem exec_ctgGen_cases (h : s.flag .errf = false) (ht : exec .ctgGen s = .next t) :
    (s.flag .treeValid = false ∧ t = raiseFault .noTree (encode .ctgGen) s)
    ∨ (s.flag .treeValid = true ∧ ∃ c, genTable s.node s.root = .error c
        ∧ t = raiseFault c (encode .ctgGen) (tableCleared s))
    ∨ (s.flag .treeValid = true ∧ ∃ acc, genTable s.node s.root = .ok acc
        ∧ t = respond (BitVec.ofNat 64 acc.coded) (tableWritten acc s)) := by
  rw [exec_ctgGen h] at ht
  cases hv : s.flag .treeValid with
  | false => simp [hv] at ht; exact .inl ⟨rfl, ht.symm⟩
  | true =>
    simp only [hv, Bool.true_eq_false, ↓reduceIte] at ht
    cases hg : genTable s.node s.root with
    | error c => rw [hg] at ht; cases ht; exact .inr (.inl ⟨rfl, c, rfl, rfl⟩)
    | ok acc => rw [hg] at ht; cases ht; exact .inr (.inr ⟨rfl, acc, rfl, rfl⟩)

/-! ### Writer -/

theorem exec_bswInit (h : s.flag .errf = false) :
    exec .bswInit s = .next (respond 0 { s with wlen := 0, wcnt := 0, wacc := 0, lastpad := 0 }) := guarded_runs h rfl

theorem exec_bswPutbits {n : BitVec 8} {v : BitVec 16} (h : s.flag .errf = false) (hw : wfPutbits n v = true) :
    exec (.bswPutbits n v) s =
      if overflows s n.toNat then .next (raiseFault .overflow (encode (.bswPutbits n v)) s)
      else match appendBits (msbFirst n.toNat v.toNat) s with
        | .ok t => .next (respond (BitVec.ofNat 64 (wbits t)) t)
        | .error f => .fault f := guarded_runs h hw

theorem exec_bswPutbits_cases {n : BitVec 8} {v : BitVec 16} (h : s.flag .errf = false)
    (ht : exec (.bswPutbits n v) s = .next t) :
    (wfPutbits n v = false ∧ t = raiseFault .illegalCmd (encode (.bswPutbits n v)) s)
    ∨ (wfPutbits n v = true ∧ overflows s n.toNat = true ∧ t = raiseFault .overflow (encode (.bswPutbits n v)) s)
    ∨ (wfPutbits n v = true ∧ overflows s n.toNat = false ∧ ∃ u, appendBits (msbFirst n.toNat v.toNat) s = .ok u
        ∧ t = respond (BitVec.ofNat 64 (wbits u)) u) := by
  cases hw : wfPutbits n v with
  | false =>
    rw [exec_illFormed (i := .bswPutbits n v) h hw] at ht
    cases ht; exact .inl ⟨rfl, rfl⟩
  | true =>
    rw [exec_bswPutbits h hw] at ht
    cases ho : overflows s n.toNat with
    | true => simp [ho] at ht; exact .inr (.inl ⟨rfl, rfl, ht.symm⟩)
    | false =>
      simp only [ho, Bool.false_eq_true, ↓reduceIte] at ht
      cases hg : appendBits (msbFirst n.toNat v.toNat) s with
      | error c => rw [hg] at ht; cases ht
      | ok u => rw [hg] at ht; cases ht; exact .inr (.inr ⟨rfl, rfl, u, rfl, rfl⟩)

theorem exec_bswPutsym {k : Sym} (h : s.flag .errf = false) : exec (.bswPutsym k) s =
    if s.flag .codeValid = false then .next (raiseFault .staleCode (encode (.bswPutsym k)) s)
    else if (codeOf s.code k).len = 0 then .next (raiseFault .noCode (encode (.bswPutsym k)) s)
    else if overflows s (codeOf s.code k).len.toNat then .next (raiseFault .overflow (encode (.bswPutsym k)) s)
    else match appendBits (codeString (codeOf s.code k)) s with
      | .ok t => .next (respond ((codeOf s.code k).len.setWidth 64) t)
      | .error f => .fault f := guarded_runs h rfl

theorem exec_bswPutsym_cases {k : Sym} (h : s.flag .errf = false) (ht : exec (.bswPutsym k) s = .next t) :
    t = raiseFault .staleCode (encode (.bswPutsym k)) s
    ∨ t = raiseFault .noCode (encode (.bswPutsym k)) s
    ∨ t = raiseFault .overflow (encode (.bswPutsym k)) s
    ∨ (s.flag .codeValid = true ∧ (codeOf s.code k).len ≠ 0 ∧ overflows s (codeOf s.code k).len.toNat = false
        ∧ ∃ u, appendBits (codeString (codeOf s.code k)) s = .ok u
        ∧ t = respond ((codeOf s.code k).len.setWidth 64) u) := by
  rw [exec_bswPutsym h] at ht
  split_ifs at ht with h1 h2 h3
  · cases ht; exact .inl rfl
  · cases ht; exact .inr (.inl rfl)
  · cases ht; exact .inr (.inr (.inl rfl))
  · cases hg : appendBits (codeString (codeOf s.code k)) s with
    | error c => rw [hg] at ht; cases ht
    | ok u =>
      rw [hg] at ht; cases ht
      exact .inr (.inr (.inr ⟨by simpa using h1, h2, by simpa using h3, u, rfl, rfl⟩))

theorem exec_bswFlush (h : s.flag .errf = false) : exec .bswFlush s =
    match appendBits (List.replicate (flushPad s) false) s with
    | .ok t => .next (respond (BitVec.ofNat 64 (flushPad s)) { t with lastpad := BitVec.ofNat 3 (flushPad s) })
    | .error f => .fault f := guarded_runs h rfl

theorem exec_bswFlush_cases (h : s.flag .errf = false) (ht : exec .bswFlush s = .next t) :
    ∃ u, appendBits (List.replicate (flushPad s) false) s = .ok u
      ∧ t = respond (BitVec.ofNat 64 (flushPad s)) { u with lastpad := BitVec.ofNat 3 (flushPad s) } := by
  rw [exec_bswFlush h] at ht
  cases hg : appendBits (List.replicate (flushPad s) false) s with
  | error c => rw [hg] at ht; cases ht
  | ok u => rw [hg] at ht; cases ht; exact ⟨u, rfl, rfl⟩

/-! ### Reader -/

theorem exec_bsrOpen (h : s.flag .errf = false) : exec .bsrOpen s =
    if s.icap < s.ilen.toNat then .next (raiseFault .badLen (encode .bsrOpen) s)
    else .next (respond (BitVec.ofNat 64 (8 * s.ilen.toNat))
      { s with rpos := 0, rlim := BitVec.ofNat 64 (8 * s.ilen.toNat) }) := guarded_runs h rfl

theorem exec_bsrOpen_cases (h : s.flag .errf = false) (ht : exec .bsrOpen s = .next t) :
    (s.icap < s.ilen.toNat ∧ t = raiseFault .badLen (encode .bsrOpen) s)
    ∨ (s.ilen.toNat ≤ s.icap ∧ t = respond (BitVec.ofNat 64 (8 * s.ilen.toNat))
        { s with rpos := 0, rlim := BitVec.ofNat 64 (8 * s.ilen.toNat) }) := by
  rw [exec_bsrOpen h] at ht
  split_ifs at ht with h1 <;> cases ht
  · exact .inl ⟨h1, rfl⟩
  · exact .inr ⟨by omega, rfl⟩

theorem exec_bsrGetbits {n : BitVec 8} (h : s.flag .errf = false) (hw : wfGetbits n = true) :
    exec (.bsrGetbits n) s =
      if s.rlim.toNat < s.rpos.toNat + n.toNat then .next (raiseFault .underrun (encode (.bsrGetbits n)) s)
      else match readBits s n.toNat s.rpos.toNat 0 with
        | .ok v => .next (respond (BitVec.ofNat 64 v) { s with rpos := BitVec.ofNat 64 (s.rpos.toNat + n.toNat) })
        | .error f => .fault f := guarded_runs h hw

theorem exec_bsrGetbits_cases {n : BitVec 8} (h : s.flag .errf = false) (ht : exec (.bsrGetbits n) s = .next t) :
    (wfGetbits n = false ∧ t = raiseFault .illegalCmd (encode (.bsrGetbits n)) s)
    ∨ (s.rlim.toNat < s.rpos.toNat + n.toNat ∧ wfGetbits n = true
        ∧ t = raiseFault .underrun (encode (.bsrGetbits n)) s)
    ∨ (s.rpos.toNat + n.toNat ≤ s.rlim.toNat ∧ wfGetbits n = true ∧ ∃ v, readBits s n.toNat s.rpos.toNat 0 = .ok v
        ∧ t = respond (BitVec.ofNat 64 v) { s with rpos := BitVec.ofNat 64 (s.rpos.toNat + n.toNat) }) := by
  cases hw : wfGetbits n with
  | false =>
    rw [exec_illFormed (i := .bsrGetbits n) h hw] at ht
    cases ht; exact .inl ⟨rfl, rfl⟩
  | true =>
    rw [exec_bsrGetbits h hw] at ht
    split_ifs at ht with h1
    · cases ht; exact .inr (.inl ⟨h1, rfl, rfl⟩)
    · cases hg : readBits s n.toNat s.rpos.toNat 0 with
      | error c => rw [hg] at ht; cases ht
      | ok v => rw [hg] at ht; cases ht; exact .inr (.inr ⟨by omega, rfl, v, rfl, rfl⟩)

theorem exec_bsrTrim {p : BitVec 8} (h : s.flag .errf = false) (hw : wfTrim p = true) :
    exec (.bsrTrim p) s =
      if s.rlim.toNat - s.rpos.toNat < p.toNat then .next (raiseFault .padRange (encode (.bsrTrim p)) s)
      else match anyOne s p.toNat (s.rlim.toNat - p.toNat) with
        | .ok true => .next (raiseFault .padNonzero (encode (.bsrTrim p)) s)
        | .ok false =>
          .next (respond (BitVec.ofNat 64 (s.rlim.toNat - p.toNat - s.rpos.toNat))
            { s with rlim := BitVec.ofNat 64 (s.rlim.toNat - p.toNat) })
        | .error f => .fault f := guarded_runs h hw

theorem exec_bsrTrim_cases {p : BitVec 8} (h : s.flag .errf = false) (ht : exec (.bsrTrim p) s = .next t) :
    (wfTrim p = false ∧ t = raiseFault .illegalCmd (encode (.bsrTrim p)) s)
    ∨ (wfTrim p = true ∧ s.rlim.toNat - s.rpos.toNat < p.toNat ∧ t = raiseFault .padRange (encode (.bsrTrim p)) s)
    ∨ (wfTrim p = true ∧ p.toNat ≤ s.rlim.toNat - s.rpos.toNat ∧ anyOne s p.toNat (s.rlim.toNat - p.toNat) = .ok true
        ∧ t = raiseFault .padNonzero (encode (.bsrTrim p)) s)
    ∨ (wfTrim p = true ∧ p.toNat ≤ s.rlim.toNat - s.rpos.toNat ∧ anyOne s p.toNat (s.rlim.toNat - p.toNat) = .ok false
        ∧ t = respond (BitVec.ofNat 64 (s.rlim.toNat - p.toNat - s.rpos.toNat))
            { s with rlim := BitVec.ofNat 64 (s.rlim.toNat - p.toNat) }) := by
  cases hw : wfTrim p with
  | false =>
    rw [exec_illFormed (i := .bsrTrim p) h hw] at ht
    cases ht; exact .inl ⟨rfl, rfl⟩
  | true =>
    rw [exec_bsrTrim h hw] at ht
    split_ifs at ht with h1
    · cases ht; exact .inr (.inl ⟨rfl, h1, rfl⟩)
    · cases hg : anyOne s p.toNat (s.rlim.toNat - p.toNat) with
      | error c => rw [hg] at ht; cases ht
      | ok b =>
        rw [hg] at ht
        cases b <;> cases ht
        · exact .inr (.inr (.inr ⟨rfl, by omega, rfl, rfl⟩))
        · exact .inr (.inr (.inl ⟨rfl, by omega, rfl, rfl⟩))

/-! ### Walker -/

theorem exec_dtwStart (h : s.flag .errf = false) : exec .dtwStart s =
    if s.flag .treeValid = false then .next (raiseFault .noTree (encode .dtwStart) s)
    else if (nodeAt s s.root).kind ≠ .internal then .next (raiseFault .badTree (encode .dtwStart) s)
    else .next (respond (s.root.setWidth 64)
      { s with
        cur := s.root, symcnt := 0
        status := putFlag (putFlag s.status .phSeen false) .armed true }) := guarded_runs h rfl

theorem exec_dtwStart_cases (h : s.flag .errf = false) (ht : exec .dtwStart s = .next t) :
    t = raiseFault .noTree (encode .dtwStart) s
    ∨ t = raiseFault .badTree (encode .dtwStart) s
    ∨ (s.flag .treeValid = true ∧ (nodeAt s s.root).kind = .internal ∧ t = respond (s.root.setWidth 64)
        { s with
          cur := s.root, symcnt := 0
          status := putFlag (putFlag s.status .phSeen false) .armed true }) := by
  rw [exec_dtwStart h] at ht
  split_ifs at ht with h1 h2 <;> cases ht
  · exact .inl rfl
  · exact .inr (.inl rfl)
  · exact .inr (.inr ⟨by simpa using h1, by simpa using h2, rfl⟩)

/-- Everything one step of the walk can do (R212). -/
theorem walkStep_moved {s t : State} {v : BitVec 64} (h : walkStep s = .moved v t) :
    s.flag .armed = true ∧ s.rpos.toNat < s.rlim.toNat ∧ s.rpos.toNat < 8 * s.icap
    ∧ (((nodeAt s (childOn s (inputBit s s.rpos.toNat))).kind = .internal ∧ v = 0
          ∧ t = { s with rpos := s.rpos + 1, cur := childOn s (inputBit s s.rpos.toNat) })
      ∨ ((nodeAt s (childOn s (inputBit s s.rpos.toNat))).kind = .leaf ∧ overflows s 8 = false
          ∧ v = 0x100 + (nodeAt s (childOn s (inputBit s s.rpos.toNat))).sym.setWidth 64
          ∧ ∃ u, appendBits (byteBits (nodeAt s (childOn s (inputBit s s.rpos.toNat))).sym)
              { s with rpos := s.rpos + 1 } = .ok u
            ∧ t = { u with symcnt := u.symcnt + 1, cur := u.root })
      ∨ ((nodeAt s (childOn s (inputBit s s.rpos.toNat))).kind = .placeholder ∧ v = 0x200
          ∧ t = { s with rpos := s.rpos + 1, cur := s.root, status := putFlag s.status .phSeen true })) := by
  unfold walkStep at h
  split at h
  · cases h
  rename_i h1
  split at h
  · cases h
  rename_i h2
  split at h
  · cases h
  rename_i b hb
  unfold rdBit at hb
  split at hb
  swap
  · cases hb
  rename_i hi
  cases hb
  refine ⟨by simpa using h1, by omega, hi, ?_⟩
  change (match (nodeAt s (childOn s (inputBit s s.rpos.toNat))).kind with
    | .free => StepEnd.raised .badNode
    | .internal => .moved 0x000 { s with rpos := s.rpos + 1, cur := childOn s (inputBit s s.rpos.toNat) }
    | .leaf => emitLeaf (nodeAt s (childOn s (inputBit s s.rpos.toNat))).sym s
    | .placeholder =>
      .moved 0x200 { s with rpos := s.rpos + 1, cur := s.root, status := putFlag s.status .phSeen true }) = _ at h
  split at h
  · cases h
  · cases h; exact .inl ⟨‹_›, rfl, rfl⟩
  · unfold emitLeaf at h
    split at h
    · cases h
    · rename_i ho
      split at h
      · rename_i u hu
        cases h
        exact .inr (.inl ⟨‹_›, by simpa using ho, rfl, u, hu, rfl⟩)
      · cases h
  · cases h; exact .inr (.inr ⟨‹_›, rfl, rfl⟩)

theorem exec_dtwStep (h : s.flag .errf = false) : exec .dtwStep s =
    match walkStep s with
    | .moved v t => .next (respond v t)
    | .raised c => .next (raiseFault c (encode .dtwStep) s)
    | .outside f => .fault f := guarded_runs h rfl

theorem exec_dtwStep_cases (h : s.flag .errf = false) (ht : exec .dtwStep s = .next t) :
    (∃ v u, walkStep s = .moved v u ∧ t = respond v u)
    ∨ ∃ c, walkStep s = .raised c ∧ t = raiseFault c (encode .dtwStep) s := by
  rw [exec_dtwStep h] at ht
  cases hg : walkStep s with
  | moved v u => rw [hg] at ht; cases ht; exact .inl ⟨v, u, rfl, rfl⟩
  | raised c => rw [hg] at ht; cases ht; exact .inr ⟨c, rfl, rfl⟩
  | outside f => rw [hg] at ht; cases ht

theorem exec_dtwRun (h : s.flag .errf = false) : exec .dtwRun s =
    if s.flag .armed = false then .next (raiseFault .notArmed (encode .dtwRun) s)
    else match walkLoop (s.rlim.toNat - s.rpos.toNat) s with
      | .done t => if t.cur ≠ t.root then .next (raiseFault .truncSymbol (encode .dtwRun) t) else .next (respond t.symcnt t)
      | .raised c t => .next (raiseFault c (encode .dtwRun) t)
      | .outside f => .fault f := guarded_runs h rfl

theorem exec_dtwRun_cases (h : s.flag .errf = false) (ht : exec .dtwRun s = .next t) :
    (s.flag .armed = false ∧ t = raiseFault .notArmed (encode .dtwRun) s)
    ∨ (s.flag .armed = true ∧ ∃ u, walkLoop (s.rlim.toNat - s.rpos.toNat) s = .done u
        ∧ ((u.cur ≠ u.root ∧ t = raiseFault .truncSymbol (encode .dtwRun) u) ∨ (u.cur = u.root ∧ t = respond u.symcnt u)))
    ∨ (s.flag .armed = true ∧ ∃ c u, walkLoop (s.rlim.toNat - s.rpos.toNat) s = .raised c u
        ∧ t = raiseFault c (encode .dtwRun) u) := by
  rw [exec_dtwRun h] at ht
  cases ha : s.flag .armed with
  | false => simp [ha] at ht; exact .inl ⟨rfl, ht.symm⟩
  | true =>
    simp only [ha, Bool.true_eq_false, ↓reduceIte] at ht
    cases hg : walkLoop (s.rlim.toNat - s.rpos.toNat) s with
    | done u =>
      rw [hg] at ht
      dsimp only at ht
      split_ifs at ht with h1 <;> cases ht
      · exact .inr (.inl ⟨rfl, u, rfl, .inl ⟨h1, rfl⟩⟩)
      · exact .inr (.inl ⟨rfl, u, rfl, .inr ⟨by simpa using h1, rfl⟩⟩)
    | raised c u => rw [hg] at ht; cases ht; exact .inr (.inr ⟨rfl, c, u, rfl, rfl⟩)
    | outside f => rw [hg] at ht; cases ht

/-- What every completed step of the walk keeps, the loop keeps: `P s t` for the state before and the state after
the completed steps. -/
theorem walkLoop_induction {P : State → State → Prop} (refl : ∀ s, P s s)
    (step : ∀ s v t u, walkStep s = .moved v t → P t u → P s u) :
    ∀ (fuel : Nat) (s u : State), (walkLoop fuel s = .done u ∨ ∃ c, walkLoop fuel s = .raised c u) → P s u := by
  intro fuel
  induction fuel with
  | zero => rintro s u (h | ⟨c, h⟩) <;> cases h; exact refl s
  | succ fuel ih =>
    intro s u h
    unfold walkLoop at h
    split at h
    · rcases h with h | ⟨c, h⟩ <;> cases h; exact refl s
    · cases hw : walkStep s with
      | moved v t => rw [hw] at h; exact step s v t u hw (ih t u h)
      | raised c => rw [hw] at h; rcases h with h | ⟨c, h⟩ <;> cases h; exact refl s
      | outside f => rw [hw] at h; rcases h with h | ⟨c, h⟩ <;> cases h

end Sys2Proof.Machine
end

