-- ==== Sys2Proof/Laws/Walker.lean ====
section
/-! SUPPORT. Everything a step of the walk and its loop can do (45_tree_walker.md rules R212, R213). -/

namespace Sys2Proof.Machine

theorem walkStep_eq {s : State} (ha : s.flag .armed = true) (h1 : s.rpos.toNat < s.rlim.toNat) (h2 : s.rpos.toNat < 8 * s.icap) :
    walkStep s = match (nodeAt s (childOn s (inputBit s s.rpos.toNat))).kind with
      | .free => .raised .badNode
      | .internal => .moved 0x000 { s with rpos := s.rpos + 1, cur := childOn s (inputBit s s.rpos.toNat) }
      | .leaf => emitLeaf (nodeAt s (childOn s (inputBit s s.rpos.toNat))).sym s
      | .placeholder =>
        .moved 0x200 { s with rpos := s.rpos + 1, cur := s.root, status := putFlag s.status .phSeen true } := by
  unfold walkStep
  rw [if_neg (by simp [ha]), if_neg (by omega)]
  have h := rdBit_inside s s.rpos.toNat h2
  revert h
  generalize rdBit s s.rpos.toNat = r
  rintro rfl
  rfl

theorem emitLeaf_fits {s : State} (k : Sym) (hc : CapacitiesOk s) (h : 8 * s.wlen.toNat + s.wcnt.toNat + 8 ≤ 8 * s.ocap) :
    ∃ u, Appended (byteBits k) { s with rpos := s.rpos + 1 } u ∧
      emitLeaf k s = .moved (0x100 + k.setWidth 64) { u with symcnt := u.symcnt + 1, cur := u.root } := by
  obtain ⟨u, hu, ha⟩ := appendBits_spec (byteBits k) { s with rpos := s.rpos + 1 } hc.1.2 (by
    have : wbits { s with rpos := s.rpos + 1 } = wbits s := rfl
    rw [this, byteBits_length]; simpa [wbits] using h)
  refine ⟨u, ha, ?_⟩
  unfold emitLeaf
  rw [overflows_eq_false.2 h]
  simp only [Bool.false_eq_true, ↓reduceIte]
  change (match appendBits (byteBits k) { s with rpos := s.rpos + 1 } with
    | .ok t => StepEnd.moved (0x100 + k.setWidth 64) { t with symcnt := t.symcnt + 1, cur := t.root }
    | .error f => .outside f) = _
  rw [hu]

/-- A completed step consumes exactly one bit and keeps what the loop needs. -/
theorem walkStep_frame {s t : State} {v : BitVec 64} (h : walkStep s = .moved v t) :
    t = { s with
      rpos := s.rpos + 1, cur := t.cur, symcnt := t.symcnt, status := t.status
      wlen := t.wlen, wcnt := t.wcnt, wacc := t.wacc, obuf := t.obuf }
    ∧ (t.status = s.status ∨ t.status = putFlag s.status .phSeen true) := by
  obtain ⟨-, -, -, h | ⟨-, -, -, u, hu, rfl⟩ | h⟩ := walkStep_moved h
  · rw [h.2.2]; exact ⟨rfl, .inl rfl⟩
  · have := appendBits_frame hu
    constructor
    · rw [this]
    · left; rw [this]
  · rw [h.2.2]; exact ⟨rfl, .inr rfl⟩

theorem walkStep_flag {s t : State} {v : BitVec 64} (h : walkStep s = .moved v t) (f : Flag) (hf : f ≠ .phSeen) :
    t.flag f = s.flag f := by
  rcases (walkStep_frame h).2 with h | h
  · simp [State.flag, h]
  · simp only [State.flag, h, getFlag_putFlag]; simp [Ne.symm hf]

theorem walkStep_rpos {s t : State} {v : BitVec 64} (h : walkStep s = .moved v t) :
    t.rpos.toNat = s.rpos.toNat + 1 ∧ s.rpos.toNat < s.rlim.toNat := by
  obtain ⟨-, hl, -, -⟩ := walkStep_moved h
  have := (walkStep_frame h).1
  have e : t.rpos = s.rpos + 1 := by rw [this]
  have := s.rlim.isLt
  refine ⟨?_, hl⟩
  rw [e, BitVec.toNat_add]; simp; omega

theorem appendBits_reply (bs : List Bool) (s : State) (r : Option Reply) :
    appendBits bs { s with reply := r } = (appendBits bs s).map (fun t => { t with reply := r }) := by
  induction bs generalizing s with
  | nil => rfl
  | cons b bs ih =>
    have e : appendBit b { s with reply := r } = (appendBit b s).map (fun t => { t with reply := r }) := by
      unfold appendBit
      dsimp only
      split_ifs <;> rfl
    simp only [appendBits, e]
    cases appendBit b s with
    | error f => rfl
    | ok t => simp only [Except.map]; exact ih t

/-- The end of a step of the walk with another reply in its state. -/
def StepEnd.withReply (r : Option Reply) : StepEnd → StepEnd
  | .moved v t => .moved v { t with reply := r }
  | .raised c => .raised c
  | .outside f => .outside f

/-- The end of the walk's loop with another reply in its state. -/
def RunEnd.withReply (r : Option Reply) : RunEnd → RunEnd
  | .done t => .done { t with reply := r }
  | .raised c t => .raised c { t with reply := r }
  | .outside f => .outside f

theorem emitLeaf_reply (k : Sym) (s : State) (r : Option Reply) :
    emitLeaf k { s with reply := r } = StepEnd.withReply r (emitLeaf k s) := by
  unfold emitLeaf
  by_cases h : overflows s 8 = true
  · rw [if_pos h, if_pos (by exact h)]; rfl
  · rw [if_neg h, if_neg (by exact h)]
    have e := appendBits_reply (msbFirst 8 k.toNat) { s with rpos := s.rpos + 1 } r
    dsimp only at e ⊢
    rw [e]
    cases appendBits (msbFirst 8 k.toNat) { s with rpos := s.rpos + 1 } <;> rfl

theorem walkStep_reply (s : State) (r : Option Reply) :
    walkStep { s with reply := r } = StepEnd.withReply r (walkStep s) := by
  unfold walkStep
  by_cases h1 : s.flag .armed = false
  · rw [if_pos h1, if_pos (by exact h1)]; rfl
  rw [if_neg h1, if_neg (by exact h1)]
  by_cases h2 : s.rlim.toNat ≤ s.rpos.toNat
  · rw [if_pos h2, if_pos (by exact h2)]; rfl
  rw [if_neg h2, if_neg (by exact h2)]
  have e : rdBit { s with reply := r } ({ s with reply := r } : State).rpos.toNat = rdBit s s.rpos.toNat := rfl
  rw [e]
  cases rdBit s s.rpos.toNat with
  | error f => rfl
  | ok b =>
    dsimp only
    have e' : (nodeAt { s with reply := r } (childOn { s with reply := r } b)) = nodeAt s (childOn s b) := rfl
    rw [e']
    cases (nodeAt s (childOn s b)).kind with
    | leaf => exact emitLeaf_reply _ s r
    | free => rfl
    | internal => rfl
    | placeholder => rfl

theorem walkLoop_reply (fuel : Nat) (s : State) (r : Option Reply) :
    walkLoop fuel { s with reply := r } = RunEnd.withReply r (walkLoop fuel s) := by
  induction fuel generalizing s with
  | zero => rfl
  | succ n ih =>
    unfold walkLoop
    rw [walkStep_reply]
    dsimp only
    split
    · rfl
    · cases walkStep s with
      | moved v t => exact ih t
      | raised c => rfl
      | outside f => rfl

/-- Why a step of the walk fails (R212), in the order of the checks. -/
theorem walkStep_raised {s : State} {c : Cause} (h : walkStep s = .raised c) :
    (c = .notArmed ∧ s.flag .armed = false)
    ∨ (c = .underrun ∧ s.flag .armed = true ∧ s.rlim.toNat ≤ s.rpos.toNat)
    ∨ (c = .badNode ∧ s.flag .armed = true ∧ s.rpos.toNat < s.rlim.toNat
        ∧ (nodeAt s (childOn s (inputBit s s.rpos.toNat))).kind = .free)
    ∨ (c = .overflow ∧ s.flag .armed = true ∧ s.rpos.toNat < s.rlim.toNat
        ∧ (nodeAt s (childOn s (inputBit s s.rpos.toNat))).kind = .leaf ∧ overflows s 8 = true) := by
  by_cases h1 : s.flag .armed = false
  · simp only [walkStep, h1, if_true] at h; cases h; exact .inl ⟨rfl, h1⟩
  have h1' : s.flag .armed = true := by simpa using h1
  by_cases h2 : s.rlim.toNat ≤ s.rpos.toNat
  · simp only [walkStep, h1, h2, if_true] at h; cases h; exact .inr (.inl ⟨rfl, h1', h2⟩)
  by_cases h3 : s.rpos.toNat < 8 * s.icap
  · rw [walkStep_eq h1' (by omega) h3] at h
    split at h
    · cases h; exact .inr (.inr (.inl ⟨rfl, h1', by omega, ‹_›⟩))
    · cases h
    · unfold emitLeaf at h
      split at h
      · cases h; exact .inr (.inr (.inr ⟨rfl, h1', by omega, ‹_›, ‹_›⟩))
      · split at h <;> cases h
    · cases h
  · simp only [walkStep, h1, if_false, h2, rdBit, h3] at h
    cases h

/-- Everything the walk's loop keeps. -/
theorem walkLoop_frame {fuel : Nat} {s t : State} (h : walkLoop fuel s = .done t ∨ ∃ c, walkLoop fuel s = .raised c t) :
    t = { s with
      rpos := t.rpos, cur := t.cur, symcnt := t.symcnt, status := t.status
      wlen := t.wlen, wcnt := t.wcnt, wacc := t.wacc, obuf := t.obuf }
    ∧ (t.status = s.status ∨ t.status = putFlag s.status .phSeen true) := by
  refine walkLoop_induction (P := fun s t => t = { s with
      rpos := t.rpos, cur := t.cur, symcnt := t.symcnt, status := t.status
      wlen := t.wlen, wcnt := t.wcnt, wacc := t.wacc, obuf := t.obuf }
    ∧ (t.status = s.status ∨ t.status = putFlag s.status .phSeen true)) ?_ ?_ fuel s t h
  · intro s; exact ⟨rfl, .inl rfl⟩
  · intro s v t u hm ⟨h1, h2⟩
    obtain ⟨g1, g2⟩ := walkStep_frame hm
    refine ⟨?_, ?_⟩
    · rw [h1, g1]
    · have idem : putFlag (putFlag s.status .phSeen true) .phSeen true = putFlag s.status .phSeen true :=
        putFlag_same _ _ _ (by simp)
      rcases g2 with g2 | g2 <;> rcases h2 with h2 | h2 <;> simp [g2, h2, idem]

theorem walkLoop_flag {fuel : Nat} {s t : State} (h : walkLoop fuel s = .done t ∨ ∃ c, walkLoop fuel s = .raised c t)
    (f : Flag) (hf : f ≠ .phSeen) : t.flag f = s.flag f := by
  rcases (walkLoop_frame h).2 with h | h
  · simp [State.flag, h]
  · simp only [State.flag, h, getFlag_putFlag]; simp [Ne.symm hf]

/-- Why the loop of DTW_RUN fails (R213). -/
theorem walkLoop_raised {fuel : Nat} {s t : State} {c : Cause} (ha : s.flag .armed = true)
    (h : walkLoop fuel s = .raised c t) : (c = .badNode ∨ c = .overflow) ∧ walkStep t = .raised c := by
  induction fuel generalizing s with
  | zero => cases h
  | succ n ih =>
    unfold walkLoop at h
    split at h
    · cases h
    · rename_i hl
      cases hw : walkStep s with
      | moved v u => rw [hw] at h; exact ih (by rw [walkStep_flag hw _ (by decide)]; exact ha) h
      | raised d =>
        rw [hw] at h
        cases h
        refine ⟨?_, hw⟩
        rcases walkStep_raised hw with ⟨-, h'⟩ | ⟨-, -, h'⟩ | ⟨rfl, -⟩ | ⟨rfl, -⟩
        · simp [ha] at h'
        · omega
        · exact .inl rfl
        · exact .inr rfl
      | outside f => rw [hw] at h; cases h

end Sys2Proof.Machine
end

