-- ==== Sys2Proof/Laws/Outcomes.lean ====
section
/-! SUPPORT. How any command ends (60_exceptions.md rules R281, R283, R287, R288). -/

namespace Sys2Proof.Machine

/-- The causes a walk of a tree can end with (R151). -/
theorem gen_error {m : Vector Node 512} {rem : Nat} {i : NodeIdx} {p : Nat} {acc : GenAcc} {c : Cause}
    (h : gen m rem i p acc = .error c) : c = .badTree ∨ c = .badNode ∨ c = .dupSymbol := by
  have visit : ∀ (n : Node) (d p : Nat) (acc : GenAcc) (c : Cause), genVisit n d p acc = .error c →
      c = .badTree ∨ c = .badNode ∨ c = .dupSymbol := by
    intro n d p acc c h
    unfold genVisit at h
    split at h
    · cases h; simp
    · cases h; simp
    · split at h <;> cases h; simp
    · split at h <;> cases h; simp
  induction rem generalizing i p acc with
  | zero => exact visit _ _ _ _ _ h
  | succ rem ih =>
    unfold gen at h
    split at h
    · split at h
      · exact ih h
      · cases h; exact ih ‹_›
    · exact visit _ _ _ _ _ h
    · exact visit _ _ _ _ _ h
    · exact visit _ _ _ _ _ h

theorem genTable_error {m : Vector Node 512} {root : NodeIdx} {c : Cause} (h : genTable m root = .error c) :
    c = .badTree ∨ c = .badNode ∨ c = .dupSymbol := by
  unfold genTable at h
  split at h
  · exact gen_error h
  · cases h; simp

/-- How a command that is neither locked nor SYS_RESET ends (R8): OK, or with a fault raised in a state that is still unlocked. -/
theorem exec_ends {i : Instr} {s t : State} (hu : s.flag .errf = false) (h : exec i s = .next t) :
    (∃ v u, t = respond v u ∧ u.flag .errf = false)
    ∨ ∃ c u, t = raiseFault c (encode i) u ∧ u.flag .errf = false ∧ u.err = s.err
        ∧ (c = .illegalCmd → i.wf = false)
        ∧ (i ≠ .ctgGen ∨ c = .noTree → i ≠ .dtwRun ∨ c = .notArmed → u = s) := by
  cases i with
  | sysNop => rw [exec_sysNop hu] at h; cases h; exact .inl ⟨_, _, rfl, hu⟩
  | sysReset => rw [exec_sysReset] at h; cases h; exact .inl ⟨_, _, rfl, by simp⟩
  | tbBuild =>
    rcases exec_tbBuild_cases hu h with rfl | rfl | ⟨-, -, rfl⟩
    · exact .inr ⟨_, _, rfl, hu, rfl, by simp, fun _ _ => rfl⟩
    · exact .inr ⟨_, _, rfl, hu, rfl, by simp, fun _ _ => rfl⟩
    · exact .inl ⟨_, _, rfl, by simpa using hu⟩
  | tbClrf => rw [exec_tbClrf hu] at h; cases h; exact .inl ⟨_, _, rfl, hu⟩
  | ctgGen =>
    rcases exec_ctgGen_cases hu h with ⟨-, rfl⟩ | ⟨-, c, hc, rfl⟩ | ⟨-, acc, -, rfl⟩
    · exact .inr ⟨_, _, rfl, hu, rfl, by simp, fun _ _ => rfl⟩
    · refine .inr ⟨_, _, rfl, by simpa using hu, rfl, ?_, ?_⟩ <;>
        rcases genTable_error hc with rfl | rfl | rfl <;> simp
    · exact .inl ⟨_, _, rfl, by simpa using hu⟩
  | bswInit => rw [exec_bswInit hu] at h; cases h; exact .inl ⟨_, _, rfl, hu⟩
  | bswPutbits n v =>
    rcases exec_bswPutbits_cases hu h with ⟨hw, rfl⟩ | ⟨-, -, rfl⟩ | ⟨-, -, u, hu', rfl⟩
    · exact .inr ⟨_, _, rfl, hu, rfl, fun _ => hw, fun _ _ => rfl⟩
    · exact .inr ⟨_, _, rfl, hu, rfl, by simp, fun _ _ => rfl⟩
    · exact .inl ⟨_, _, rfl, by rw [appendBits_frame hu']; exact hu⟩
  | bswPutsym k =>
    rcases exec_bswPutsym_cases hu h with rfl | rfl | rfl | ⟨-, -, -, u, hu', rfl⟩
    · exact .inr ⟨_, _, rfl, hu, rfl, by simp, fun _ _ => rfl⟩
    · exact .inr ⟨_, _, rfl, hu, rfl, by simp, fun _ _ => rfl⟩
    · exact .inr ⟨_, _, rfl, hu, rfl, by simp, fun _ _ => rfl⟩
    · exact .inl ⟨_, _, rfl, by rw [appendBits_frame hu']; exact hu⟩
  | bswFlush =>
    obtain ⟨u, hu', rfl⟩ := exec_bswFlush_cases hu h
    exact .inl ⟨_, _, rfl, by rw [appendBits_frame hu']; exact hu⟩
  | bsrOpen =>
    rcases exec_bsrOpen_cases hu h with ⟨-, rfl⟩ | ⟨-, rfl⟩
    · exact .inr ⟨_, _, rfl, hu, rfl, by simp, fun _ _ => rfl⟩
    · exact .inl ⟨_, _, rfl, hu⟩
  | bsrGetbits n =>
    rcases exec_bsrGetbits_cases hu h with ⟨hw, rfl⟩ | ⟨-, -, rfl⟩ | ⟨-, -, v, -, rfl⟩
    · exact .inr ⟨_, _, rfl, hu, rfl, fun _ => hw, fun _ _ => rfl⟩
    · exact .inr ⟨_, _, rfl, hu, rfl, by simp, fun _ _ => rfl⟩
    · exact .inl ⟨_, _, rfl, hu⟩
  | bsrTrim p =>
    rcases exec_bsrTrim_cases hu h with ⟨hw, rfl⟩ | ⟨-, -, rfl⟩ | ⟨-, -, -, rfl⟩ | ⟨-, -, -, rfl⟩
    · exact .inr ⟨_, _, rfl, hu, rfl, fun _ => hw, fun _ _ => rfl⟩
    · exact .inr ⟨_, _, rfl, hu, rfl, by simp, fun _ _ => rfl⟩
    · exact .inr ⟨_, _, rfl, hu, rfl, by simp, fun _ _ => rfl⟩
    · exact .inl ⟨_, _, rfl, hu⟩
  | dtwStart =>
    rcases exec_dtwStart_cases hu h with rfl | rfl | ⟨-, -, rfl⟩
    · exact .inr ⟨_, _, rfl, hu, rfl, by simp, fun _ _ => rfl⟩
    · exact .inr ⟨_, _, rfl, hu, rfl, by simp, fun _ _ => rfl⟩
    · refine .inl ⟨_, _, rfl, ?_⟩
      simpa [State.flag] using hu
  | dtwStep =>
    rcases exec_dtwStep_cases hu h with ⟨v, u, hm, rfl⟩ | ⟨c, hc, rfl⟩
    · exact .inl ⟨_, _, rfl, by rw [walkStep_flag hm _ (by decide)]; exact hu⟩
    · refine .inr ⟨_, _, rfl, hu, rfl, ?_, fun _ _ => rfl⟩
      rcases walkStep_raised hc with ⟨rfl, -⟩ | ⟨rfl, -⟩ | ⟨rfl, -⟩ | ⟨rfl, -⟩ <;> simp
  | dtwRun =>
    rcases exec_dtwRun_cases hu h with ⟨-, rfl⟩ | ⟨-, u, hd, ⟨-, rfl⟩ | ⟨-, rfl⟩⟩ | ⟨ha, c, u, hc, rfl⟩
    · exact .inr ⟨_, _, rfl, hu, rfl, by simp, fun _ _ => rfl⟩
    · refine .inr ⟨_, _, rfl, by rw [walkLoop_flag (.inl hd) _ (by decide)]; exact hu, ?_, by simp, by simp⟩
      rw [(walkLoop_frame (.inl hd)).1]
    · exact .inl ⟨_, _, rfl, by rw [walkLoop_flag (.inl hd) _ (by decide)]; exact hu⟩
    · refine .inr ⟨_, _, rfl, by rw [walkLoop_flag (.inr ⟨c, hc⟩) _ (by decide)]; exact hu, ?_, ?_, ?_⟩
      · rw [(walkLoop_frame (.inr ⟨c, hc⟩)).1]
      · rcases (walkLoop_raised ha hc).1 with rfl | rfl <;> simp
      · rcases (walkLoop_raised ha hc).1 with rfl | rfl <;> simp

end Sys2Proof.Machine
end

