-- ==== Sys2Proof/Laws/Invariants.lean ====
section
/-! SUPPORT. The operations the commands share keep the invariants of 10_state.md rule R35. -/

namespace Sys2Proof.Machine

/-- What the host was answered plays no part in the invariants (R35). -/
theorem stateOk_reply {s : State} (h : StateOk s) (r : Option Reply) : StateOk { s with reply := r } :=
  ⟨h.1, h.2, h.3, h.4, h.5, h.6, h.7, h.8⟩

/-- Nor do the operations the host has issued, or their count. -/
theorem stateOk_issued {s : State} (h : StateOk s) (r : List HostOp) (n : Nat) : StateOk { s with pending := r, ops := n } :=
  ⟨h.1, h.2, h.3, h.4, h.5, h.6, h.7, h.8⟩

/-- Recording a fault keeps the invariants (R283, item 6 of R35). -/
theorem stateOk_raiseFault {s : State} (h : StateOk s) (c : Cause) (w : Word) : StateOk (raiseFault c w s) := by
  refine ⟨h.1, h.2, h.3, h.4, h.5, ?_, ?_, ?_⟩
  · intro ha; obtain ⟨a, b, d⟩ := h.6 (by simpa using ha); exact ⟨by simpa using a, b, d⟩
  · intro ha; obtain ⟨a, b⟩ := h.7 (by simpa using ha); exact ⟨by simpa using a, b⟩
  · constructor
    · simp [raiseFault]
      simp [State.flag]
      exact causeCode_ne_zero c
    · simp

/-- Appending bits that fit keeps the invariants (R64, items 1 and 2 of R35). -/
theorem stateOk_appended {s t : State} {bs : List Bool} (h : StateOk s) (a : Appended bs s t) (hr : wbits s + bs.length ≤ 8 * s.ocap) : StateOk t := by
  have e := a.frame
  have hflag : ∀ f, t.flag f = s.flag f := by intro f; rw [e]; rfl
  have hcap : t.ocap = s.ocap := by rw [e]
  refine ⟨?_, ?_, ?_, a.listed h.4, ?_, ?_, ?_, ?_⟩
  · rw [e]; exact h.1
  · refine ⟨?_, a.wf h.2.2.1, a.inside h.2.2.2⟩
    rw [e]; exact h.2.1
  · refine ⟨a.low h.3.1, ?_⟩
    rw [a.count, hcap]; exact hr
  · rw [e]; exact h.5
  · rw [e]; exact h.6
  · rw [e]; exact h.7
  · rw [e]; exact h.8

/-- A run of AppendBits that fits keeps the invariants. -/
theorem stateOk_appendBits {s t : State} {bs : List Bool} (h : StateOk s) (ha : appendBits bs s = .ok t) (hr : wbits s + bs.length ≤ 8 * s.ocap) : StateOk t := by
  obtain ⟨u, hu, a⟩ := appendBits_spec bs s h.1.1.2 hr
  rw [ha] at hu; cases hu; exact stateOk_appended h a hr

/-- SYS_RESET's state meets the invariants (R38). -/
theorem stateOk_resetState {s : State} (h : StateOk s) : StateOk (resetState s) := by
  refine ⟨h.1, ⟨⟨?_, ?_⟩, ?_, ?_⟩, ⟨?_, ?_⟩, ?_, ⟨?_, ?_⟩, ?_, ?_, ?_⟩
  · exact List.Pairwise.nil
  · intro c hc; cases hc
  · exact List.Pairwise.nil
  · intro c hc; cases hc
  · rfl
  · exact Nat.zero_le _
  · intro k hk; exact absurd hk (Nat.not_lt_zero _)
  · exact Nat.zero_le _
  · intro hk; exact absurd hk (Nat.not_lt_zero _)
  · intro hk; simp at hk
  · intro hk; simp at hk
  · constructor
    · have : (resetState s).flag .errf = false := by simp
      rw [this]; simp [resetState, State.reset, errCause]
    · intro _; exact ⟨rfl, rfl⟩

/-- One edge of the walk keeps the invariants (R212, item 4 of R35). -/
theorem stateOk_walkStep {s t : State} {v : BitVec 64} (h : StateOk s) (hw : walkStep s = .moved v t) : StateOk t := by
  obtain ⟨ha, h1, h2, hc⟩ := walkStep_moved hw
  have hr := walkStep_rpos hw
  obtain ⟨w1, w2, w3⟩ := h.6 ha
  have base : ∀ cur, (nodeAt s cur).kind = .internal → StateOk { s with rpos := s.rpos + 1, cur := cur } := by
    intro cur hk
    refine ⟨h.1, h.2, h.3, h.4, ⟨?_, h.5.2⟩, fun _ => ⟨w1, w2, hk⟩, h.7, h.8⟩
    have e : t.rpos = s.rpos + 1 := by rw [(walkStep_frame hw).1]
    rw [e] at hr
    show (s.rpos+1).toNat ≤ s.rlim.toNat
    omega
  rcases hc with ⟨hk, -, rfl⟩ | ⟨hk, ho, -, u, hu, rfl⟩ | ⟨hk, -, rfl⟩
  · exact base _ hk
  · have := stateOk_appendBits (base s.cur w3) hu (by rw [byteBits_length]; exact overflows_eq_false.1 ho)
    have hroot : u.root = s.root := by rw [appendBits_frame hu]
    have hnode : u.node = s.node := by rw [appendBits_frame hu]
    refine ⟨this.1, this.2, this.3, this.4, this.5, fun hh => ?_, this.7, this.8⟩
    obtain ⟨b1, b2, b3⟩ := this.6 hh
    exact ⟨b1, b2, b2⟩
  · have := base s.root w2
    refine ⟨this.1, this.2, this.3, this.4, this.5, fun hh => ⟨?_, w2, w2⟩, fun hh => ?_, ⟨?_, ?_⟩⟩
    · simpa [State.flag] using w1
    · obtain ⟨a, b⟩ := h.7 (by simpa [State.flag] using hh)
      exact ⟨by simpa [State.flag] using a, b⟩
    · have := h.8.1; simpa [State.flag] using this
    · have := h.8.2; simpa [State.flag] using this

end Sys2Proof.Machine
end

