-- ==== Sys2Proof/Laws/PerInstr.lean ====
section
/-! SUPPORT. A statement for every instruction, as syntax: its word matches the row of 30_encoding.md rule R92
that carries its mnemonic. -/

namespace Sys2Proof.Laws.EncodeMatches

/-- The columns `match` and `mask` of the row of R92. -/
def row : Instr → Word × Word
  | .sysNop => (0x00000000, 0xFFFFFFFF)
  | .sysReset => (0x01000000, 0xFFFFFFFF)
  | .tbBuild => (0x10000000, 0xFFFFFFFF)
  | .tbClrf => (0x11000000, 0xFFFFFFFF)
  | .ctgGen => (0x20000000, 0xFFFFFFFF)
  | .bswInit => (0x30000000, 0xFFFFFFFF)
  | .bswPutbits _ _ => (0x31000000, 0xFF000000)
  | .bswPutsym _ => (0x32000000, 0xFF00FFFF)
  | .bswFlush => (0x33000000, 0xFFFFFFFF)
  | .bsrOpen => (0x40000000, 0xFFFFFFFF)
  | .bsrGetbits _ => (0x41000000, 0xFF00FFFF)
  | .bsrTrim _ => (0x42000000, 0xFF00FFFF)
  | .dtwStart => (0x50000000, 0xFFFFFFFF)
  | .dtwStep => (0x51000000, 0xFFFFFFFF)
  | .dtwRun => (0x52000000, 0xFFFFFFFF)

/-- The word of the instruction, masked, is the row's match. -/
def Statement (i : Instr) : Prop := encode i &&& (row i).2 = (row i).1

theorem sysNop : Statement .sysNop := by unfold Statement; decide
theorem sysReset : Statement .sysReset := by unfold Statement; decide
theorem tbBuild : Statement .tbBuild := by unfold Statement; decide
theorem tbClrf : Statement .tbClrf := by unfold Statement; decide
theorem ctgGen : Statement .ctgGen := by unfold Statement; decide
theorem bswInit : Statement .bswInit := by unfold Statement; decide
theorem bswPutbits (n : BitVec 8) (v : BitVec 16) : Statement (.bswPutbits n v) := by
  refine BitVec.eq_of_getLsbD_eq fun i hi => ?_
  rw [BitVec.getLsbD_and, encode, joinFields_getLsbD]
  simp only [Instr.fields, row]
  interval_cases i <;> simp
theorem bswPutsym (s : Sym) : Statement (.bswPutsym s) := by unfold Statement; revert s; decide
theorem bswFlush : Statement .bswFlush := by unfold Statement; decide
theorem bsrOpen : Statement .bsrOpen := by unfold Statement; decide
theorem bsrGetbits (n : BitVec 8) : Statement (.bsrGetbits n) := by unfold Statement; revert n; decide
theorem bsrTrim (p : BitVec 8) : Statement (.bsrTrim p) := by unfold Statement; revert p; decide
theorem dtwStart : Statement .dtwStart := by unfold Statement; decide
theorem dtwStep : Statement .dtwStep := by unfold Statement; decide
theorem dtwRun : Statement .dtwRun := by unfold Statement; decide

end Sys2Proof.Laws.EncodeMatches
end

