-- ==== Sys2Proof/Laws/Preorder.lean ====
section
/-! SUPPORT. Paths in preorder, and everything CTG_GEN's walk of a subtree can answer (42_code_table_gen.md rules
R151, R155): the first objection met, or the symbols and the placeholder of the subtree. -/

namespace Sys2Proof.Machine

/-! ### Paths -/

theorem not_pathBefore_nil (q : List Bool) : ¬ PathBefore q [] := by cases q <;> exact id

theorem pathBefore_snoc_false (q p : List Bool) : PathBefore q (p ++ [false]) ↔ PathBefore q p ∨ q = p := by
  induction p generalizing q with
  | nil => cases q <;> simp [PathBefore, not_pathBefore_nil]
  | cons b bs ih =>
    cases q with
    | nil => simp [PathBefore]
    | cons a as => simp only [List.cons_append, PathBefore, ih, List.cons.injEq]; tauto

theorem pathBefore_snoc_true (q p : List Bool) :
    PathBefore q (p ++ [true]) ↔ PathBefore q p ∨ q = p ∨ p ++ [false] <+: q := by
  induction p generalizing q with
  | nil => cases q <;> simp [PathBefore, not_pathBefore_nil, eq_comm]
  | cons b bs ih =>
    cases q with
    | nil => simp [PathBefore]
    | cons a as =>
      simp only [List.cons_append, PathBefore, ih, List.cons.injEq, List.cons_prefix_cons]
      constructor
      · rintro (h | ⟨rfl, h | h | h⟩) <;> simp_all
      · rintro ((h | h) | h | h) <;> simp_all

/-- Below a path: the path itself, or the left or the right subtree. -/
theorem prefix_iff_snoc (p q : List Bool) : p <+: q ↔ q = p ∨ p ++ [false] <+: q ∨ p ++ [true] <+: q := by
  constructor
  · rintro ⟨r, rfl⟩
    rcases r with _ | ⟨b, r⟩
    · simp
    · cases b <;> simp
  · rintro (rfl | ⟨r, rfl⟩ | ⟨r, rfl⟩) <;> simp

/-- Nothing in a right subtree comes before anything in the left. -/
theorem not_pathBefore_of_right_left {p q q' : List Bool} (hq : p ++ [false] <+: q) (hq' : p ++ [true] <+: q') :
    ¬ PathBefore q' q := by
  obtain ⟨r, rfl⟩ := hq
  obtain ⟨r', rfl⟩ := hq'
  induction p with
  | nil => simp [PathBefore]
  | cons a p ih => simpa [PathBefore] using ih

theorem pathBefore_total (p q : List Bool) : p = q ∨ PathBefore p q ∨ PathBefore q p := by
  induction p generalizing q with
  | nil => cases q <;> simp [PathBefore]
  | cons a p ih =>
    cases q with
    | nil => simp [PathBefore]
    | cons b q =>
      have := ih q
      cases a <;> cases b <;> simp_all [PathBefore]

theorem follow_snoc (m : Vector Node 512) (i : NodeIdx) (p : List Bool) (b : Bool) :
    follow m i (p ++ [b]) = if b then (nodeOf m (follow m i p)).right else (nodeOf m (follow m i p)).left := by
  induction p generalizing i with
  | nil => rfl
  | cons a p ih => exact ih _

/-! ### Paths on the walk -/

section
variable {m : Vector Node 512} {root : NodeIdx}

theorem onWalk_nil : OnWalk m root [] := ⟨by simp, by simp⟩

theorem OnWalk.snoc {p : List Bool} (h : OnWalk m root p) (hk : (nodeOf m (follow m root p)).kind = .internal)
    (hl : p.length < 255) (b : Bool) : OnWalk m root (p ++ [b]) := by
  refine ⟨by simp; omega, fun n hn => ?_⟩
  rcases Nat.lt_or_ge n p.length with h' | h'
  · rw [List.take_append_of_le_length (by omega)]; exact h.2 n h'
  · have : n = p.length := by simp at hn; omega
    subst this
    simpa using hk

/-- The walk goes no further below a node that is not INTERNAL or stands at depth 255. -/
theorem OnWalk.eq_of_prefix {p q : List Bool} (h : OnWalk m root q) (hp : p <+: q)
    (hk : (nodeOf m (follow m root p)).kind ≠ .internal ∨ p.length = 255) : q = p := by
  obtain ⟨r, rfl⟩ := hp
  rcases r with _ | ⟨b, r⟩
  · simp
  · have h1 := h.1
    have h2 := h.2 p.length (by simp)
    simp only [List.take_left] at h2
    rcases hk with hk | hk
    · exact absurd h2 hk
    · simp [hk] at h1

/-- A node has at most one thing wrong with it. -/
theorem Objection.unique {p : List Bool} {c d : Cause} (hc : Objection m root p c) (hd : Objection m root p d) : c = d := by
  unfold Objection at hc hd
  split at hc <;> simp_all

/-! ### The walk -/

/-- Gen's variables say which symbols and whether a placeholder were met on the paths of a set. -/
def Met (m : Vector Node 512) (root : NodeIdx) (S : List Bool → Prop) (acc : GenAcc) : Prop :=
  (acc.phMet = true ↔ ∃ q, OnWalk m root q ∧ S q ∧ (nodeOf m (follow m root q)).kind = .placeholder)
  ∧ ∀ k, (codeOf acc.table k).len ≠ 0 ↔
      ∃ q, OnWalk m root q ∧ S q ∧ (nodeOf m (follow m root q)).kind = .leaf ∧ (nodeOf m (follow m root q)).sym = k

theorem Met.congr {S S' : List Bool → Prop} {acc : GenAcc} (h : Met m root S acc)
    (hs : ∀ q, OnWalk m root q → (nodeOf m (follow m root q)).kind ≠ .internal → (S q ↔ S' q)) :
    Met m root S' acc := by
  constructor
  · rw [h.1]
    refine exists_congr fun q => and_congr_right fun hq => ?_
    constructor <;> rintro ⟨a, b⟩
    · exact ⟨(hs q hq (by simp [b])).1 a, b⟩
    · exact ⟨(hs q hq (by simp [b])).2 a, b⟩
  · intro k
    rw [h.2]
    refine exists_congr fun q => and_congr_right fun hq => ?_
    constructor <;> rintro ⟨a, b, c⟩
    · exact ⟨(hs q hq (by simp [b])).1 a, b, c⟩
    · exact ⟨(hs q hq (by simp [b])).2 a, b, c⟩

theorem met_genStart {S : List Bool → Prop} (hS : ∀ q, ¬ S q) : Met m root S genStart := by
  constructor
  · simp [genStart, hS]
  · intro k
    have : (codeOf genStart.table k).len = 0 := by simp [genStart, noCodes, codeOf, CodeEntry.zero]
    simp [this, hS]

theorem codeOf_putCode (t : Vector CodeEntry 256) (j k : Sym) (c : CodeEntry) :
    codeOf (putCode t j c) k = if j = k then c else codeOf t k := by
  simp only [codeOf, putCode, Vector.getElem_set]
  by_cases h : j = k
  · simp [h]
  · rw [if_neg, if_neg h]
    intro h'; exact h (BitVec.eq_of_toNat_eq h')

/-- A walk of the subtree at a path answers the first objection in it, or has met exactly its leaves. -/
def WalkAnswer (m : Vector Node 512) (root : NodeIdx) (p : List Bool) : Except Cause GenAcc → Prop
  | .ok acc => Met m root (fun q => PathBefore q p ∨ p <+: q) acc
      ∧ ∀ q d, OnWalk m root q → p <+: q → ¬ Objection m root q d
  | .error c => ∃ q, OnWalk m root q ∧ p <+: q ∧ Objection m root q c
      ∧ ∀ q' d, OnWalk m root q' → p <+: q' → PathBefore q' q → ¬ Objection m root q' d

theorem pathBefore_irrefl (p : List Bool) : ¬ PathBefore p p := by
  induction p with
  | nil => exact id
  | cons a p ih => simp [PathBefore, ih]

/-- The walk at a node it does not go below. -/
theorem genVisit_answer {p : List Bool} {v : Nat} {acc : GenAcc} (hw : OnWalk m root p) (h0 : 0 < p.length)
    (hk : (nodeOf m (follow m root p)).kind ≠ .internal ∨ p.length = 255)
    (hm : Met m root (fun q => PathBefore q p) acc) :
    WalkAnswer m root p (genVisit (nodeOf m (follow m root p)) p.length v acc) := by
  have only : ∀ q, OnWalk m root q → p <+: q → q = p := fun q hq hp => hq.eq_of_prefix hp hk
  have here : ∀ c, Objection m root p c → WalkAnswer m root p (.error c) := by
    intro c hc
    refine ⟨p, hw, List.prefix_rfl, hc, fun q' d hq' hp' hb => ?_⟩
    rw [only q' hq' hp'] at hb
    exact absurd hb (pathBefore_irrefl p)
  have none : (∀ d, ¬ Objection m root p d) → ∀ q d, OnWalk m root q → p <+: q → ¬ Objection m root q d := by
    intro h q d hq hp
    rw [only q hq hp]; exact h d
  have hd : (BitVec.ofNat 8 p.length).toNat = p.length := by
    rw [BitVec.toNat_ofNat, Nat.mod_eq_of_lt]; have := hw.1; omega
  unfold genVisit
  split
  · rename_i e; exact here _ (by simp [Objection, e])
  · rename_i e
    have hl : p.length = 255 := by rcases hk with hk | hk; exacts [absurd e hk, hk]
    exact here _ (by simp [Objection, e, hl])
  · rename_i e
    split
    · rename_i h
      obtain ⟨q, a, b, c, d⟩ := (hm.2 _).1 h
      exact here _ (by simp only [Objection, e]; exact ⟨trivial, q, a, b, c, d⟩)
    · rename_i h
      have hno := fun hh => h ((hm.2 _).2 hh)
      refine ⟨⟨?_, fun k => ?_⟩, none ?_⟩
      · refine hm.1.trans (exists_congr fun q => and_congr_right fun hq => ?_)
        constructor
        · rintro ⟨a, b⟩; exact ⟨.inl a, b⟩
        · rintro ⟨a | a, b⟩
          · exact ⟨a, b⟩
          · rw [only q hq a, e] at b; cases b
      · change (codeOf (putCode acc.table _ _) k).len ≠ 0 ↔ _
        rw [codeOf_putCode]
        by_cases hs : (nodeOf m (follow m root p)).sym = k
        · rw [if_pos hs]
          refine ⟨fun _ => ⟨p, hw, .inr List.prefix_rfl, e, hs⟩, fun _ hz => ?_⟩
          have : (BitVec.ofNat 8 p.length).toNat = 0 := by simpa using congrArg BitVec.toNat hz
          omega
        · rw [if_neg hs, hm.2 k]
          refine exists_congr fun q => and_congr_right fun hq => ?_
          constructor
          · rintro ⟨a, b⟩; exact ⟨.inl a, b⟩
          · rintro ⟨a | a, b, c⟩
            · exact ⟨a, b, c⟩
            · rw [only q hq a] at c; exact absurd c hs
      · intro d hd
        simp only [Objection, e] at hd
        exact hno hd.2
  · rename_i e
    split
    · rename_i h
      obtain ⟨q, a, b, c⟩ := hm.1.1 h
      exact here _ (by simp only [Objection, e]; exact ⟨trivial, q, a, b, c⟩)
    · rename_i h
      have hno := fun hh => h (hm.1.2 hh)
      refine ⟨⟨?_, fun k => ?_⟩, none ?_⟩
      · exact ⟨fun _ => ⟨p, hw, .inr List.prefix_rfl, e⟩, fun _ => rfl⟩
      · refine (hm.2 k).trans (exists_congr fun q => and_congr_right fun hq => ?_)
        constructor
        · rintro ⟨a, b⟩; exact ⟨.inl a, b⟩
        · rintro ⟨a | a, b⟩
          · exact ⟨a, b⟩
          · rw [only q hq a, e] at b; cases b.1
      · intro d hd
        simp only [Objection, e] at hd
        exact hno hd.2

/-- The walk of any subtree (R151). -/
theorem gen_answer (rem : Nat) {p : List Bool} {v : Nat} {acc : GenAcc} (hw : OnWalk m root p)
    (hr : p.length + rem = 255) (h0 : p = [] → (nodeOf m root).kind = .internal)
    (hm : Met m root (fun q => PathBefore q p) acc) :
    WalkAnswer m root p (gen m rem (follow m root p) v acc) := by
  have pos : (nodeOf m (follow m root p)).kind ≠ .internal → 0 < p.length := by
    intro h
    rcases p with _ | ⟨b, p⟩
    · exact absurd (h0 rfl) h
    · simp
  induction rem generalizing p v acc with
  | zero =>
    have hl : p.length = 255 := by omega
    have := genVisit_answer (v := v) hw (by omega) (.inr hl) hm
    rw [hl] at this
    exact this
  | succ rem ih =>
    have leafCase : (nodeOf m (follow m root p)).kind ≠ .internal →
        WalkAnswer m root p (genVisit (nodeOf m (follow m root p)) (maxLen - (rem + 1)) v acc) := by
      intro h
      have e : maxLen - (rem + 1) = p.length := by unfold maxLen; omega
      rw [e]
      exact genVisit_answer hw (pos h) (.inl h) hm
    unfold gen
    split
    · rename_i e
      have hl : p.length < 255 := by omega
      have hself : ∀ d, ¬ Objection m root p d := by
        intro d hd; simp only [Objection, e] at hd; omega
      have eL : follow m root (p ++ [false]) = (nodeOf m (follow m root p)).left := by rw [follow_snoc]; rfl
      have eR : follow m root (p ++ [true]) = (nodeOf m (follow m root p)).right := by rw [follow_snoc]; rfl
      have hL := ih (p := p ++ [false]) (v := 2 * v) (acc := acc) (hw.snoc e hl _) (by simp; omega) (by simp)
        (hm.congr fun q _ hq => by
          rw [pathBefore_snoc_false]
          refine ⟨.inl, ?_⟩
          rintro (h | rfl)
          · exact h
          · exact absurd e hq) (by simp)
      rw [eL] at hL
      split
      · rename_i acc' hg
        rw [hg] at hL
        have hR := ih (p := p ++ [true]) (v := 2 * v + 1) (acc := acc') (hw.snoc e hl _) (by simp; omega) (by simp)
          (hL.1.congr fun q _ _ => by
            rw [pathBefore_snoc_true, pathBefore_snoc_false, or_assoc]) (by simp)
        rw [eR] at hR
        cases hg' : gen m rem (nodeOf m (follow m root p)).right (2 * v + 1) acc' with
        | ok acc'' =>
          rw [hg'] at hR
          refine ⟨hR.1.congr fun q _ _ => ?_, fun q d hq hp => ?_⟩
          · rw [pathBefore_snoc_true, prefix_iff_snoc p q]; tauto
          · rcases (prefix_iff_snoc p q).1 hp with rfl | h | h
            · exact hself d
            · exact hL.2 q d hq h
            · exact hR.2 q d hq h
        | error c =>
          rw [hg'] at hR
          obtain ⟨q, a, b, c, hf⟩ := hR
          refine ⟨q, a, (List.prefix_append _ _).trans b, c, fun q' d hq' hp' hb => ?_⟩
          rcases (prefix_iff_snoc p q').1 hp' with rfl | h | h
          · exact hself d
          · exact hL.2 q' d hq' h
          · exact hf q' d hq' h hb
      · rename_i c hg
        rw [hg] at hL
        obtain ⟨q, a, b, c, hf⟩ := hL
        refine ⟨q, a, (List.prefix_append _ _).trans b, c, fun q' d hq' hp' hb => ?_⟩
        rcases (prefix_iff_snoc p q').1 hp' with rfl | h | h
        · exact hself d
        · exact hf q' d hq' h hb
        · exact absurd hb (not_pathBefore_of_right_left b h)
    · rename_i e; exact leafCase (by simp [e])
    · rename_i e; exact leafCase (by simp [e])
    · rename_i e; exact leafCase (by simp [e])


/-- CTG_GEN's walk of a tree whose root is INTERNAL. -/
theorem genTable_answer (hk : (nodeOf m root).kind = .internal) : WalkAnswer m root [] (genTable m root) := by
  have e : genTable m root = gen m 255 (follow m root []) 0 genStart := if_pos hk
  rw [e]
  exact gen_answer 255 onWalk_nil rfl (fun _ => hk) (met_genStart fun q => not_pathBefore_nil q)

end

end Sys2Proof.Machine
end

