-- ==== Sys2Proof/Laws/Sequences.lean ====
section
/-! SUPPORT. One step of a host sequence (46_archive_sequences.md rule R230), in terms of the machine. -/

namespace Sys2Proof.Machine

variable {i : Instr} {s t : State}

theorem step_issueFirst (op : HostOp) (s : State) : step (issueFirst op s) = runOp op s := rfl

/-- A command of a sequence that ends OK gives its value. -/
theorem seqCmd_ok {v : BitVec 64} (hd : decode (encode i) = some i)
    (h : exec i { s with ops := s.ops + 1 } = .next t) (hr : t.reply = okReply v) : seqCmd i s = (.ok v, t) := by
  have hi : issue (.cmd (encode i)) s = (.ok (.response ⟨.ok, 0, v⟩), t) := by
    simp only [issue, step_issueFirst, runOp, runWord_decoded _ hd, h, hr]
  unfold seqCmd
  simp only [bind, ExceptT.bind, ExceptT.mk, StateT.bind, hi, ExceptT.bindCont]
  rfl

/-- A command of a sequence that ends in FAULT ends the sequence. -/
theorem seqCmd_fault {c : Cause} (hd : decode (encode i) = some i)
    (h : exec i { s with ops := s.ops + 1 } = .next t) (hr : t.reply = faultReply c) :
    seqCmd i s = (.error (.fault (causeCode c)), t) := by
  have hi : issue (.cmd (encode i)) s = (.ok (.response ⟨.fault, causeCode c, 0⟩), t) := by
    simp only [issue, step_issueFirst, runOp, runWord_decoded _ hd, h, hr]
  unfold seqCmd
  simp only [bind, ExceptT.bind, ExceptT.mk, StateT.bind, hi, ExceptT.bindCont]
  rfl

theorem seqRead_eq (space idx : Nat) (s : State) :
    seqRead space idx s = (.ok (hostRead space idx s), { s with reply := some (.data (hostRead space idx s)) }) := rfl

theorem seqWrite_eq (space idx v : Nat) (s : State) :
    seqWrite space idx v s =
      (.ok (), { hostWrite space idx v { s with ops := s.ops + 1 } with reply := some .written }) := rfl

/-- A sequence goes on with what its first part gives. -/
theorem seq_bind_ok {α β : Type} {m : Seq α} {f : α → Seq β} {a : α} (h : m s = (.ok a, t)) : (m >>= f) s = f a t := by
  simp only [bind, ExceptT.bind, ExceptT.mk, StateT.bind, h, ExceptT.bindCont]

/-- A sequence ends with the failure of its first part. -/
theorem seq_bind_error {α β : Type} {m : Seq α} {f : α → Seq β} {e : Failure} (h : m s = (.error e, t)) :
    (m >>= f) s = (.error e, t) := by
  simp only [bind, ExceptT.bind, ExceptT.mk, StateT.bind, h, ExceptT.bindCont]
  rfl

end Sys2Proof.Machine
end

