-- ==== Sys2Proof/Tests/Slice0.lean ====
section
/-! SUPPORT. Tests of the model, each with its source in 95_test_vectors.md or a worked example of a rule, and
a witness for the hypotheses of every statement that has some. -/

namespace Sys2Proof.Machine.Tests

/-! ### Well-formedness: an ill-formed term for each check (R92), refused -/

theorem test_wf_putbits_count : Instr.wf (.bswPutbits 17 0) = false := by decide
theorem test_wf_putbits_value : Instr.wf (.bswPutbits 3 8) = false := by decide
theorem test_wf_putbits_none : Instr.wf (.bswPutbits 0 1) = false := by decide
theorem test_wf_getbits : Instr.wf (.bsrGetbits 17) = false := by decide
theorem test_wf_trim : Instr.wf (.bsrTrim 8) = false := by decide
theorem test_wf_accepts : Instr.wf (.bswPutbits 16 0xFFFF) && Instr.wf (.bswPutbits 0 0) && Instr.wf (.bsrGetbits 16)
    && Instr.wf (.bsrTrim 7) && Instr.wf (.bswPutsym 0xFF) && Instr.wf .dtwRun = true := by decide

/-! ### Decoding: a word for every constructor (V1), and each kind of illegal word (V2) -/

theorem test_decode_sysNop : decode 0x00000000 = some .sysNop := by decide
theorem test_decode_sysReset : decode 0x01000000 = some .sysReset := by decide
theorem test_decode_tbBuild : decode 0x10000000 = some .tbBuild := by decide
theorem test_decode_tbClrf : decode 0x11000000 = some .tbClrf := by decide
theorem test_decode_ctgGen : decode 0x20000000 = some .ctgGen := by decide
theorem test_decode_bswInit : decode 0x30000000 = some .bswInit := by decide
theorem test_decode_bswPutbits : decode 0x310A0241 = some (.bswPutbits 10 0x241) := by decide
theorem test_decode_bswPutbits_zero : decode 0x31000000 = some (.bswPutbits 0 0) := by decide
theorem test_decode_bswPutbits_most : decode 0x3110FFFF = some (.bswPutbits 16 0xFFFF) := by decide
theorem test_decode_bswPutsym : decode 0x32FF0000 = some (.bswPutsym 0xFF) := by decide
theorem test_decode_bswFlush : decode 0x33000000 = some .bswFlush := by decide
theorem test_decode_bsrOpen : decode 0x40000000 = some .bsrOpen := by decide
theorem test_decode_bsrGetbits : decode 0x41100000 = some (.bsrGetbits 16) := by decide
theorem test_decode_bsrTrim : decode 0x42070000 = some (.bsrTrim 7) := by decide
theorem test_decode_dtwStart : decode 0x50000000 = some .dtwStart := by decide
theorem test_decode_dtwStep : decode 0x51000000 = some .dtwStep := by decide
theorem test_decode_dtwRun : decode 0x52000000 = some .dtwRun := by decide

/-- V2, items (a) and (b). -/
theorem test_illegal_unit_op : (decode 0x60000000 = none ∧ decode 0xF0000000 = none ∧ decode 0xFFFFFFFF = none)
    ∧ decode 0x02000000 = none ∧ decode 0x12000000 = none ∧ decode 0x21000000 = none ∧ decode 0x34000000 = none
    ∧ decode 0x43000000 = none ∧ decode 0x53000000 = none := by decide

/-- V2, item (c). -/
theorem test_illegal_unused : decode 0x00000001 = none ∧ decode 0x00010000 = none ∧ decode 0x10000001 = none
    ∧ decode 0x33010000 = none ∧ decode 0x52000100 = none ∧ decode 0x32000001 = none
    ∧ decode 0x41000001 = none := by decide

/-- V2, items (d), (e) and (f). -/
theorem test_illegal_operand : decode 0x31110000 = none ∧ decode 0x31030008 = none ∧ decode 0x31000001 = none
    ∧ decode 0x41110000 = none ∧ decode 0x42080000 = none := by decide

theorem test_decodeTableWord : decodeTableWord 32 0x32410000 = some (.bswPutsym 0x41) := by decide

/-! ### States -/

/-- The reset state of a block of 64 bytes of input and of output. -/
def base : State := { State.reset with ocap := 64, icap := 64 }

/-- The state an outcome is, or nothing. -/
def nextOf : Result → Option State
  | .next t => some t
  | .fault _ => none
  | .refused _ => none

/-- What a command answered. -/
def answer (r : Result) : Option Reply := (nextOf r).bind (·.reply)

/-- What holds of the next state. -/
def after (r : Result) (p : State → Bool) : Bool := (nextOf r).any p

/-- A response (ST, CAUSE, VALUE), as the vectors write it. -/
def resp (st : RespStatus) (cause : BitVec 8) (value : BitVec 64) : Option Reply :=
  some (.response ⟨st, cause, value⟩)

/-- Counts of "AB" (V6). -/
def countsAB : State := { base with freq := (noCounts.set 65 1).set 66 1 }

/-- NODE of the tree of "AB" (V6). -/
def nodesAB : Vector Node 512 :=
  putNode (putNode (putNode noNodes 65 ⟨.leaf, 65, 0, 0, 1⟩) 66 ⟨.leaf, 66, 0, 0, 1⟩) 257 ⟨.internal, 0, 65, 66, 2⟩

/-- The tree of "AB" handed over (V6). -/
def treeAB : State := { base with node := nodesAB, root := 257, status := 0x01 }

/-- CODE of the tree of "AB" (V18). -/
def tableAB : Vector CodeEntry 256 := putCode (putCode noCodes 65 ⟨1, 0⟩) 66 ⟨1, 1⟩

/-- Tree and code table of "AB" (V18). -/
def codedAB : State := { treeAB with code := tableAB, totbits := 2, status := 0x03 }

/-- The walker armed at the root of "AB" with two payload bits 0, 1 (V54). -/
def walkAB : State := { treeAB with status := 0x05, cur := 257, ibuf := [(0, 0x40)], ilen := 1, rlim := 2 }

/-- The same with the code table valid. -/
def walkCodedAB : State := { walkAB with code := tableAB, totbits := 2, status := 0x07 }

/-- A block locked by E_STALE_CODE of BSW_PUTSYM 0x41 (V4 step 2). -/
def locked : State := { base with status := 0x10, err := 0x308, errcmd := 0x32410000 }

/-- The reader open on the two bytes B9 80 (V46). -/
def reading : State := { base with ibuf := [(0, 0xB9), (1, 0x80)], ilen := 2, rlim := 16 }

/-- A tree with an internal node below the root: 0 over 1 = LEAF 0x41 and 2; 2 over 3 = LEAF 0x42 and 4, FREE. -/
def deepNodes : Vector Node 512 :=
  putNode (putNode (putNode (putNode noNodes 0 ⟨.internal, 0, 1, 2, 0⟩) 1 ⟨.leaf, 0x41, 0, 0, 0⟩)
    2 ⟨.internal, 0, 3, 4, 0⟩) 3 ⟨.leaf, 0x42, 0, 0, 0⟩

/-- The walker armed at the root of that tree, payload bits 1, 1. -/
def walkDeep : State :=
  { base with node := deepNodes, status := 0x05, ibuf := [(0, 0xC0)], ilen := 1, rlim := 2 }

/-- The single-symbol tree of "A" (V7), the walker armed, one payload bit 0 (V61). -/
def walkA : State :=
  { base with
    node := putNode (putNode (putNode noNodes 65 ⟨.leaf, 65, 0, 0, 1⟩) 256 ⟨.placeholder, 0, 0, 0, 0⟩)
      257 ⟨.internal, 0, 256, 65, 1⟩
    root := 257, cur := 257, status := 0x05, ibuf := [(0, 0x00)], ilen := 1, rlim := 1 }

/-! ### One step of each command -/

/-- V3. -/
theorem test_sysNop : exec .sysNop base = .next { base with reply := resp .ok 0 0 } := rfl
/-- V4 step 3. -/
theorem test_sysNop_locked : answer (exec .sysNop locked) = resp .locked 0x08 0 := by decide
/-- V4 step 7. -/
theorem test_sysReset : after (exec .sysReset { locked with root := 257, node := nodesAB }) (fun t =>
    t.status = 0 && t.err = 0 && t.errcmd = 0 && t.root = 0 && nodeAt t 257 = Node.zero
      && t.reply = resp .ok 0 0) = true := by decide

set_option maxRecDepth 100000 in
/-- V6. -/
theorem test_tbBuild : after (exec .tbBuild countsAB) (fun t =>
    t.root = 257 && t.status = 0x01 && nodeAt t 257 = ⟨.internal, 0, 65, 66, 2⟩ && nodeAt t 65 = ⟨.leaf, 65, 0, 0, 1⟩
      && nodeAt t 256 = Node.zero && t.reply = resp .ok 0 257) = true := by decide +kernel
set_option maxRecDepth 100000 in
/-- V11: ties among leaves, between a leaf and an internal node, and between internal nodes. -/
theorem test_tbBuild_ties :
    after (exec .tbBuild { base with freq := ((((noCounts.set 0 1).set 1 1).set 2 1).set 3 1).set 4 2 }) (fun t =>
      nodeAt t 257 = ⟨.internal, 0, 0, 1, 2⟩ && nodeAt t 258 = ⟨.internal, 0, 2, 3, 2⟩
        && nodeAt t 259 = ⟨.internal, 0, 4, 257, 4⟩ && nodeAt t 260 = ⟨.internal, 0, 258, 259, 6⟩
        && t.reply = resp .ok 0 260) = true := by decide +kernel
/-- R136's example. -/
theorem test_tbClrf : after (exec .tbClrf countsAB) (fun t =>
    freqAt t 0x41 = 0 && freqAt t 0x42 = 0 && t.reply = resp .ok 0 0) = true := by decide

set_option maxRecDepth 100000 in
/-- V18. -/
theorem test_ctgGen : after (exec .ctgGen treeAB) (fun t =>
    codeOf t.code 0x41 = ⟨1, 0⟩ && codeOf t.code 0x42 = ⟨1, 1⟩ && t.totbits = 2 && t.status = 0x03
      && t.reply = resp .ok 0 2) = true := by decide +kernel
set_option maxRecDepth 100000 in
/-- V25, a node that is its own child: found at depth 255; the old table is gone (R288). -/
theorem test_ctgGen_cycle : after (exec .ctgGen { codedAB with node := putNode noNodes 257 ⟨.internal, 0, 257, 257, 0⟩ })
    (fun t => t.status = 0x11 && t.err = 0x205 && codeOf t.code 0x42 = ⟨0, 0⟩ && t.totbits = 0
      && t.reply = resp .fault 0x05 0) = true := by decide +kernel

/-- V45. -/
theorem test_bswInit : exec .bswInit { base with wlen := 3, wcnt := 5, wacc := 0xA8, lastpad := 2 } =
    .next { base with reply := resp .ok 0 0 } := rfl
/-- V41: sixteen bits from WCNT 7 complete two bytes. -/
theorem test_bswPutbits : after (exec (.bswPutbits 16 0xFFFF) { base with wcnt := 7, wacc := 0xAA }) (fun t =>
    obufByte t 0 = 0xAB && obufByte t 1 = 0xFF && t.wlen = 2 && t.wcnt = 7 && t.wacc = 0xFE
      && t.reply = resp .ok 0 23) = true := by decide
/-- V43: capacity is checked before the first bit. -/
theorem test_bswPutbits_overflow : after (exec (.bswPutbits 16 0xFFFF) { base with ocap := 2, wcnt := 7, wacc := 0xAA })
    (fun t => t.wlen = 0 && t.wcnt = 7 && t.wacc = 0xAA && t.obuf = [] && t.err = 0x30A && t.errcmd = 0x3110FFFF
      && t.reply = resp .fault 0x0A 0) = true := by decide
/-- R173's example: "110" from the empty writer. -/
theorem test_bswPutsym : after (exec (.bswPutsym 0x42) { codedAB with code := putCode noCodes 0x42 ⟨3, 6⟩ }) (fun t =>
    t.wacc = 0xC0 && t.wcnt = 3 && t.wlen = 0 && t.reply = resp .ok 0 3) = true := by decide
/-- V44: no code. -/
theorem test_bswPutsym_noCode : after (exec (.bswPutsym 0x43) codedAB) (fun t =>
    t.err = 0x309 && t.errcmd = 0x32430000 && t.reply = resp .fault 0x09 0) = true := by decide
/-- R174's example. -/
theorem test_bswFlush : after (exec .bswFlush { base with wacc := 0xC0, wcnt := 4, wlen := 2 }) (fun t =>
    obufByte t 2 = 0xC0 && t.wlen = 3 && t.wcnt = 0 && t.wacc = 0 && t.lastpad = 4
      && t.reply = resp .ok 0 4) = true := by decide
/-- V41: a second flush pads nothing. -/
theorem test_bswFlush_again : after (exec .bswFlush { base with wlen := 3, lastpad := 1 }) (fun t =>
    t.wlen = 3 && t.lastpad = 0 && t.reply = resp .ok 0 0) = true := by decide

/-- R191's example. -/
theorem test_bsrOpen : after (exec .bsrOpen { base with ilen := 4, rpos := 9, rlim := 20 }) (fun t =>
    t.rpos = 0 && t.rlim = 32 && t.reply = resp .ok 0 32) = true := by decide
/-- V49, ICAP = 8. -/
theorem test_bsrOpen_badLen : after (exec .bsrOpen { base with icap := 8, ilen := 9 }) (fun t =>
    t.rpos = 0 && t.rlim = 0 && t.err = 0x40B && t.reply = resp .fault 0x0B 0) = true := by decide
/-- V47: sixteen bits over three bytes. -/
theorem test_bsrGetbits : after (exec (.bsrGetbits 16)
    { base with ibuf := [(0, 0x81), (1, 0x23), (2, 0x45), (3, 0x67)], ilen := 4, rpos := 1, rlim := 32 }) (fun t =>
      t.rpos = 17 && t.reply = resp .ok 0 0x0246) = true := by decide
/-- V46: six bits remain. -/
theorem test_bsrGetbits_underrun : after (exec (.bsrGetbits 7) { reading with rpos := 10 }) (fun t =>
    t.rpos = 10 && t.err = 0x40C && t.errcmd = 0x41070000 && t.reply = resp .fault 0x0C 0) = true := by decide
/-- V52: the second trim reaches into the previous byte. -/
theorem test_bsrTrim : after (exec (.bsrTrim 2) { base with ibuf := [(0, 0xFE), (1, 0x00)], ilen := 2, rlim := 9 })
    (fun t => t.rlim = 7 && t.rpos = 0 && t.reply = resp .ok 0 7) = true := by decide
/-- V50: bit 12 is 1. -/
theorem test_bsrTrim_nonzero : after (exec (.bsrTrim 4)
    { base with ibuf := [(0, 0xFF), (1, 0xF8)], ilen := 2, rpos := 12, rlim := 16 }) (fun t =>
      t.rlim = 16 && t.err = 0x40E && t.reply = resp .fault 0x0E 0) = true := by decide

/-- R211's example. -/
theorem test_dtwStart : after (exec .dtwStart { treeAB with status := 0x09, symcnt := 5 }) (fun t =>
    t.cur = 257 && t.symcnt = 0 && t.status = 0x05 && t.reply = resp .ok 0 257) = true := by decide
/-- V53: a root that is a leaf. -/
theorem test_dtwStart_badTree : after (exec .dtwStart { treeAB with root := 65 }) (fun t =>
    t.err = 0x505 && t.status = 0x11 && t.reply = resp .fault 0x05 0) = true := by decide
/-- V54, the first DTW_STEP. -/
theorem test_dtwStep : after (exec .dtwStep walkAB) (fun t =>
    obufByte t 0 = 0x41 && t.wlen = 1 && t.symcnt = 1 && t.rpos = 1 && t.cur = 257
      && t.reply = resp .ok 0 0x141) = true := by decide
/-- V59: a symbol that straddles two bytes. -/
theorem test_dtwStep_unaligned : after (exec .dtwStep { walkAB with wacc := 0xA0, wcnt := 3 }) (fun t =>
    obufByte t 0 = 0xA8 && t.wlen = 1 && t.wcnt = 3 && t.wacc = 0x20 && t.reply = resp .ok 0 0x141) = true := by decide
/-- V56: two symbols, then a FREE child; the completed steps stay. -/
theorem test_dtwRun : after (exec .dtwRun
    { walkDeep with
      node := putNode (putNode noNodes 0 ⟨.internal, 0, 1, 2, 0⟩) 1 ⟨.leaf, 0x58, 0, 0, 0⟩
      ibuf := [(0, 0x20)], rlim := 4 }) (fun t =>
      obufByte t 0 = 0x58 && obufByte t 1 = 0x58 && t.rpos = 2 && t.wlen = 2 && t.symcnt = 2 && t.cur = 0
        && t.err = 0x506 && t.reply = resp .fault 0x06 0) = true := by decide
/-- V55, the end: the bits run out inside a symbol (here after one edge to an internal node). -/
theorem test_dtwRun_truncated : after (exec .dtwRun { walkDeep with rlim := 1 }) (fun t =>
    t.rpos = 1 && t.cur = 2 && t.err = 0x510 && t.errcmd = 0x52000000 && t.status = 0x15
      && t.reply = resp .fault 0x10 0) = true := by decide

/-- An illegal word, V2's last line. -/
theorem test_illegal_word : after (runWord 0xFFFFFFFF base) (fun t =>
    t.err = 0xF01 && t.errcmd = 0xFFFFFFFF && t.status = 0x10 && t.reply = resp .fault 0x01 0) = true := by decide

/-- V4: the packed responses of steps 1 to 3. -/
theorem test_packResponse : packResponse ⟨.ok, 0, 257⟩ = 0x101 ∧ packResponse ⟨.fault, 0x08, 0⟩ = 0x1080000000000000000
    ∧ packResponse ⟨.locked, 0x08, 0⟩ = 0x2080000000000000000 := by decide
/-- V6, V7: packed NODE entries, as the host reads them. -/
theorem test_hostRead_node : hostRead 2 257 treeAB = 0x400824200000000000002
    ∧ hostRead 2 65 treeAB = 0x904000000000000000001 ∧ hostRead 2 256 walkA = 0xC00000000000000000000 := by decide
/-- V18, V19: packed CODE entries. -/
theorem test_packCode : packCode ⟨1, 1⟩ = 0x101 ∧ packCode ⟨3, 6⟩ = 0x603 := by decide +kernel
/-- V22: a host write of ROOT in the reset state. -/
theorem test_hostWrite_root : (hostWrite 0 3 0 base).status = 0x01 := by decide
/-- V60: a host write of NODE disarms. -/
theorem test_hostWrite_node : (hostWrite 2 300 0 walkAB).status = 0x00 := by decide

/-- The first word runs as the very next step. -/
theorem test_withFetchWord : after (step (base.withFetchWord 32 0x310800AB)) (fun t =>
    obufByte t 0 = 0xAB && t.wlen = 1 && t.reply = resp .ok 0 8) = true := by decide

/-! ### Witnesses: states and operands that meet the hypotheses of the statements, clause by clause -/

theorem next_of_after {r : Result} {p : State → Bool} (h : after r p = true) : ∃ t, r = .next t ∧ p t = true := by
  cases r <;> simp_all [after, nextOf]

theorem exec_next {r : Result} {c : Option Reply} (h : answer r = c) (hc : c ≠ none) :
    ∃ t, r = .next t ∧ t.reply = c := by
  cases r <;> simp_all [answer, nextOf]

/-- The block in which the host has issued one operation. -/
def issued (op : HostOp) : State := { base with pending := [op] }

/-- Counts of "A" (V7). -/
def countsA : State := { base with freq := noCounts.set 65 1 }

theorem capacities_base : CapacitiesOk base := by simp [CapacitiesOk, base]

theorem witness_EncodeOfDecode : decode 0x3110FFFF = some (.bswPutbits 16 0xFFFF) := by decide
theorem witness_DecodeOfEncode : Instr.WellFormed (.bswPutbits 16 0xFFFF) ∧ Instr.WellFormed (.bsrGetbits 16)
    ∧ Instr.WellFormed (.bsrTrim 7) ∧ Instr.WellFormed (.bswPutsym 0xFF) := by decide
theorem witness_IllegalWordsFault : Unlocked base ∧ decode 0xFFFFFFFF = none := by decide
theorem witness_StepRunsDecodedCommand : (issued (.cmd 0x310800AB)).pending = .cmd 0x310800AB :: []
    ∧ decode 0x310800AB = some (.bswPutbits 8 0xAB)
    ∧ ((issued (.cmd 0xF0000000)).pending = .cmd 0xF0000000 :: [] ∧ decode 0xF0000000 = none
      ∧ Unlocked (issued (.cmd 0xF0000000)))
    ∧ ({ locked with pending := [.cmd 0xF0000000] } : State).flag .errf = true := by decide
theorem witness_StepWaitsForTheHost : base.pending = [] := rfl
theorem witness_HostReadChangesNothing : (issued (.read 2 257)).pending = .read 2 257 :: []
    ∧ (issued (.read 6 0)).pending = .read 6 0 :: [] ∧ (issued (.read 0 14)).pending = .read 0 14 :: []
    ∧ (issued (.read 1 256)).pending = .read 1 256 :: [] ∧ (issued (.read 2 512)).pending = .read 2 512 :: []
    ∧ (issued (.read 3 256)).pending = .read 3 256 :: []
    ∧ ((issued (.read 4 64)).pending = .read 4 64 :: [] ∧ (issued (.read 4 64)).icap ≤ 64)
    ∧ ((issued (.read 5 64)).pending = .read 5 64 :: [] ∧ (issued (.read 5 64)).ocap ≤ 64) := by decide
/-- The clauses about the entries that exist, each at the last index of its space. -/
theorem witness_HostReadChangesNothing_entries : (issued (.read 0 13)).pending = .read 0 13 :: []
    ∧ ((issued (.read 1 255)).pending = .read 1 255 :: [] ∧ 255 = (255 : Sym).toNat)
    ∧ ((issued (.read 2 511)).pending = .read 2 511 :: [] ∧ 511 = (511 : NodeIdx).toNat)
    ∧ ((issued (.read 3 255)).pending = .read 3 255 :: [] ∧ 255 = (255 : Sym).toNat)
    ∧ (63 < (issued (.read 4 63)).icap ∧ memFind (issued (.read 4 63)).ibuf 63 = none)
    ∧ memFind ({ issued (.read 4 63) with ibuf := [(63, 7)] } : State).ibuf 63 = some 7
    ∧ (63 < (issued (.read 5 63)).ocap ∧ (issued (.read 5 63)).wlen.toNat ≤ 63)
    ∧ (63 < ({ issued (.read 5 63) with wlen := 64, obuf := [(63, 7)] } : State).wlen.toNat
      ∧ memFind ({ issued (.read 5 63) with wlen := 64, obuf := [(63, 7)] } : State).obuf 63 = some 7) := by decide
theorem witness_HostWriteOfRoot : Unlocked (issued (.write 0 3 257))
    ∧ (issued (.write 0 3 257)).pending = .write 0 3 257 :: [] := by decide
theorem witness_HostWriteOfIlen : Unlocked (issued (.write 0 9 4))
    ∧ (issued (.write 0 9 4)).pending = .write 0 9 4 :: [] := by decide
theorem witness_HostWriteOfNode : Unlocked (issued (.write 2 511 0))
    ∧ (issued (.write 2 511 0)).pending = .write 2 511 0 :: [] := by decide
theorem witness_HostWriteOfFreqAndIbuf : Unlocked (issued (.write 1 255 7))
    ∧ (issued (.write 1 255 7)).pending = .write 1 255 7 :: []
    ∧ (issued (.write 4 63 7)).pending = .write 4 63 7 :: [] ∧ 63 < (issued (.write 4 63 7)).icap := by decide
theorem witness_IgnoredHostWrites :
    (({ locked with pending := [.write 1 0 7] } : State).flag .errf = true)
    ∧ (issued (.write 3 0 7)).pending = .write 3 0 7 :: [] ∧ (issued (.write 5 0 7)).pending = .write 5 0 7 :: []
    ∧ (issued (.write 6 0 7)).pending = .write 6 0 7 :: [] ∧ (issued (.write 0 5 7)).pending = .write 0 5 7 :: []
    ∧ (issued (.write 1 256 7)).pending = .write 1 256 7 :: []
    ∧ (issued (.write 2 512 7)).pending = .write 2 512 7 :: []
    ∧ ((issued (.write 4 64 7)).pending = .write 4 64 7 :: [] ∧ (issued (.write 4 64 7)).icap ≤ 64) := by decide
theorem witness_HostReadReturnsLatestWrite : Unlocked base ∧ 255 < 256 ∧ 511 < 512 ∧ 63 < base.icap := by decide

theorem witness_FaultRecordsCauseAndWord :
    (∃ t, Unlocked codedAB ∧ runWord 0x32430000 codedAB = .next t ∧ t.reply = some (.response ⟨.fault, 0x09, 0⟩))
    ∧ (∃ t, runWord 0xF0000000 codedAB = .next t ∧ t.reply = some (.response ⟨.fault, 0x01, 0⟩)
      ∧ decode 0xF0000000 = none)
    ∧ ∃ t, exec (.bswPutsym 0x43) codedAB = .next t ∧ t.reply = some (.response ⟨.fault, 0x09, 0⟩) := by
  obtain ⟨t, h1, h2⟩ := exec_next (r := runWord 0x32430000 codedAB) (c := resp .fault 0x09 0) (by decide) (by decide)
  obtain ⟨u, g1, g2⟩ := exec_next (r := runWord 0xF0000000 codedAB) (c := resp .fault 0x01 0) (by decide) (by decide)
  exact ⟨⟨t, by decide, h1, h2⟩, ⟨u, g1, g2, by decide⟩,
    exec_next (r := exec (.bswPutsym 0x43) codedAB) (c := resp .fault 0x09 0) (by decide) (by decide)⟩
theorem witness_LockedBlockIsFrozen : locked.flag .errf = true ∧ decode 0x20000000 ≠ some .sysReset
    ∧ decode 0xFFFFFFFF ≠ some .sysReset := by decide
theorem witness_FaultsArePrecise : ∃ t, Unlocked codedAB ∧ runWord 0x32430000 codedAB = .next t
    ∧ t.reply = faultReply .noCode ∧ ¬ (decode 0x32430000 = some .ctgGen ∧ Cause.noCode ≠ .noTree)
    ∧ ¬ (decode 0x32430000 = some .dtwRun ∧ Cause.noCode ≠ .notArmed) := by
  obtain ⟨t, h1, h2⟩ := exec_next (r := runWord 0x32430000 codedAB) (c := faultReply .noCode) (by decide) (by decide)
  exact ⟨t, by decide, h1, h2, by decide, by decide⟩
theorem witness_CausesOfEachCommand : ∃ t, Unlocked codedAB ∧ Instr.WellFormed (.bswPutsym 0x43)
    ∧ exec (.bswPutsym 0x43) codedAB = .next t ∧ t.reply = faultReply .noCode := by
  obtain ⟨t, h1, h2⟩ := exec_next (r := exec (.bswPutsym 0x43) codedAB) (c := faultReply .noCode) (by decide) (by decide)
  exact ⟨t, by decide, by decide, h1, h2⟩
/-- Each of the three outcomes; also the witness of MemoriesChangeOnlyAsListed and FlagsChangeOnlyAsListed. -/
theorem witness_EveryCommandHasOneOutcome : (∃ t, exec .sysReset locked = .next t)
    ∧ (∃ t, exec .dtwStep base = .next t ∧ t.reply = faultReply .notArmed) ∧ ∃ t, exec .sysNop locked = .next t := by
  refine ⟨⟨_, rfl⟩, ?_, ⟨_, rfl⟩⟩
  exact exec_next (r := exec .dtwStep base) (c := faultReply .notArmed) (by decide) (by decide)
theorem witness_Unlocked : Unlocked base ∧ Unlocked countsAB ∧ Unlocked treeAB ∧ locked.flag .errf = true := by decide

theorem witness_TbBuildRefusesBadTables : (∀ k : Sym, freqAt base k = 0)
    ∧ (∃ k : Sym, freqAt { base with freq := (noCounts.set 0 (2 ^ 55)).set 1 (2 ^ 55) } k ≠ 0)
    ∧ 2 ^ 56 ≤ ∑ k : Sym, (freqAt { base with freq := (noCounts.set 0 (2 ^ 55)).set 1 (2 ^ 55) } k).toNat := by
  refine ⟨by decide +kernel, ⟨0, by decide⟩, by decide +kernel⟩
/-- Also the witness of TbBuildMergesTheLeastTwo, BuiltTreeShape, BuiltTreeIsOptimal and CtgGenAfterTbBuild. -/
theorem witness_TbBuild : Unlocked countsAB ∧ (∃ k : Sym, freqAt countsAB k ≠ 0)
    ∧ (∑ k : Sym, (freqAt countsAB k).toNat) < 2 ^ 56
    ∧ (Finset.univ.filter (fun k : Sym => freqAt countsAB k ≠ 0)).card = 2 ∧ ∃ t, exec .tbBuild countsAB = .next t := by
  refine ⟨by decide, ⟨65, by decide⟩, by decide +kernel, by decide +kernel, ?_⟩
  obtain ⟨t, h, -⟩ := next_of_after test_tbBuild
  exact ⟨t, h⟩
/-- Also the witness of the one-symbol clauses of TbBuildMergesTheLeastTwo and BuiltTreeShape. -/
theorem witness_SingleSymbolTree : Unlocked countsA ∧ (∀ j : Sym, freqAt countsA j ≠ 0 ↔ j = 65)
    ∧ (∑ k : Sym, (freqAt countsA k).toNat) < 2 ^ 56 := by
  refine ⟨by decide, by decide +kernel, by decide +kernel⟩

/-- The tree of "AB". -/
def shapeAB : Tree := .branch (.leaf 65 1) (.leaf 66 1)

theorem codable_AB : shapeAB.Codable := ⟨⟨_, _, rfl⟩, by decide, by decide, by decide⟩

theorem treeAt_AB : TreeAt nodesAB 257 shapeAB := by simp only [shapeAB, TreeAt]; decide

theorem witness_CtgGenCodesTheTree : Unlocked treeAB ∧ treeAB.flag .treeValid = true
    ∧ TreeAt treeAB.node treeAB.root shapeAB ∧ shapeAB.Codable := ⟨by decide, by decide, treeAt_AB, codable_AB⟩
theorem witness_BuiltTreeIsOptimal : (∃ l r, shapeAB = .branch l r) ∧ shapeAB.symbols.Nodup
    ∧ (∀ k : Sym, k ∈ shapeAB.symbols ↔ freqAt countsAB k ≠ 0)
    ∧ ∀ l ∈ shapeAB.leaves, l.2.1 = freqAt countsAB l.1 := by
  refine ⟨⟨_, _, rfl⟩, by decide, by decide +kernel, by decide +kernel⟩

set_option maxRecDepth 100000 in
theorem genTable_AB : genTable nodesAB 257 = .ok ⟨tableAB, false, 2, 2⟩ := by
  have h : (genTable nodesAB 257).toOption = some ⟨tableAB, false, 2, 2⟩ := by decide +kernel
  cases hg : genTable nodesAB 257 <;> simp_all [Except.toOption]

theorem codeOk_codedAB : CodeOk codedAB := fun _ => ⟨by decide, _, genTable_AB, rfl⟩
theorem codeOk_walkCodedAB : CodeOk walkCodedAB := fun _ => ⟨by decide, _, genTable_AB, rfl⟩

/-- Also the witness of CodesArePrefixFree. -/
theorem witness_CodeLeadsToItsLeaf : CodeOk codedAB ∧ codedAB.flag .codeValid = true ∧ hasCode codedAB.code 65 :=
  ⟨codeOk_codedAB, by decide, by unfold hasCode; decide⟩

theorem witness_CtgGenFaultsClearTheTable : base.flag .treeValid = false
    ∧ (({ treeAB with root := 65 } : State).flag .treeValid = true
      ∧ (nodeAt { treeAB with root := 65 } 65).kind ≠ .internal)
    ∧ (treeAB.flag .treeValid = true ∧ (nodeAt treeAB treeAB.root).kind = .internal)
    ∧ ∃ t, exec .ctgGen { treeAB with root := 65 } = .next t ∧ t.reply = faultReply .badTree := by
  refine ⟨by decide, by decide, by decide, ?_⟩
  exact exec_next (r := exec .ctgGen { treeAB with root := 65 }) (c := faultReply .badTree) (by decide) (by decide)

/-- The tree of "AB" with another entry at the leaf of "B". -/
def spoilt (n : Node) : State := { treeAB with node := putNode nodesAB 66 n }

/-- Each thing that can be wrong with a node is met (R155): FREE, a symbol a second time, a second placeholder; and
with two wrong nodes the left one is reported (R286). The depth limit is test_ctgGen_cycle. -/
theorem witness_CtgGenFaultsClearTheTable_causes :
    answer (exec .ctgGen (spoilt Node.zero)) = faultReply .badNode
    ∧ answer (exec .ctgGen (spoilt ⟨.leaf, 65, 0, 0, 1⟩)) = faultReply .dupSymbol
    ∧ answer (exec .ctgGen { treeAB with
        node := putNode (putNode nodesAB 65 placeholderNode) 66 placeholderNode }) = faultReply .badTree
    ∧ answer (exec .ctgGen { treeAB with
        node := putNode (putNode nodesAB 257 ⟨.internal, 0, 66, 65, 0⟩) 66 ⟨.internal, 0, 300, 65, 0⟩ })
          = faultReply .badNode := by decide +kernel
/-- A walk that ends OK, for CtgGenAcceptsOnlyTrees. -/
theorem witness_CtgGenAcceptsOnlyTrees : Unlocked treeAB ∧ ∃ t, exec .ctgGen treeAB = .next t ∧ t.reply = okReply 2 := by
  refine ⟨by decide, exec_next (r := exec .ctgGen treeAB) (c := okReply 2) ?_ (by decide)⟩
  decide +kernel

theorem witness_PutbitsAppendsTheBits : Unlocked base ∧ CapacitiesOk base ∧ (16 : BitVec 8).toNat ≤ 16
    ∧ (0xFFFF : BitVec 16).toNat < 2 ^ (16 : BitVec 8).toNat
    ∧ 8 * base.wlen.toNat + base.wcnt.toNat + (16 : BitVec 8).toNat ≤ 8 * base.ocap :=
  ⟨by decide, capacities_base, by decide, by decide, by decide⟩
theorem witness_PutsymAppendsTheCode : Unlocked codedAB ∧ CapacitiesOk codedAB ∧ codedAB.flag .codeValid = true
    ∧ (codeOf codedAB.code 65).len ≠ 0
    ∧ 8 * codedAB.wlen.toNat + codedAB.wcnt.toNat + (codeOf codedAB.code 65).len.toNat ≤ 8 * codedAB.ocap :=
  ⟨by decide, capacities_base, by decide, by decide, by decide⟩
theorem witness_FlushPadsWithZeros : Unlocked { base with wacc := 0xC0, wcnt := 4, wlen := 2 }
    ∧ CapacitiesOk { base with wacc := 0xC0, wcnt := 4, wlen := 2 }
    ∧ WriterOk { base with wacc := 0xC0, wcnt := 4, wlen := 2 } :=
  ⟨by decide, capacities_base, by unfold WriterOk; decide⟩
theorem witness_WriterFaultsInOrder :
    (Unlocked { base with wlen := 64 } ∧ 8 * ({ base with wlen := 64 } : State).ocap < 8 * 64 + 0 + (1 : BitVec 8).toNat)
    ∧ base.flag .codeValid = false ∧ (codedAB.flag .codeValid = true ∧ (codeOf codedAB.code 0x43).len = 0)
    ∧ (({ codedAB with wlen := 64 } : State).flag .codeValid = true ∧ (codeOf codedAB.code 65).len ≠ 0
      ∧ 8 * ({ codedAB with wlen := 64 } : State).ocap < 8 * 64 + 0 + (codeOf codedAB.code 65).len.toNat) := by decide

theorem witness_OpenStartsAtTheFirstBit : Unlocked base ∧ CapacitiesOk base
    ∧ ({ base with ilen := 65 } : State).icap < (65 : BitVec 64).toNat
    ∧ (64 : BitVec 64).toNat ≤ ({ base with ilen := 64 } : State).icap := ⟨by decide, capacities_base, by decide, by decide⟩
theorem witness_GetbitsReadsTheNumber : Unlocked reading ∧ (16 : BitVec 8).toNat ≤ 16
    ∧ reading.rpos.toNat + (16 : BitVec 8).toNat ≤ reading.rlim.toNat ∧ reading.rlim.toNat ≤ 8 * reading.icap := by decide
theorem witness_TrimTakesZeroBits : Unlocked reading ∧ (7 : BitVec 8).toNat ≤ 7
    ∧ reading.rpos.toNat + (7 : BitVec 8).toNat ≤ reading.rlim.toNat ∧ reading.rlim.toNat ≤ 8 * reading.icap
    ∧ ∀ j, j < (7 : BitVec 8).toNat → inputBit reading (reading.rlim.toNat - (7 : BitVec 8).toNat + j) = false := by decide
theorem readerOk_reading : ReaderOk reading := by unfold ReaderOk; decide
theorem witness_ReaderFaultsInOrder : (Unlocked { reading with rpos := 10 } ∧ ReaderOk { reading with rpos := 10 })
    ∧ ({ reading with rpos := 10 } : State).rlim.toNat < 10 + (7 : BitVec 8).toNat
    ∧ ReaderOk { reading with rlim := 9 }
    ∧ 0 + (2 : BitVec 8).toNat ≤ ({ reading with rlim := 9 } : State).rlim.toNat
    ∧ ∃ j, j < (2 : BitVec 8).toNat ∧ inputBit { reading with rlim := 9 } (9 - (2 : BitVec 8).toNat + j) = true := by
  refine ⟨⟨by decide, by unfold ReaderOk; decide⟩, by decide, by unfold ReaderOk; decide, by decide, 1, by decide, by decide⟩

theorem witness_StartArmsTheWalker : Unlocked treeAB ∧ treeAB.flag .treeValid = true
    ∧ (nodeAt treeAB treeAB.root).kind = .internal := by decide
theorem witness_StepMovesOneEdge :
    (Unlocked walkDeep ∧ walkDeep.flag .armed = true ∧ walkDeep.rpos.toNat < walkDeep.rlim.toNat
      ∧ walkDeep.rpos.toNat < 8 * walkDeep.icap
      ∧ (nodeAt walkDeep (if inputBit walkDeep 0 then (nodeAt walkDeep 0).right else (nodeAt walkDeep 0).left)).kind
          = .internal)
    ∧ ((nodeAt walkAB (if inputBit walkAB 0 then (nodeAt walkAB 257).right else (nodeAt walkAB 257).left)).kind = .leaf
      ∧ 8 * walkAB.wlen.toNat + walkAB.wcnt.toNat + 8 ≤ 8 * walkAB.ocap)
    ∧ (Unlocked walkA ∧ walkA.flag .armed = true ∧ walkA.rpos.toNat < walkA.rlim.toNat
      ∧ (nodeAt walkA (if inputBit walkA 0 then (nodeAt walkA 257).right else (nodeAt walkA 257).left)).kind
          = .placeholder) := by decide
theorem witness_RunIsRepeatedSteps : (Unlocked walkAB ∧ walkAB.flag .armed = true ∧ ReaderOk walkAB ∧ walkAB.rpos ≠ walkAB.rlim)
    ∧ (∃ t, exec .dtwStep walkAB = .next t ∧ t.reply = okReply 0x141)
    ∧ (ReaderOk { walkAB with rlim := 0 } ∧ ({ walkAB with rlim := 0 } : State).cur = ({ walkAB with rlim := 0 } : State).root)
    ∧ (ReaderOk { walkDeep with rlim := 0, cur := 2 } ∧ ({ walkDeep with rlim := 0, cur := 2 } : State).cur ≠ 0)
    ∧ ReaderOk { walkDeep with cur := 2 }
    ∧ ∃ t, exec .dtwStep { walkDeep with cur := 2 } = .next t ∧ t.reply = faultReply .badNode := by
  refine ⟨⟨by decide, by decide, by unfold ReaderOk; decide, by decide⟩, ?_, ⟨by unfold ReaderOk; decide, by decide⟩,
    ⟨by unfold ReaderOk; decide, by decide⟩, by unfold ReaderOk; decide, ?_⟩
  · exact exec_next (r := exec .dtwStep walkAB) (c := okReply 0x141) (by decide) (by decide)
  · exact exec_next (r := exec .dtwStep { walkDeep with cur := 2 }) (c := faultReply .badNode) (by decide) (by decide)
theorem witness_WalkerFaultsInOrder : base.flag .treeValid = false
    ∧ (({ treeAB with root := 65 } : State).flag .treeValid = true ∧ (nodeAt { treeAB with root := 65 } 65).kind ≠ .internal)
    ∧ base.flag .armed = false
    ∧ (({ walkAB with rpos := 2 } : State).flag .armed = true ∧ ({ walkAB with rpos := 2 } : State).rlim.toNat ≤ 2)
    ∧ (Unlocked { walkDeep with cur := 2 } ∧ ({ walkDeep with cur := 2 } : State).flag .armed = true
      ∧ ({ walkDeep with cur := 2 } : State).rpos.toNat < ({ walkDeep with cur := 2 } : State).rlim.toNat
      ∧ ({ walkDeep with cur := 2 } : State).rlim.toNat ≤ 8 * ({ walkDeep with cur := 2 } : State).icap
      ∧ inputBit walkDeep 0 = true ∧ (nodeAt walkDeep (nodeAt walkDeep 2).right).kind = .free)
    ∧ (({ walkAB with wlen := 64 } : State).flag .armed = true ∧ inputBit walkAB 0 = false
      ∧ (nodeAt walkAB (nodeAt walkAB 257).left).kind = .leaf
      ∧ 8 * ({ walkAB with wlen := 64 } : State).ocap < 8 * 64 + 0 + 8) := by decide

/-- A state in which the invariants hold, with a tree, a code table, an armed walker and two payload bits. -/
theorem inv_walkCodedAB : StateOk walkCodedAB where
  capacities := capacities_base
  buffers := by unfold BuffersOk; decide
  writer := by unfold WriterOk; decide
  output := by intro k hk; exact absurd hk (Nat.not_lt_zero k)
  reader := by unfold ReaderOk; decide
  walker := by unfold WalkerOk; decide
  code := codeOk_walkCodedAB
  error := by unfold ErrorOk; decide

theorem witness_WalkerInvertsTheWriter : StateOk walkCodedAB ∧ Unlocked walkCodedAB ∧ walkCodedAB.flag .codeValid = true
    ∧ walkCodedAB.flag .armed = true ∧ walkCodedAB.cur = walkCodedAB.root
    ∧ (∀ x ∈ [(65 : Sym), 66], hasCode walkCodedAB.code x)
    ∧ payloadBits walkCodedAB = [(65 : Sym), 66].flatMap (fun x => codeString (codeOf walkCodedAB.code x))
    ∧ 8 * walkCodedAB.wlen.toNat + walkCodedAB.wcnt.toNat + 8 * [(65 : Sym), 66].length ≤ 8 * walkCodedAB.ocap :=
  ⟨inv_walkCodedAB, by decide, by decide, by decide, by decide, by unfold hasCode; decide, by decide, by decide⟩
/-- Also the witness of StepKeepsInvariants and InvariantStatesNeverStop, whose step here is the idle one. -/
theorem witness_WalkerFrame : StateOk walkCodedAB ∧ (∃ t, exec .dtwStep walkCodedAB = .next t)
    ∧ ∃ t, step walkCodedAB = .next t := by
  refine ⟨inv_walkCodedAB, ?_, ⟨_, rfl⟩⟩
  obtain ⟨t, h, -⟩ := exec_next (r := exec .dtwStep walkCodedAB) (c := okReply 0x141) (by decide) (by decide)
  exact ⟨t, h⟩

theorem witness_FreqCountCountsBytes : Unlocked base ∧ [(0x41 : Byte), 0x42].length < 2 ^ 56 := by decide
theorem witness_EmptyArchiveAndForeignStarts : (CapacitiesOk base ∧ [(0x40 : Byte)].length ≤ base.icap)
    ∧ (0x40 ≤ (0x40 : Byte).toNat ∧ (0x7F : Byte).toNat ≤ 0x7F)
    ∧ (0x80 ≤ (0x80 : Byte).toNat ∧ [(0x80 : Byte), 0x00] ≠ [0x80]) ∧ (0x80 ≤ (0xFF : Byte).toNat ∧ [(0xFF : Byte)] ≠ [0x80])
    ∧ ((0x30 : Byte).toNat / 2 ^ 5 = 1 ∧ 0x101 ≤ (0x30 : Byte).toNat % 2 ^ 5 * 2 ^ 4 + (0x10 : Byte).toNat / 2 ^ 4) :=
  ⟨⟨capacities_base, by decide⟩, by decide, by decide, by decide, by decide⟩

/-- A reader at a leaf: the bit 1, then the leaf id v in nine bits. -/
def atLeaf (b b' : Byte) : State := { base with ibuf := [(0, b), (1, b')], ilen := 2, rlim := 16 }

/-- The leaves refused: the ids 0x101 and 0x1FF, the symbol 0xFF, and the placeholder. -/
theorem witness_EmptyArchiveAndForeignStarts_leaves : (∀ b b', Unlocked (atLeaf b b') ∧ ReaderOk (atLeaf b b')
      ∧ CapacitiesOk (atLeaf b b') ∧ (atLeaf b b').rpos.toNat + 10 ≤ (atLeaf b b').rlim.toNat)
    ∧ (inputBit (atLeaf 0xC0 0x40) 0 = true ∧ 0x101 = bitsValue (inputBits (atLeaf 0xC0 0x40) 1 9))
    ∧ (inputBit (atLeaf 0xFF 0xC0) 0 = true ∧ 0x1FF = bitsValue (inputBits (atLeaf 0xFF 0xC0) 1 9))
    ∧ (inputBit (atLeaf 0xBF 0xC0) 0 = true ∧ 0x0FF = bitsValue (inputBits (atLeaf 0xBF 0xC0) 1 9)
      ∧ BitVec.ofNat 8 0x0FF ∈ ({ parseStart with seen := [0xFF] } : ParseVars).seen)
    ∧ (inputBit (atLeaf 0xC0 0x00) 0 = true ∧ 0x100 = bitsValue (inputBits (atLeaf 0xC0 0x00) 1 9)
      ∧ ({ parseStart with ph := true } : ParseVars).ph = true) := by
  have hu : Unlocked base := by decide
  have room : (0 : BitVec 64).toNat + 10 ≤ (16 : BitVec 64).toNat := by decide
  have inside : (16 : BitVec 64).toNat ≤ 8 * (2 : BitVec 64).toNat ∧ (2 : BitVec 64).toNat ≤ 64 := by decide
  exact ⟨fun b b' => ⟨hu, ⟨Nat.zero_le _, fun _ => inside⟩, capacities_base, room⟩,
    by decide, by decide, by decide, by decide⟩

/-- The reader behind the EMPTY flag of V30's archive: 0, then a leaf 0x100 and a leaf 0x041. -/
def headerA : State :=
  { base with ibuf := [(0, 0x30), (1, 0x09), (2, 0x07), (3, 0x40)], ilen := 4, rpos := 1, rlim := 32 }

theorem run_of_result {α : Type} {m : Seq α} {s : State} {r : α} (h : (m s).1.toOption = some r) :
    ∃ t, m s = (.ok r, t) := by
  rcases hm : m s with ⟨e, t⟩
  cases e <;> simp_all [Except.toOption]

theorem witness_GetTreeReadsOnlyTrees : (CapacitiesOk headerA ∧ Unlocked headerA ∧ ReaderOk headerA)
    ∧ ∃ t, getTree headerA = (.ok 0, t) :=
  ⟨⟨capacities_base, by decide, by unfold ReaderOk; decide⟩, run_of_result (by decide +kernel)⟩
/-- The archive of "A" (V30) on a block with room for exactly its four bytes. -/
theorem witness_CompressDecompressRoundTrip : [(0x41 : Byte)].length < 2 ^ 56 ∧ CapacitiesOk { base with ocap := 4 }
    ∧ [(0x30 : Byte), 0x09, 0x07, 0x40].length ≤ ({ base with ocap := 4 } : State).ocap
    ∧ [(0x30 : Byte), 0x09, 0x07, 0x40].length ≤ base.icap ∧ [(0x41 : Byte)].length ≤ base.ocap :=
  ⟨by decide, by simp [CapacitiesOk, base], by decide, by decide, by decide⟩
theorem witness_CompressIsDeterministic : ∃ t, CapacitiesOk base ∧ compress [] base = (.ok [0x80], t) := ⟨_, capacities_base, rfl⟩
theorem witness_DecompressNeverBlamesTheHost : ∃ t, CapacitiesOk base ∧ decompress [] base = (.error .emptyInput, t) :=
  ⟨_, capacities_base, rfl⟩

end Sys2Proof.Machine.Tests
end

/-! ## The scope of the block (00_scope.md): how a command ends, and a block nothing is asked of -/

namespace Sys2Proof.Machine

/-- Settles O18. SYS_RESET is OK from every block; any other command is answered LOCKED by a locked block, and ends OK
or with a fault in an unlocked one (`exec_ends`). -/
theorem everyCommandHasOneOutcome : Obligations.EveryCommandHasOneOutcome := by
  intro i s t h
  by_cases hi : i = .sysReset
  · subst hi
    rw [exec_sysReset] at h
    cases h
    exact .inl ⟨0, respond_reply _ _, by simp, fun _ => rfl⟩
  cases hl : s.flag .errf with
  | true =>
    rw [exec_locked hl hi] at h
    cases h
    exact .inr (.inr ⟨lockedReply_reply s, rfl, by simpa using hl, hi⟩)
  | false =>
    rcases exec_ends hl h with ⟨v, u, rfl, hu⟩ | ⟨c, u, rfl, -⟩
    · exact .inl ⟨v, respond_reply v u, by simpa using hu, nofun⟩
    · exact .inr (.inl ⟨c, raiseFault_reply _ _ u, rfl, by simp, hi⟩)

/-- Settles O6: a step takes the host's oldest operation, and there is none (`step_idle`). -/
theorem stepWaitsForTheHost : Obligations.StepWaitsForTheHost := fun _ => step_idle

end Sys2Proof.Machine

/-! ## The state of the block (10_state.md): what a command does to it, and what every step keeps -/

namespace Sys2Proof.Machine

/-- What a command does to the block before it answers: `Effect i s u` says that `i`, run on `s`, has made `u`, and
only its answer (`respond`, `raiseFault` or `lockedReply`) is still to be recorded. -/
inductive Effect : Instr → State → State → Prop where
  | untouched (i : Instr) (s : State) : Effect i s s
  | reset (s : State) : Effect .sysReset s (resetState s)
  | built (s : State) : Effect .tbBuild s (treeBuilt s)
  | countsCleared (s : State) : Effect .tbClrf s { s with freq := noCounts }
  | codesCleared (s : State) : Effect .ctgGen s (tableCleared s)
  | codesWritten (s : State) (acc : GenAcc) (hv : s.flag .treeValid = true) (hg : genTable s.node s.root = .ok acc) :
      Effect .ctgGen s (tableWritten acc s)
  | writerEmptied (s : State) : Effect .bswInit s { s with wlen := 0, wcnt := 0, wacc := 0, lastpad := 0 }
  | bitsPut (n : BitVec 8) (v : BitVec 16) (s u : State) (hr : overflows s n.toNat = false)
      (ha : appendBits (msbFirst n.toNat v.toNat) s = .ok u) : Effect (.bswPutbits n v) s u
  | symPut (k : Sym) (s u : State) (hr : overflows s (codeOf s.code k).len.toNat = false)
      (ha : appendBits (codeString (codeOf s.code k)) s = .ok u) : Effect (.bswPutsym k) s u
  | flushed (s u : State) (ha : appendBits (List.replicate (flushPad s) false) s = .ok u) :
      Effect .bswFlush s { u with lastpad := BitVec.ofNat 3 (flushPad s) }
  | opened (s : State) (hl : s.ilen.toNat ≤ s.icap) :
      Effect .bsrOpen s { s with rpos := 0, rlim := BitVec.ofNat 64 (8 * s.ilen.toNat) }
  | bitsGot (n : BitVec 8) (s : State) (hl : s.rpos.toNat + n.toNat ≤ s.rlim.toNat) :
      Effect (.bsrGetbits n) s { s with rpos := BitVec.ofNat 64 (s.rpos.toNat + n.toNat) }
  | trimmed (p : BitVec 8) (s : State) (hl : p.toNat ≤ s.rlim.toNat - s.rpos.toNat) :
      Effect (.bsrTrim p) s { s with rlim := BitVec.ofNat 64 (s.rlim.toNat - p.toNat) }
  | walkerArmed (s : State) (hv : s.flag .treeValid = true) (hk : (nodeAt s s.root).kind = .internal) :
      Effect .dtwStart s
        { s with cur := s.root, symcnt := 0, status := putFlag (putFlag s.status .phSeen false) .armed true }
  | stepped (v : BitVec 64) (s u : State) (hw : walkStep s = .moved v u) : Effect .dtwStep s u
  | ran (fuel : Nat) (s u : State) (hw : walkLoop fuel s = .done u ∨ ∃ c, walkLoop fuel s = .raised c u) :
      Effect .dtwRun s u

/-- How a command answers once it has made `u` of `s`: OK, with a fault, or, in a locked block, LOCKED. -/
inductive Answered (i : Instr) (s u : State) : State → Prop where
  | ok (v : BitVec 64) : Answered i s u (respond v u)
  | fault (c : Cause) (hu : s.flag .errf = false) : Answered i s u (raiseFault c (encode i) u)
  | locked (hl : s.flag .errf = true) : Answered i s u (lockedReply u)

/-- Everything a command can do in an unlocked block. -/
theorem exec_effect_of_unlocked {i : Instr} {s t : State} (hu : s.flag .errf = false) (h : exec i s = .next t) :
    ∃ u, Effect i s u ∧ Answered i s u t := by
  have fault : ∀ c, ∃ u, Effect i s u ∧ Answered i s u (raiseFault c (encode i) s) :=
    fun c => ⟨s, .untouched i s, .fault c hu⟩
  cases i with
  | sysNop => rw [exec_sysNop hu] at h; cases h; exact ⟨s, .untouched _ s, .ok _⟩
  | sysReset => rw [exec_sysReset] at h; cases h; exact ⟨_, .reset s, .ok _⟩
  | tbBuild =>
    obtain rfl | rfl | ⟨-, -, rfl⟩ := exec_tbBuild_cases hu h
    · exact fault _
    · exact fault _
    · exact ⟨_, .built s, .ok _⟩
  | tbClrf => rw [exec_tbClrf hu] at h; cases h; exact ⟨_, .countsCleared s, .ok _⟩
  | ctgGen =>
    obtain ⟨-, rfl⟩ | ⟨-, c, -, rfl⟩ | ⟨hv, acc, hg, rfl⟩ := exec_ctgGen_cases hu h
    · exact fault _
    · exact ⟨_, .codesCleared s, .fault c hu⟩
    · exact ⟨_, .codesWritten s acc hv hg, .ok _⟩
  | bswInit => rw [exec_bswInit hu] at h; cases h; exact ⟨_, .writerEmptied s, .ok _⟩
  | bswPutbits n v =>
    obtain ⟨-, rfl⟩ | ⟨-, -, rfl⟩ | ⟨-, hr, u, ha, rfl⟩ := exec_bswPutbits_cases hu h
    · exact fault _
    · exact fault _
    · exact ⟨u, .bitsPut n v s u hr ha, .ok _⟩
  | bswPutsym k =>
    obtain rfl | rfl | rfl | ⟨-, -, hr, u, ha, rfl⟩ := exec_bswPutsym_cases hu h
    · exact fault _
    · exact fault _
    · exact fault _
    · exact ⟨u, .symPut k s u hr ha, .ok _⟩
  | bswFlush =>
    obtain ⟨u, ha, rfl⟩ := exec_bswFlush_cases hu h
    exact ⟨_, .flushed s u ha, .ok _⟩
  | bsrOpen =>
    obtain ⟨-, rfl⟩ | ⟨hl, rfl⟩ := exec_bsrOpen_cases hu h
    · exact fault _
    · exact ⟨_, .opened s hl, .ok _⟩
  | bsrGetbits n =>
    obtain ⟨-, rfl⟩ | ⟨-, -, rfl⟩ | ⟨hl, -, v, -, rfl⟩ := exec_bsrGetbits_cases hu h
    · exact fault _
    · exact fault _
    · exact ⟨_, .bitsGot n s hl, .ok _⟩
  | bsrTrim p =>
    obtain ⟨-, rfl⟩ | ⟨-, -, rfl⟩ | ⟨-, -, -, rfl⟩ | ⟨-, hl, -, rfl⟩ := exec_bsrTrim_cases hu h
    · exact fault _
    · exact fault _
    · exact fault _
    · exact ⟨_, .trimmed p s hl, .ok _⟩
  | dtwStart =>
    obtain rfl | rfl | ⟨hv, hk, rfl⟩ := exec_dtwStart_cases hu h
    · exact fault _
    · exact fault _
    · exact ⟨_, .walkerArmed s hv hk, .ok _⟩
  | dtwStep =>
    obtain ⟨v, u, hw, rfl⟩ | ⟨c, -, rfl⟩ := exec_dtwStep_cases hu h
    · exact ⟨u, .stepped v s u hw, .ok _⟩
    · exact fault _
  | dtwRun =>
    obtain ⟨-, rfl⟩ | ⟨-, u, hd, ⟨-, rfl⟩ | ⟨-, rfl⟩⟩ | ⟨-, c, u, hr, rfl⟩ := exec_dtwRun_cases hu h
    · exact fault _
    · exact ⟨u, .ran _ s u (.inl hd), .fault _ hu⟩
    · exact ⟨u, .ran _ s u (.inl hd), .ok _⟩
    · exact ⟨u, .ran _ s u (.inr ⟨c, hr⟩), .fault _ hu⟩

/-- Everything a command can do (R285): its effect, and an answer. -/
theorem exec_effect {i : Instr} {s t : State} (h : exec i s = .next t) : ∃ u, Effect i s u ∧ Answered i s u t := by
  by_cases hi : i = .sysReset
  · subst hi
    rw [exec_sysReset] at h
    cases h
    exact ⟨_, .reset s, .ok _⟩
  cases hl : s.flag .errf with
  | false => exact exec_effect_of_unlocked hl h
  | true =>
    rw [exec_locked hl hi] at h
    cases h
    exact ⟨s, .untouched i s, .locked hl⟩

/-! ### The invariants -/

/-- Padding to the next byte boundary fits: the boundary is no further than the end of OBUF (R174). -/
theorem wbits_flushPad_le {s : State} (h : wbits s ≤ 8 * s.ocap) : wbits s + flushPad s ≤ 8 * s.ocap := by
  have hc := s.wcnt.isLt
  unfold wbits flushPad at *
  omega

/-- Item 6 of R35 speaks of ERRF, ERR and ERRCMD alone. -/
theorem ErrorOk.congr {s t : State} (h : ErrorOk s) (hf : t.flag .errf = s.flag .errf) (he : t.err = s.err)
    (hc : t.errcmd = s.errcmd) : ErrorOk t := by
  unfold ErrorOk at *
  rwa [hf, he, hc]

/-- The walk's loop keeps the invariants, since each completed step does (R213). -/
theorem stateOk_walkLoop {fuel : Nat} {s u : State}
    (h : walkLoop fuel s = .done u ∨ ∃ c, walkLoop fuel s = .raised c u) : StateOk s → StateOk u :=
  walkLoop_induction (P := fun s u => StateOk s → StateOk u) (fun _ => id)
    (fun _ _ _ _ hw ih hs => ih (stateOk_walkStep hs hw)) fuel s u h

/-- TB_BUILD leaves neither a table nor a walk that the new tree could make stale (R131, items 4 and 5 of R35). -/
theorem stateOk_treeBuilt {s : State} (h : StateOk s) : StateOk (treeBuilt s) :=
  { h with
    walker := fun ha => by simp at ha
    code := fun hc => by simp at hc
    error := h.error.congr (by simp) rfl rfl }

/-- Clearing the table leaves no table that item 5 of R35 speaks of (R151). -/
theorem stateOk_tableCleared {s : State} (h : StateOk s) : StateOk (tableCleared s) :=
  { h with
    walker := fun ha => by simpa [nodeAt] using h.walker (by simpa using ha)
    code := fun hc => by simp at hc
    error := h.error.congr (by simp) rfl rfl }

/-- The table CTG_GEN writes is the one of the present tree (R151, item 5 of R35). -/
theorem stateOk_tableWritten {s : State} {acc : GenAcc} (h : StateOk s) (hv : s.flag .treeValid = true)
    (hg : genTable s.node s.root = .ok acc) : StateOk (tableWritten acc s) :=
  { h with
    walker := fun ha => by simpa [nodeAt] using h.walker (by simpa using ha)
    code := fun _ => ⟨by simpa using hv, acc, hg, rfl⟩
    error := h.error.congr (by simp) rfl rfl }

/-- DTW_START arms the walker at an internal root (R211, item 4 of R35). -/
theorem stateOk_walkerArmed {s : State} (h : StateOk s) (hv : s.flag .treeValid = true)
    (hk : (nodeAt s s.root).kind = .internal) :
    StateOk { s with
      cur := s.root, symcnt := 0, status := putFlag (putFlag s.status .phSeen false) .armed true } :=
  { h with
    walker := fun _ => ⟨by simpa [State.flag] using hv, hk, hk⟩
    code := fun hc => by simpa [State.flag] using h.code (by simpa [State.flag] using hc)
    error := h.error.congr (by simp [State.flag]) rfl rfl }

/-- R35: what a command does keeps the invariants. -/
theorem Effect.keeps_stateOk {i : Instr} {s u : State} (h : Effect i s u) (hs : StateOk s) : StateOk u := by
  cases h with
  | untouched => exact hs
  | reset => exact stateOk_resetState hs
  | built => exact stateOk_treeBuilt hs
  | countsCleared => exact { hs with }
  | codesCleared => exact stateOk_tableCleared hs
  | codesWritten _ acc hv hg => exact stateOk_tableWritten hs hv hg
  | writerEmptied =>
    exact { hs with writer := ⟨rfl, Nat.zero_le _⟩, output := fun _ hk => absurd hk (Nat.not_lt_zero _) }
  | bitsPut n v _ _ hr ha =>
    exact stateOk_appendBits hs ha (by simpa [wbits] using overflows_eq_false.1 hr)
  | symPut k _ _ hr ha =>
    exact stateOk_appendBits hs ha (by simpa [wbits, codeString] using overflows_eq_false.1 hr)
  | flushed _ u ha =>
    have hu := stateOk_appendBits hs ha (by simpa using wbits_flushPad_le hs.writer.2)
    exact { hu with }
  | opened _ hl =>
    have hi := hs.capacities.2.2
    have hlim : (BitVec.ofNat 64 (8 * s.ilen.toNat)).toNat = 8 * s.ilen.toNat := by
      rw [BitVec.toNat_ofNat, Nat.mod_eq_of_lt (by omega)]
    exact { hs with reader := ⟨Nat.zero_le _, fun _ => ⟨hlim.le, hl⟩⟩ }
  | bitsGot n _ hl =>
    have hpos : (BitVec.ofNat 64 (s.rpos.toNat + n.toNat)).toNat ≤ s.rlim.toNat :=
      (Nat.mod_le _ _).trans hl
    exact { hs with reader := ⟨hpos, hs.reader.2⟩ }
  | trimmed p _ hl =>
    obtain ⟨hle, hin⟩ := hs.reader
    have hlim : (BitVec.ofNat 64 (s.rlim.toNat - p.toNat)).toNat = s.rlim.toNat - p.toNat := by
      rw [BitVec.toNat_ofNat, Nat.mod_eq_of_lt (by omega)]
    refine { hs with reader := ?_ }
    simp only [ReaderOk, hlim]
    omega
  | walkerArmed _ hv hk => exact stateOk_walkerArmed hs hv hk
  | stepped v _ _ hw => exact stateOk_walkStep hs hw
  | ran fuel _ _ hw => exact stateOk_walkLoop hw hs

/-- R35: so does its answer, whatever it is. -/
theorem Answered.keeps_stateOk {i : Instr} {s u t : State} (h : Answered i s u t) (hu : StateOk u) : StateOk t := by
  cases h with
  | ok v => exact stateOk_reply hu _
  | fault c => exact stateOk_raiseFault hu c _
  | locked => exact stateOk_reply hu _

/-- R35: a command word keeps the invariants, legal or not. -/
theorem stateOk_runWord {w : Word} {s t : State} (hs : StateOk s) (h : runWord w s = .next t) : StateOk t := by
  unfold runWord at h
  split at h
  · obtain ⟨u, hu, ha⟩ := exec_effect h
    exact ha.keeps_stateOk (hu.keeps_stateOk hs)
  · split at h <;> cases h
    · exact stateOk_reply hs _
    · exact stateOk_raiseFault hs _ _

/-- R35: so does a host write. -/
theorem stateOk_hostWrite {s : State} (space idx v : Nat) (h : StateOk s) : StateOk (hostWrite space idx v s) := by
  obtain e | ⟨-, ⟨-, -, e⟩ | ⟨-, -, e⟩ | ⟨-, _, e⟩ | ⟨-, -, e⟩ | ⟨-, hi, e⟩⟩ := hostWrite_cases space idx v s
  all_goals rw [e]
  · exact h
  · exact { h with
      walker := fun ha => by simp at ha
      code := fun hc => by simp at hc
      error := h.error.congr (by simp) rfl rfl }
  · exact { h with reader := ⟨le_rfl, fun hp => absurd hp (Nat.lt_irrefl 0)⟩ }
  · exact { h with }
  · exact { h with
      walker := fun ha => by simp at ha
      code := fun hc => by simp at hc
      error := h.error.congr (by simp) rfl rfl }
  · obtain ⟨⟨hwf, hin⟩, hob⟩ := h.buffers
    exact { h with buffers := ⟨⟨memInsert_wf _ _ hwf, memInsert_below _ hin hi⟩, hob⟩ }

/-- Settles O53: by the four things a step can do (`step_cases`); a command word keeps the invariants by its effect
and its answer, a host write by its cases, and the rest writes no field they name. -/
theorem stepKeepsInvariants : Obligations.StepKeepsInvariants := by
  intro s t hs h
  obtain ⟨-, rfl⟩ | ⟨w, rest, -, hw⟩ | ⟨_, _, rest, v, -, rfl⟩ | ⟨space, idx, v, rest, -, rfl⟩ := step_cases h
  · exact hs
  · exact stateOk_runWord (stateOk_issued hs rest _) hw
  · exact { hs with }
  · exact stateOk_reply (stateOk_hostWrite space idx v (stateOk_issued hs rest _)) _

/-! ### The reset state -/

/-- No flag is set after reset (R38). -/
@[simp] theorem reset_flag (f : Flag) : State.reset.flag f = false := getFlag_zero f

/-- The capacities of Config are in the range of R5, whatever they are. -/
theorem reset_capacities : CapacitiesOk State.reset := by
  simp only [CapacitiesOk, State.reset, Config.ocap, Config.icap]
  omega

/-- Settles O52: nothing is listed, written, read or armed after reset, and no fault is recorded. -/
theorem resetMeetsInvariants : Obligations.ResetMeetsInvariants where
  capacities := reset_capacities
  buffers := ⟨⟨.nil, nofun⟩, .nil, nofun⟩
  writer := ⟨rfl, Nat.zero_le _⟩
  output := fun _ hk => absurd hk (Nat.not_lt_zero _)
  reader := ⟨le_rfl, fun hp => absurd hp (Nat.lt_irrefl 0)⟩
  walker := fun ha => by simp at ha
  code := fun hc => by simp at hc
  error := ⟨by simp [errCause, show State.reset.err = 0 from rfl], fun _ => ⟨rfl, rfl⟩⟩

end Sys2Proof.Machine

/-! ## Which commands write which memory and which flag (10_state.md R23, 20_memory.md R60) -/

namespace Sys2Proof.Machine

/-- The table of R60 for the state a command makes, with what no command writes (R20). -/
def MemoriesAsListed (i : Instr) (s t : State) : Prop :=
  (t.freq ≠ s.freq → i = .tbClrf ∨ i = .sysReset)
  ∧ (t.node ≠ s.node → i = .tbBuild ∨ i = .sysReset)
  ∧ (t.code ≠ s.code → i = .ctgGen ∨ i = .sysReset)
  ∧ (t.ibuf ≠ s.ibuf ∨ t.resets ≠ s.resets → i = .sysReset)
  ∧ (t.obuf ≠ s.obuf → (∃ n v, i = .bswPutbits n v) ∨ (∃ k, i = .bswPutsym k) ∨ i = .bswFlush
      ∨ i = .dtwStep ∨ i = .dtwRun ∨ i = .sysReset)
  ∧ t.ocap = s.ocap ∧ t.icap = s.icap ∧ t.pending = s.pending ∧ t.ops = s.ops

/-- The effect of a command writes the memories listed for it; AppendBit and the walk write OBUF alone. -/
theorem Effect.memoriesAsListed {i : Instr} {s u : State} (h : Effect i s u) : MemoriesAsListed i s u := by
  unfold MemoriesAsListed
  cases h with
  | bitsPut _ _ _ _ _ ha => rw [appendBits_frame ha]; simp
  | symPut _ _ _ _ ha => rw [appendBits_frame ha]; simp
  | flushed _ _ ha => rw [appendBits_frame ha]; simp
  | stepped _ _ _ hw => rw [(walkStep_frame hw).1]; simp
  | ran _ _ _ hw => rw [(walkLoop_frame hw).1]; simp
  | _ => simp

/-- Settles O50: the memories are those of the command's effect, since no answer writes one. -/
theorem memoriesChangeOnlyAsListed : Obligations.MemoriesChangeOnlyAsListed := by
  intro i s t h
  obtain ⟨u, hu, ha⟩ := exec_effect h
  cases ha <;> exact hu.memoriesAsListed

/-- The table of R23: the commands that give a flag a new value. ERRF is set by the fault entry alone. -/
def WritesFlag (i : Instr) : Flag → Bool → Prop
  | .treeValid, true => i = .tbBuild
  | .treeValid, false => i = .sysReset
  | .codeValid, true => i = .ctgGen
  | .codeValid, false => i = .sysReset ∨ i = .tbBuild ∨ i = .ctgGen
  | .armed, true => i = .dtwStart
  | .armed, false => i = .sysReset ∨ i = .tbBuild
  | .phSeen, true => i = .dtwStep ∨ i = .dtwRun
  | .phSeen, false => i = .sysReset ∨ i = .dtwStart
  | .errf, true => False
  | .errf, false => i = .sysReset

/-- SYS_RESET clears each flag. -/
theorem writesFlag_reset (f : Flag) : WritesFlag .sysReset f false := by cases f <;> simp [WritesFlag]

/-- The effect of a command changes the flags listed for it. -/
theorem Effect.flag {i : Instr} {s u : State} (h : Effect i s u) (f : Flag) :
    u.flag f = s.flag f ∨ WritesFlag i f (u.flag f) := by
  cases h with
  | reset => right; rw [resetState_flag]; exact writesFlag_reset f
  | built => cases f <;> simp [WritesFlag]
  | codesCleared => cases f <;> simp [WritesFlag]
  | codesWritten => cases f <;> simp [WritesFlag]
  | walkerArmed => cases f <;> simp [State.flag, WritesFlag]
  | bitsPut _ _ _ _ _ ha => rw [appendBits_frame ha]; exact .inl rfl
  | symPut _ _ _ _ ha => rw [appendBits_frame ha]; exact .inl rfl
  | flushed _ _ ha => rw [appendBits_frame ha]; exact .inl rfl
  | stepped _ _ _ hw =>
    obtain e | e := (walkStep_frame hw).2
    · simp [State.flag, e]
    · cases f <;> simp [State.flag, e, WritesFlag]
  | ran _ _ _ hw =>
    obtain e | e := (walkLoop_frame hw).2
    · simp [State.flag, e]
    · cases f <;> simp [State.flag, e, WritesFlag]
  | _ => exact .inl rfl

/-- A fault sets ERRF, and says so in its answer (R283); otherwise a flag changes as the table of R23 lists. -/
theorem exec_flag {i : Instr} {s t : State} (h : exec i s = .next t) (f : Flag) :
    t.flag f = s.flag f ∨ WritesFlag i f (t.flag f) ∨ f = .errf ∧ t.flag f = true ∧ ∃ c, t.reply = faultReply c := by
  obtain ⟨u, hu, ha⟩ := exec_effect h
  have hf := hu.flag f
  cases ha with
  | ok v => exact hf.imp_right .inl
  | locked => exact hf.imp_right .inl
  | fault c =>
    by_cases he : f = .errf
    · exact .inr (.inr ⟨he, by simp [he], c, rfl⟩)
    · rw [raiseFault_flag, if_neg (Ne.symm he)]; exact hf.imp_right .inl

/-- A flag a command changed is one the table of R23 lists for it, ERRF set by a fault aside. -/
theorem writesFlag_of_changed {i : Instr} {s t : State} (h : exec i s = .next t) {f : Flag} {v : Bool}
    (hs : s.flag f = !v) (ht : t.flag f = v) (hf : f = .errf → v = false) : WritesFlag i f v := by
  obtain e | e | ⟨e, e', -⟩ := exec_flag h f
  · rw [hs, ht] at e; cases v <;> cases e
  · rwa [ht] at e
  · rw [hf e] at ht; rw [ht] at e'; cases e'

/-- Settles O51: each clause is a row of the table (`writesFlag_of_changed`), and ERRF is set by a fault. -/
theorem flagsChangeOnlyAsListed : Obligations.FlagsChangeOnlyAsListed := by
  intro i s t h
  refine ⟨?_, ?_, ?_, ?_, ?_, ?_, ?_, ?_, ?errfSet, ?_⟩
  case errfSet =>
    intro hs ht
    obtain e | e | ⟨-, -, hc⟩ := exec_flag h .errf
    · rw [hs, ht] at e; cases e
    · rw [ht] at e; cases e
    · exact hc
  all_goals exact fun hs ht => writesFlag_of_changed h hs ht (by simp)

end Sys2Proof.Machine

/-! ## The host port and reset (20_memory.md R68 to R70, 10_state.md R38) -/

namespace Sys2Proof.Machine

/-! ### Host reads -/

/-- The registers of R20 in the order of their numbers. -/
theorem regRead_toNat (s : State) {n : Nat} (h : n < 14) : some (regRead s n).toNat =
    [s.status.toNat, s.err.toNat, s.errcmd.toNat, s.root.toNat, s.totbits.toNat, s.wlen.toNat, s.wcnt.toNat,
      s.wacc.toNat, s.lastpad.toNat, s.ilen.toNat, s.rpos.toNat, s.rlim.toNat, s.cur.toNat, s.symcnt.toNat][n]? := by
  have wide {k : Nat} (x : BitVec k) (hk : k ≤ 64) : (x.setWidth 64).toNat = x.toNat :=
    BitVec.toNat_setWidth_of_le hk
  interval_cases n <;> simp [regRead, wide]

/-- A number of 14 or above names no register (R20). -/
theorem regRead_absent (s : State) {n : Nat} (h : 14 ≤ n) : regRead s n = 0 := by
  unfold regRead
  split
  case h_15 => rfl
  all_goals omega

/-- What does not exist reads as 0 (R69). -/
theorem hostRead_absent {s : State} {space idx : Nat}
    (h : 6 ≤ space ∨ (space = 0 ∧ 14 ≤ idx) ∨ (space = 1 ∧ 256 ≤ idx) ∨ (space = 2 ∧ 512 ≤ idx)
      ∨ (space = 3 ∧ 256 ≤ idx) ∨ (space = 4 ∧ s.icap ≤ idx) ∨ (space = 5 ∧ s.ocap ≤ idx)) :
    hostRead space idx s = 0 := by
  obtain h | ⟨rfl, h⟩ | ⟨rfl, h⟩ | ⟨rfl, h⟩ | ⟨rfl, h⟩ | ⟨rfl, h⟩ | ⟨rfl, h⟩ := h
  · unfold hostRead
    split
    case h_7 => rfl
    all_goals omega
  · exact congrArg BitVec.toNat (regRead_absent s h)
  · exact dif_neg (by omega)
  · exact dif_neg (by omega)
  · exact dif_neg (by omega)
  · exact if_neg (by omega)
  · exact if_neg (by omega)

theorem hostRead_freq (s : State) (k : Sym) : hostRead 1 k.toNat s = (freqAt s k).toNat := dif_pos k.isLt

theorem hostRead_node (s : State) (i : NodeIdx) : hostRead 2 i.toNat s = (packNode (nodeAt s i)).toNat :=
  dif_pos i.isLt

theorem hostRead_code (s : State) (k : Sym) : hostRead 3 k.toNat s = (packCode (codeOf s.code k)).toNat :=
  dif_pos k.isLt

theorem hostRead_ibuf {s : State} {k : Nat} (h : k < s.icap) : hostRead 4 k s = (ibufByte s k).toNat := if_pos h

theorem hostRead_obuf {s : State} {k : Nat} (h : k < s.ocap) : hostRead 5 k s = (obufByte s k).toNat := if_pos h

/-- Settles O7: one step with a host read pending returns `hostRead`, whose value is given space by space. -/
theorem hostReadChangesNothing : Obligations.HostReadChangesNothing := by
  intro s space idx rest h
  refine ⟨hostRead space idx s, step_read h, hostRead_absent, ?_, ?_, ?_, ?_, ?_, ?_⟩
  · rintro rfl hidx
    exact (regRead_toNat s hidx).trans (by rw [status_toNat]; rfl)
  · rintro k rfl rfl
    exact hostRead_freq s k
  · rintro i _ rfl rfl rfl
    rw [hostRead_node, packNode_toNat]
    cases (nodeAt s i).kind <;> rfl
  · rintro k rfl rfl
    rw [hostRead_code, packCode_toNat]
  · rintro rfl hidx
    rw [hostRead_ibuf hidx, ibufByte]
    exact ⟨fun b hb => by rw [hb]; rfl, fun hb => by rw [hb]; rfl⟩
  · rintro rfl hidx
    rw [hostRead_obuf hidx, obufByte]
    exact ⟨fun b hlt hb => by rw [if_pos hlt, hb]; rfl, fun hge => by rw [if_neg hge.not_gt]⟩

/-! ### Host writes -/

section
variable {s : State} {v i : Nat} {rest : List HostOp}

/-- A host write to an unlocked block as one step (R70). -/
theorem step_write_unlocked {u : State} {space : Nat} (hu : Unlocked s) (h : s.pending = .write space i v :: rest)
    (hw : writeEntry space i v { s with pending := rest, ops := s.ops + 1 } = u) :
    step s = .next { u with reply := some .written } := by
  rw [← hostWrite_unlocked (s := { s with pending := rest, ops := s.ops + 1 }) space i v hu] at hw
  subst hw
  exact step_write h

theorem writeEntry_freq (h : i < 256) :
    writeEntry 1 i v s = { s with freq := s.freq.set i (BitVec.ofNat 56 v) h } := dif_pos h

theorem writeEntry_node (h : i < 512) : writeEntry 2 i v s = writeNode (BitVec.ofNat 9 i) v s := if_pos h

theorem writeEntry_ibuf (h : i < s.icap) :
    writeEntry 4 i v s = { s with ibuf := memInsert s.ibuf i (BitVec.ofNat 8 v) } := if_pos h

/-- FREQ after one count is stored (R30). -/
theorem freqAt_set {u : State} (h : i < 256) (hu : u.freq = s.freq.set i (BitVec.ofNat 56 v) h) (k : Sym) :
    (freqAt u k).toNat = if k.toNat = i then v % 2 ^ 56 else (freqAt s k).toNat := by
  simp only [freqAt, hu, Vector.getElem_set, eq_comm (a := i)]
  split
  · exact BitVec.toNat_ofNat v 56
  · rfl

/-- IBUF after one byte is stored (R33). -/
theorem ibufByte_memInsert {u : State} (hu : u.ibuf = memInsert s.ibuf i (BitVec.ofNat 8 v))
    (hr : u.resets = s.resets) (k : Nat) :
    (ibufByte u k).toNat = if k = i then v % 2 ^ 8 else (ibufByte s k).toNat := by
  simp only [ibufByte, hu, hr]
  split
  · subst k
    rw [memFind_memInsert_same]
    exact BitVec.toNat_ofNat v 8
  · rw [memFind_memInsert_other _ _ _ _ ‹_›]

end

/-- NODE after one entry is stored (R31). -/
theorem nodeOf_putNode (m : Vector Node 512) (i j : NodeIdx) (n : Node) :
    nodeOf (putNode m i n) j = if j = i then n else nodeOf m j := by
  simp only [nodeOf, putNode, Vector.getElem_set, BitVec.toNat_inj, eq_comm (a := i)]

/-- Settles O8: the write is `writeRoot`. -/
theorem hostWriteOfRootHandsTreeOver : Obligations.HostWriteOfRootHandsTreeOver := by
  intro s v rest hu h
  refine ⟨_, step_write_unlocked hu h rfl, BitVec.toNat_ofNat v 9, ?_, ?_, ?_, ?_, ?_, rfl⟩ <;>
    exact (writeRoot_flag v s _).trans (by simp)

/-- Settles O9: the write is `writeIlen`. -/
theorem hostWriteOfIlenClosesReader : Obligations.HostWriteOfIlenClosesReader :=
  fun _ v _ hu h => ⟨_, step_write_unlocked hu h rfl, BitVec.toNat_ofNat v 64, rfl⟩

/-- Settles O10: the write is `writeNode`, which stores one entry (`nodeOf_putNode`). -/
theorem hostWriteOfNodeStalesTheTree : Obligations.HostWriteOfNodeStalesTheTree := by
  intro s i v rest hu hi h
  refine ⟨_, step_write_unlocked hu h (writeEntry_node hi), fun j => ?_, ?_, ?_, ?_, ?_, ?_, rfl⟩
  · have hj : j = BitVec.ofNat 9 i ↔ j.toNat = i := by
      rw [← BitVec.toNat_inj, BitVec.toNat_ofNat, Nat.mod_eq_of_lt hi]
    refine (nodeOf_putNode s.node _ j _).trans ?_
    simp only [hj, nodeAt]
  all_goals exact (writeNode_flag (BitVec.ofNat 9 i) v s _).trans (by simp)

/-- Settles O11: each write stores one entry (`freqAt_set`, `ibufByte_memInsert`) and touches nothing else. -/
theorem hostWriteOfFreqAndIbufStores : Obligations.HostWriteOfFreqAndIbufStores := by
  intro s i v rest hu
  exact ⟨fun hi h => ⟨_, step_write_unlocked hu h (writeEntry_freq hi), freqAt_set hi rfl, rfl⟩,
    fun hi h => ⟨_, step_write_unlocked hu h (writeEntry_ibuf hi), ibufByte_memInsert rfl rfl, rfl⟩⟩

/-! ### Reset -/

/-- Settles O20: SYS_RESET's state is `resetState`, which lists no byte of IBUF and none of OBUF below WLEN = 0. -/
theorem sysResetGivesResetState : Obligations.SysResetGivesResetState := by
  intro s
  exact ⟨_, exec_sysReset s, rfl, rfl, fun _ => rfl, fun _ => rfl⟩

/-- Settles O21: the registers are written out in `State.reset`, and every entry of its memories is the zero entry. -/
theorem resetStateIsZero : Obligations.ResetStateIsZero :=
  ⟨reset_flag, rfl, rfl, rfl, rfl, rfl, rfl, rfl, rfl, rfl, rfl, rfl, rfl, rfl, rfl,
    fun _ => Vector.getElem_replicate _, fun _ => Vector.getElem_replicate _, fun _ => Vector.getElem_replicate _,
    fun _ => rfl, fun _ => rfl⟩

end Sys2Proof.Machine

/-! ## A legal word is the word of its command (30_encoding.md R91 to R94) -/

namespace Sys2Proof

/-- Two field records are the same when UNIT and OP are the same numbers and A and B the same. -/
theorem fields_ext {f g : Fields} (hu : f.unit.toNat = g.unit.toNat) (ho : f.op.toNat = g.op.toNat)
    (ha : f.a = g.a) (hb : f.b = g.b) : f = g := by
  cases f; cases g
  simp only [Fields.mk.injEq]
  exact ⟨BitVec.eq_of_toNat_eq hu, BitVec.eq_of_toNat_eq ho, ha, hb⟩

/-- A row without operands accepts only the word of its command (R91). -/
theorem fields_of_decodeBare {f : Fields} {i j : Instr} (hu : f.unit.toNat = i.fields.unit.toNat)
    (ho : f.op.toNat = i.fields.op.toNat) (ha : i.fields.a = 0) (hb : i.fields.b = 0)
    (h : decodeBare f i = .ok j) : j.fields = f := by
  obtain ⟨⟨fa, fb⟩, rfl⟩ := decodeBare_ok.1 h
  exact fields_ext hu.symm ho.symm (ha.trans fa.symm) (hb.trans fb.symm)

/-- A row with the operand A accepts only the word of its command (R91). -/
theorem fields_of_decodeA {f : Fields} {i j : Instr} {r : Bool} {out : Illegal}
    (hu : f.unit.toNat = i.fields.unit.toNat) (ho : f.op.toNat = i.fields.op.toNat) (ha : i.fields.a = f.a)
    (hb : i.fields.b = 0) (h : decodeA f i r out = .ok j) : j.fields = f := by
  obtain ⟨fb, -, rfl⟩ := decodeA_ok.1 h
  exact fields_ext hu.symm ho.symm ha (hb.trans fb.symm)

/-- The fields of a word that decodes are those of the command it decodes to (R92). -/
theorem fields_of_decodeFields {f : Fields} {i : Instr} (h : decodeFields f = .ok i) : i.fields = f := by
  unfold decodeFields at h
  split at h
  case h_7 hu ho =>
    obtain ⟨-, rfl⟩ := decodePutbits_ok.1 h
    exact fields_ext hu.symm ho.symm rfl rfl
  case h_8 | h_11 | h_12 => exact fields_of_decodeA ‹_› ‹_› rfl rfl h
  case h_16 => cases h
  all_goals exact fields_of_decodeBare ‹_› ‹_› rfl rfl h

/-- A word that decodes is the word of its command (R94). -/
theorem encode_of_decode {w : Word} {i : Instr} (h : decode w = some i) : encode i = w := by
  have hf : decodeFields (splitWord w) = .ok i := by
    unfold decode decodeNamed at h
    cases hd : decodeFields (splitWord w) with
    | error e => rw [hd] at h; cases h
    | ok j => rw [hd] at h; cases h; rfl
  rw [encode, fields_of_decodeFields hf, joinFields_splitWord]

end Sys2Proof

/-! ## What a fault records (60_exceptions.md R282, R283) -/

namespace Sys2Proof.Machine

/-- A command that answers FAULT went through the fault entry (R283). -/
theorem exec_reply_fault {i : Instr} {s t : State} {c : BitVec 8} {x : BitVec 64} (h : exec i s = .next t)
    (hr : t.reply = some (.response ⟨.fault, c, x⟩)) :
    ∃ d u, t = raiseFault d (encode i) u ∧ c = causeCode d ∧ x = 0 := by
  obtain ⟨u, -, ha⟩ := exec_effect h
  cases ha with
  | ok v => cases hr
  | fault d => cases hr; exact ⟨d, u, rfl, rfl, rfl⟩
  | locked => cases hr

/-- So did a command word, legal or not. -/
theorem runWord_reply_fault {w : Word} {s t : State} {c : BitVec 8} {x : BitVec 64} (h : runWord w s = .next t)
    (hr : t.reply = some (.response ⟨.fault, c, x⟩)) :
    ∃ d u, t = raiseFault d w u ∧ c = causeCode d ∧ x = 0 := by
  cases hd : decode w with
  | some i =>
    rw [runWord_decoded s hd] at h
    rw [← encode_of_decode hd]
    exact exec_reply_fault h hr
  | none =>
    simp only [runWord, hd] at h
    split at h <;> cases h <;> cases hr
    exact ⟨.illegalCmd, s, rfl, rfl, rfl⟩

/-- UNIT of a word as a number (R90). -/
theorem unit_toNat (w : Word) : (w.extractLsb' 28 4).toNat = w.toNat / 2 ^ 28 := by
  rw [BitVec.extractLsb'_toNat, Nat.shiftRight_eq_div_pow, Nat.mod_eq_of_lt (by omega)]

/-- Settles O14: the record is the one of the fault entry, `raiseFault`. -/
theorem faultRecordsCauseAndWord : Obligations.FaultRecordsCauseAndWord := by
  refine ⟨fun w s t c x _ h hr => ?_, fun w s hu hd => ?_, fun i s t c x _ h hr => ?_⟩
  · obtain ⟨d, u, rfl, rfl, rfl⟩ := runWord_reply_fault h hr
    refine ⟨?_, errCause_append _ _, causeCode_ne_zero d, ?_, rfl, by simp, rfl⟩
    · rw [raiseFault_err, toNat_fields, unit_toNat]
    · rw [raiseFault_err, errUnit_append, unit_toNat]
  · refine ⟨raiseFault .illegalCmd w s, ?_, rfl⟩
    simp only [runWord, hd]
    exact if_neg (by simp [hu])
  · obtain ⟨d, u, rfl, rfl, rfl⟩ := exec_reply_fault h hr
    exact ⟨errCause_append _ _, causeCode_ne_zero d, errUnit_append _ _, rfl, by simp, rfl⟩

end Sys2Proof.Machine

/-! ## The code table generator (42_code_table_gen.md R150, R151, R153) -/

namespace Sys2Proof.Machine

/-! ### The code of a path -/

/-- The entry of CODE for a path from the root: its length, and the path as a number (R150, R151). -/
def pathCode (p : List Bool) : CodeEntry :=
  { len := BitVec.ofNat 8 p.length, bits := BitVec.ofNat 255 (bitsValue p) }

/-- LEN of a path's entry is the path's length (R32). -/
theorem pathCode_len {p : List Bool} (h : p.length ≤ 255) : (pathCode p).len.toNat = p.length := by
  rw [pathCode, BitVec.toNat_ofNat, Nat.mod_eq_of_lt (by omega)]

/-- BITS of a path's entry is the path as a number (R32). -/
theorem pathCode_bits {p : List Bool} (h : p.length ≤ 255) : (pathCode p).bits.toNat = bitsValue p := by
  rw [pathCode, BitVec.toNat_ofNat, Nat.mod_eq_of_lt]
  exact (bitsValue_lt p).trans_le (Nat.pow_le_pow_right (by decide) h)

/-- The code string of a path's entry is the path (R32, R150). -/
theorem codeString_pathCode {p : List Bool} (h : p.length ≤ 255) : codeString (pathCode p) = p := by
  rw [codeString, pathCode_len h, pathCode_bits h, msbFirst_bitsValue]

/-- The bits of a path's entry from LEN on are 0 (R32). -/
theorem pathCode_high {p : List Bool} (h : p.length ≤ 255) {j : Nat} (hj : p.length ≤ j) :
    (pathCode p).bits.getLsbD j = false := by
  rw [← BitVec.testBit_toNat, pathCode_bits h]
  exact Nat.testBit_lt_two_pow ((bitsValue_lt p).trans_le (Nat.pow_le_pow_right (by decide) hj))

/-- One edge further, a path's number is doubled and the edge's bit added (R151). -/
theorem bitsValue_snoc (p : List Bool) (b : Bool) : bitsValue (p ++ [b]) = 2 * bitsValue p + b.toNat := by
  rw [bitsValue_append, bitsValue_cons]; simp; omega

/-- A path of 1 to 255 edges has a code (R151). -/
theorem pathCode_len_ne_zero {p : List Bool} (h : p.length ≤ 255) (hp : p ≠ []) : (pathCode p).len ≠ 0 := by
  intro h0
  have := pathCode_len h
  rw [h0] at this
  exact hp (List.length_eq_zero_iff.1 this.symm)

/-! ### The walk of a tree -/

/-- What Gen carries after the walk of the tree `x` at path `p`, from what it carried before (R151). -/
structure Coded (x : Tree) (p : List Bool) (a b : GenAcc) : Prop where
  ph : b.phMet = true ↔ a.phMet = true ∨ x.placeholders ≠ 0
  sum : b.sum = a.sum + (x.leaves.map (fun l => l.2.1.toNat * (p ++ l.2.2).length)).sum
  coded : b.coded = a.coded + x.symbols.length
  others : ∀ k, k ∉ x.symbols → codeOf b.table k = codeOf a.table k
  codes : ∀ l ∈ x.leaves, codeOf b.table l.1 = pathCode (p ++ l.2.2)

/-- The leaves of a branch are those of its subtrees, one bit further from the root (R150). -/
theorem Tree.mem_leaves_branch {l r : Tree} {x : Sym × Weight × List Bool} : x ∈ (Tree.branch l r).leaves ↔
    (∃ y ∈ l.leaves, (y.1, y.2.1, false :: y.2.2) = x) ∨ ∃ y ∈ r.leaves, (y.1, y.2.1, true :: y.2.2) = x := by
  rw [Tree.leaves, List.mem_append, List.mem_map, List.mem_map]

/-- The real symbols are those of the real leaves. -/
theorem Tree.mem_symbols {x : Tree} {k : Sym} : k ∈ x.symbols ↔ ∃ l ∈ x.leaves, l.1 = k := by
  induction x with
  | leaf j w => simp [Tree.symbols, Tree.leaves, eq_comm]
  | placeholder => simp [Tree.symbols, Tree.leaves]
  | branch l r ihl ihr =>
    rw [Tree.symbols, List.mem_append, ihl, ihr]
    simp [Tree.leaves, or_and_right, exists_or]

/-- What Gen asks of the tree `x` (R151, R155): nothing met twice, in it or before it. -/
structure Fresh (x : Tree) (a : GenAcc) : Prop where
  nodup : x.symbols.Nodup
  unmet : ∀ k ∈ x.symbols, (codeOf a.table k).len = 0
  single : x.placeholders ≤ 1
  noPh : a.phMet = true → x.placeholders = 0

section
variable {l r : Tree} {p : List Bool} {a b c : GenAcc}

theorem Fresh.left (h : Fresh (.branch l r) a) : Fresh l a where
  nodup := (List.nodup_append.1 h.nodup).1
  unmet := fun k hk => h.unmet k (List.mem_append_left _ hk)
  single := (Nat.le_add_right _ _).trans h.single
  noPh := fun hp => (Nat.add_eq_zero_iff.1 (h.noPh hp)).1

theorem Fresh.right (h : Fresh (.branch l r) a) (hl : Coded l p a b) : Fresh r b where
  nodup := (List.nodup_append.1 h.nodup).2.1
  unmet := fun k hk => by
    rw [hl.others k fun hk' => (List.nodup_append.1 h.nodup).2.2 k hk' k hk rfl]
    exact h.unmet k (List.mem_append_right _ hk)
  single := (Nat.le_add_left _ _).trans h.single
  noPh := fun hp => by
    have hs : l.placeholders + r.placeholders ≤ 1 := h.single
    obtain hp | hp := hl.ph.1 hp
    · exact (Nat.add_eq_zero_iff.1 (h.noPh hp)).2
    · omega

/-- Walking a left subtree and then the right one walks the tree, where no symbol is in both. -/
theorem Coded.branch (hl : Coded l (p ++ [false]) a b) (hr : Coded r (p ++ [true]) b c)
    (hd : (Tree.branch l r).symbols.Nodup) : Coded (.branch l r) p a c where
  ph := by
    rw [hr.ph, hl.ph, Tree.placeholders, Ne, Ne, Ne, Nat.add_eq_zero_iff]
    tauto
  sum := by
    rw [hr.sum, hl.sum, Tree.leaves, List.map_append, List.sum_append, List.map_map, List.map_map, Nat.add_assoc]
    simp [Function.comp_def]
  coded := by rw [hr.coded, hl.coded, Tree.symbols, List.length_append, Nat.add_assoc]
  others := fun k hk => by
    rw [Tree.symbols, List.mem_append, not_or] at hk
    rw [hr.others k hk.2, hl.others k hk.1]
  codes := fun x hx => by
    obtain ⟨y, hy, rfl⟩ | ⟨y, hy, rfl⟩ := Tree.mem_leaves_branch.1 hx
    · rw [hr.others _ fun h' => (List.nodup_append.1 hd).2.2 _ (Tree.mem_symbols.2 ⟨y, hy, rfl⟩) _ h' rfl,
        hl.codes y hy, List.append_assoc]
      rfl
    · rw [hr.codes y hy, List.append_assoc]
      rfl

end

/-- Gen goes no further below a node that is not INTERNAL (R151). -/
theorem gen_stops {m : Vector Node 512} {i : NodeIdx} (h : (nodeOf m i).kind ≠ .internal) (rem v : Nat) (a : GenAcc) :
    gen m rem i v a = genVisit (nodeOf m i) (maxLen - rem) v a := by
  cases rem with
  | zero => rfl
  | succ rem =>
    unfold gen
    split
    · exact absurd ‹_› h
    all_goals rfl

/-- Gen walks the left subtree of an INTERNAL node and then the right one (R151). -/
theorem gen_goes_on {m : Vector Node 512} {rem v : Nat} {i : NodeIdx} {a b : GenAcc}
    (h : (nodeOf m i).kind = .internal) (hl : gen m rem (nodeOf m i).left (2 * v) a = .ok b) :
    gen m (rem + 1) i v a = gen m rem (nodeOf m i).right (2 * v + 1) b := by
  simp only [gen, h, hl]

/-- Gen walks a tree in which nothing is met twice, and codes each leaf with its path (R151). -/
theorem gen_codes {m : Vector Node 512} (x : Tree) {rem : Nat} {i : NodeIdx} {p : List Bool} {a : GenAcc}
    (ht : TreeAt m i x) (hd : x.depth ≤ rem) (hp : p.length + rem = 255) (hf : Fresh x a) :
    ∃ b, gen m rem i (bitsValue p) a = .ok b ∧ Coded x p a b := by
  have hdepth : maxLen - rem = p.length := by unfold maxLen; omega
  induction x generalizing rem i p a with
  | leaf k w =>
    obtain ⟨hk, rfl, rfl⟩ := ht
    have hun := hf.unmet _ (List.mem_singleton_self _)
    rw [gen_stops (by simp [hk]), hdepth]
    refine ⟨_, by simp only [genVisit, hk, hun]; rfl, ?_⟩
    constructor
    · simp [Tree.placeholders]
    · simp [Tree.leaves]
    · rfl
    · intro j hj
      rw [codeOf_putCode, if_neg fun e => hj (by simp [Tree.symbols, e])]
    · intro l hl
      obtain rfl := List.mem_singleton.1 hl
      rw [codeOf_putCode, if_pos rfl, List.append_nil]
      rfl
  | placeholder =>
    have hk : (nodeOf m i).kind = .placeholder := ht
    have hno : a.phMet = false := by
      have := hf.noPh
      simpa [Tree.placeholders] using this
    rw [gen_stops (by simp [hk]), hdepth]
    refine ⟨_, by simp only [genVisit, hk, hno]; rfl, ?_⟩
    constructor
    · simp [Tree.placeholders]
    · simp [Tree.leaves]
    · rfl
    · exact fun _ _ => rfl
    · exact fun _ hl => absurd hl List.not_mem_nil
  | branch l r ihl ihr =>
    obtain ⟨hk, htl, htr⟩ := ht
    rw [Tree.depth] at hd
    obtain ⟨n, rfl⟩ : ∃ n, rem = n + 1 := ⟨rem - 1, by omega⟩
    have hlen : ∀ d : Bool, (p ++ [d]).length + n = 255 := fun d => by simp; omega
    have hmax : ∀ d : Bool, maxLen - n = (p ++ [d]).length := fun d => by have := hlen d; unfold maxLen; omega
    obtain ⟨b, hb, hcl⟩ := ihl htl (by omega) (hlen false) hf.left (hmax _)
    obtain ⟨c, hc, hcr⟩ := ihr htr (by omega) (hlen true) (hf.right hcl) (hmax _)
    rw [bitsValue_snoc] at hb hc
    exact ⟨c, (gen_goes_on hk hb).trans hc, hcl.branch hcr hf.nodup⟩

/-- Gen's start has met nothing. -/
theorem codeOf_genStart (k : Sym) : codeOf genStart.table k = ⟨0, 0⟩ := Vector.getElem_replicate _

/-- CTG_GEN's walk of a tree it accepts (R151). -/
theorem genTable_codes {m : Vector Node 512} {root : NodeIdx} {x : Tree} (ht : TreeAt m root x) (hx : x.Codable) :
    ∃ acc, genTable m root = .ok acc ∧ Coded x [] genStart acc := by
  obtain ⟨⟨l, r, rfl⟩, hd, hn, hp⟩ := hx
  have hf : Fresh (.branch l r) genStart := ⟨hn, fun k _ => by rw [codeOf_genStart], hp, nofun⟩
  rw [genTable, if_pos ht.1]
  exact gen_codes (.branch l r) (p := []) ht hd rfl hf

/-- A leaf is no deeper than the tree. -/
theorem Tree.leaf_depth {x : Tree} {l : Sym × Weight × List Bool} (h : l ∈ x.leaves) : l.2.2.length ≤ x.depth := by
  induction x generalizing l with
  | leaf k w => obtain rfl := List.mem_singleton.1 h; rfl
  | placeholder => cases h
  | branch a b iha ihb =>
    obtain ⟨y, hy, rfl⟩ | ⟨y, hy, rfl⟩ := Tree.mem_leaves_branch.1 h
    · have := iha hy; simp [Tree.depth]; omega
    · have := ihb hy; simp [Tree.depth]; omega

/-- Below a branch no leaf stands at the empty path. -/
theorem Tree.leaf_below {a b : Tree} {l : Sym × Weight × List Bool} (h : l ∈ (Tree.branch a b).leaves) :
    l.2.2 ≠ [] := by
  obtain ⟨y, -, rfl⟩ | ⟨y, -, rfl⟩ := Tree.mem_leaves_branch.1 h <;> exact List.cons_ne_nil _ _

/-- Settles O29: CTG_GEN writes what the walk of the tree gives (`genTable_codes`), and the entry of a path holds the
path and nothing else. -/
theorem ctgGenCodesTheTree : Obligations.CtgGenCodesTheTree := by
  intro s x hu hv ht hx
  obtain ⟨acc, hg, hc⟩ := genTable_codes ht hx
  refine ⟨respond (BitVec.ofNat 64 acc.coded) (tableWritten acc s), ?_, ?_, fun l hl => ?_, fun k hk => ?_, ?_, rfl⟩
  · rw [exec_ctgGen hu, if_neg (by simp [hv]), hg]
  · rw [respond_reply, hc.coded]; simp [genStart]
  · have hlen : l.2.2.length ≤ 255 := (Tree.leaf_depth hl).trans hx.2.1
    have hcode : codeOf acc.table l.1 = pathCode l.2.2 := hc.codes l hl
    have hne : l.2.2 ≠ [] := by
      obtain ⟨⟨a, b, rfl⟩, -⟩ := hx
      exact Tree.leaf_below hl
    rw [respond_code, tableWritten_code, hasCode, hcode, codeString_pathCode hlen, pathCode_len hlen]
    exact ⟨pathCode_len_ne_zero hlen hne, rfl, rfl, fun j => pathCode_high hlen⟩
  · exact (hc.others k hk).trans (codeOf_genStart k)
  · simp only [respond_totbits, tableWritten_totbits, BitVec.toNat_ofNat, hc.sum]
    simp [genStart, Tree.cost]

/-! ### Prefix-freeness -/

/-- Every code of Gen's table is the path to a leaf of its symbol. -/
def CodesArePaths (m : Vector Node 512) (root : NodeIdx) (a : GenAcc) : Prop :=
  ∀ k, (codeOf a.table k).len ≠ 0 → ∃ q, OnWalk m root q ∧ codeOf a.table k = pathCode q
    ∧ (nodeOf m (follow m root q)).kind = .leaf ∧ (nodeOf m (follow m root q)).sym = k

/-- Everything Gen can do at a node it accepts and does not go below (R151). -/
theorem genVisit_ok {n : Node} {d v : Nat} {a b : GenAcc} (h : genVisit n d v a = .ok b) :
    n.kind = .leaf ∧ b = { a with
        table := putCode a.table n.sym { len := BitVec.ofNat 8 d, bits := BitVec.ofNat 255 v }
        sum := a.sum + n.weight.toNat * d
        coded := a.coded + 1 }
    ∨ n.kind = .placeholder ∧ b = { a with phMet := true } := by
  unfold genVisit at h
  split at h
  · cases h
  · cases h
  · split at h <;> cases h
    exact .inl ⟨‹_›, rfl⟩
  · split at h <;> cases h
    exact .inr ⟨‹_›, rfl⟩

/-- Where Gen accepts what is below an INTERNAL node, it has walked both subtrees, at a depth below 255 (R151). -/
theorem gen_internal_ok {m : Vector Node 512} {rem v : Nat} {i : NodeIdx} {a c : GenAcc}
    (hk : (nodeOf m i).kind = .internal) (h : gen m rem i v a = .ok c) :
    ∃ n b, rem = n + 1 ∧ gen m n (nodeOf m i).left (2 * v) a = .ok b
      ∧ gen m n (nodeOf m i).right (2 * v + 1) b = .ok c := by
  cases rem with
  | zero => simp [gen, genVisit, hk] at h
  | succ n =>
    simp only [gen, hk] at h
    split at h
    · exact ⟨n, _, rfl, ‹_›, h⟩
    · cases h

section
variable {m : Vector Node 512} {root : NodeIdx} {p : List Bool} {a b : GenAcc}

/-- A leaf is coded with the path to it. -/
theorem genVisit_codesArePaths (hw : OnWalk m root p) (ha : CodesArePaths m root a)
    (h : genVisit (nodeOf m (follow m root p)) p.length (bitsValue p) a = .ok b) : CodesArePaths m root b := by
  obtain ⟨hk, rfl⟩ | ⟨-, rfl⟩ := genVisit_ok h
  · intro k hlen
    by_cases hs : (nodeOf m (follow m root p)).sym = k
    · exact ⟨p, hw, by simp only [codeOf_putCode, if_pos hs, pathCode], hk, hs⟩
    · simp only [codeOf_putCode, if_neg hs] at hlen ⊢
      exact ha k hlen
  · exact ha

/-- Gen codes each leaf it meets with the path to it (R151). -/
theorem gen_codesArePaths {rem : Nat} (hw : OnWalk m root p) (hp : p.length + rem = 255)
    (ha : CodesArePaths m root a) (h : gen m rem (follow m root p) (bitsValue p) a = .ok b) :
    CodesArePaths m root b := by
  induction rem using Nat.strongRecOn generalizing p a b with
  | ind rem ih =>
    by_cases hk : (nodeOf m (follow m root p)).kind = .internal
    · obtain ⟨n, c, rfl, hl, hr⟩ := gen_internal_ok hk h
      have step : ∀ d : Bool, OnWalk m root (p ++ [d]) := hw.snoc hk (by omega)
      have hlen : ∀ d : Bool, (p ++ [d]).length + n = 255 := fun d => by simp; omega
      have hc : CodesArePaths m root c := ih n (by omega) (step false) (hlen false) ha (by
        rw [follow_snoc, bitsValue_snoc]; exact hl)
      exact ih n (by omega) (step true) (hlen true) hc (by rw [follow_snoc, bitsValue_snoc]; exact hr)
    · rw [gen_stops hk, show maxLen - rem = p.length by unfold maxLen; omega] at h
      exact genVisit_codesArePaths hw ha h

/-- Every code of a table CTG_GEN accepts is the path to a leaf of its symbol (R151). -/
theorem genTable_codesArePaths (h : genTable m root = .ok b) : CodesArePaths m root b := by
  unfold genTable at h
  split at h
  · refine gen_codesArePaths (p := []) onWalk_nil rfl (fun k hk => absurd ?_ hk) h
    rw [codeOf_genStart]
  · cases h

end

/-- Following the code of a symbol in a valid table leads over internal nodes to a leaf of that symbol (R153 d). -/
theorem codeString_leads_to_leaf {s : State} (h : CodeOk s) (hv : s.flag .codeValid = true) {k : Sym}
    (hk : hasCode s.code k) : OnWalk s.node s.root (codeString (codeOf s.code k))
      ∧ (nodeOf s.node (follow s.node s.root (codeString (codeOf s.code k)))).kind = .leaf
      ∧ (nodeOf s.node (follow s.node s.root (codeString (codeOf s.code k)))).sym = k := by
  obtain ⟨-, acc, hg, hc⟩ := h hv
  rw [hasCode, hc] at hk
  obtain ⟨q, hw, hq, hl⟩ := genTable_codesArePaths hg k hk
  rw [hc, hq, codeString_pathCode hw.1]
  exact ⟨hw, hl⟩

/-- Settles O31: codes are paths to leaves (`codeString_leads_to_leaf`), and the walk goes no further below a leaf, so
a code that begins another leads to the same leaf. -/
theorem codesArePrefixFree : Obligations.CodesArePrefixFree := by
  intro s h hv
  refine ⟨fun a b hab ha hb hp => hab ?_, fun k hk => ?_⟩
  · obtain ⟨-, hka, hsa⟩ := codeString_leads_to_leaf h hv ha
    obtain ⟨hwb, -, hsb⟩ := codeString_leads_to_leaf h hv hb
    rw [← hsa, ← hsb, hwb.eq_of_prefix hp (.inl (by simp [hka]))]
  · obtain ⟨hw, -⟩ := codeString_leads_to_leaf h hv hk
    have hlen : (codeString (codeOf s.code k)).length = (codeOf s.code k).len.toNat := msbFirst_length _ _
    refine ⟨?_, hw.1⟩
    rw [hlen, Nat.one_le_iff_ne_zero]
    exact fun h0 => hk (BitVec.eq_of_toNat_eq h0)

end Sys2Proof.Machine

/-! ## The operations of the host (20_memory.md R68 to R71): command words, ignored writes, reads after writes -/

namespace Sys2Proof.Machine

/-! ### Command words -/

/-- A word that does not decode is the illegal command: LOCKED in a locked block, a fault otherwise (R285). -/
theorem runWord_undecoded {w : Word} {s : State} (h : decode w = none) : runWord w s =
    if s.flag .errf then .next (lockedReply s) else .next (raiseFault .illegalCmd w s) := by
  simp [runWord, h]

/-- Settles O5: the step is `step_cmd`, and the word runs by `runWord_decoded` or `runWord_undecoded`. -/
theorem stepRunsDecodedCommand : Obligations.StepRunsDecodedCommand := by
  intro s w rest h
  rw [step_cmd h]
  refine ⟨rfl, fun i => runWord_decoded _, fun hd hu => ?_, fun hd hl => ?_⟩
  · exact (runWord_undecoded hd).trans (if_neg (ne_true_of_eq_false hu))
  · exact (runWord_undecoded hd).trans (if_pos hl)

/-! ### Host writes -/

/-- A host write stores something only at ROOT, ILEN, or an existing entry of FREQ, NODE or IBUF, and only in an
unlocked block (R68 to R70). -/
theorem hostWrite_ignored {s : State} {space i : Nat} (v : Nat)
    (h : s.flag .errf = true ∨ space = 3 ∨ space = 5 ∨ 6 ≤ space ∨ (space = 0 ∧ i ≠ 3 ∧ i ≠ 9)
      ∨ (space = 1 ∧ 256 ≤ i) ∨ (space = 2 ∧ 512 ≤ i) ∨ (space = 4 ∧ s.icap ≤ i)) : hostWrite space i v s = s := by
  obtain e | ⟨hu, hw⟩ := hostWrite_cases space i v s
  · exact e
  · have hentry := h.resolve_left (ne_true_of_eq_false hu)
    obtain ⟨_, _, -⟩ | ⟨_, _, -⟩ | ⟨_, _, -⟩ | ⟨_, _, -⟩ | ⟨_, _, -⟩ := hw <;> omega

/-- Settles O12: the step is `step_write`, and the write it makes is ignored. -/
theorem ignoredHostWritesChangeNothing : Obligations.IgnoredHostWritesChangeNothing := by
  intro s space i v rest hp h
  rw [step_write hp, hostWrite_ignored (s := { s with pending := rest, ops := s.ops + 1 }) v h]

/-- Settles O13, entry by entry: what the write stored is what the read finds, by the reading rule of each memory. -/
theorem hostReadReturnsLatestWrite : Obligations.HostReadReturnsLatestWrite := by
  intro s i v hu
  simp only [hostWrite_unlocked _ _ _ hu]
  refine ⟨?root, BitVec.toNat_ofNat v 64, fun hi => ?freq, fun hi => ?node, fun hi => ?ibuf⟩
  case root => exact (BitVec.toNat_setWidth_of_le (by decide)).trans (BitVec.toNat_ofNat v 9)
  case freq =>
    obtain ⟨k, rfl⟩ : ∃ k : Sym, k.toNat = i := ⟨.ofFin ⟨i, hi⟩, rfl⟩
    rw [hostRead_freq, freqAt_set hi (congrArg State.freq (writeEntry_freq hi)), if_pos rfl]
  case node =>
    obtain ⟨j, rfl⟩ : ∃ j : NodeIdx, j.toNat = i := ⟨.ofFin ⟨i, hi⟩, rfl⟩
    rw [hostRead_node, writeEntry_node hi, nodeAt, writeNode_node, nodeOf_putNode, BitVec.ofNat_toNat,
      BitVec.setWidth_eq, if_pos rfl, packNode_unpackNode, BitVec.toNat_ofNat]
  case ibuf =>
    have he := writeEntry_ibuf (v := v) hi
    rw [hostRead_ibuf (by rwa [he]), ibufByte_memInsert (congrArg State.ibuf he) (by rw [he]), if_pos rfl]

end Sys2Proof.Machine

/-! ## Commands inside the buffers (20_memory.md R62, R64): what the writer appends, what the reader reads, and that no
operation stops the machine -/

namespace Sys2Proof.Machine

/-! ### The writer -/

/-- Bits that pass the capacity check are appended (R64). -/
theorem appendBits_of_fits {s : State} {bs : List Bool} (hc : CapacitiesOk s) (h : overflows s bs.length = false) :
    ∃ u, appendBits bs s = .ok u ∧ Appended bs s u :=
  appendBits_spec bs s hc.1.2 (overflows_eq_false.1 h)

/-- BSW_PUTBITS where its bits fit (R172). -/
theorem exec_bswPutbits_of_fits {s : State} {n : BitVec 8} {v : BitVec 16} (hu : Unlocked s) (hc : CapacitiesOk s)
    (hw : wfPutbits n v = true) (hr : overflows s n.toNat = false) :
    ∃ u, Appended (msbFirst n.toNat v.toNat) s u
      ∧ exec (.bswPutbits n v) s = .next (respond (BitVec.ofNat 64 (wbits u)) u) := by
  obtain ⟨u, he, ha⟩ := appendBits_of_fits (bs := msbFirst n.toNat v.toNat) hc (by rwa [msbFirst_length])
  exact ⟨u, ha, by simp only [exec_bswPutbits hu hw, hr, he, Bool.false_eq_true, if_false]⟩

/-- BSW_PUTSYM where its symbol has a code in a valid table and the code fits (R173). -/
theorem exec_bswPutsym_of_fits {s : State} {k : Sym} (hu : Unlocked s) (hc : CapacitiesOk s)
    (hv : s.flag .codeValid = true) (hk : (codeOf s.code k).len ≠ 0)
    (hr : overflows s (codeOf s.code k).len.toNat = false) : ∃ u, Appended (codeString (codeOf s.code k)) s u
      ∧ exec (.bswPutsym k) s = .next (respond ((codeOf s.code k).len.setWidth 64) u) := by
  obtain ⟨u, he, ha⟩ :=
    appendBits_of_fits (bs := codeString (codeOf s.code k)) hc (by rwa [codeString, msbFirst_length])
  exact ⟨u, ha, by
    simp only [exec_bswPutsym hu, hv, hk, hr, he, Bool.true_eq_false, Bool.false_eq_true, if_false]⟩

/-- BSW_FLUSH, whose padding always fits (R174). -/
theorem exec_bswFlush_of_fits {s : State} (hu : Unlocked s) (hc : CapacitiesOk s) (hw : WriterOk s) :
    ∃ u, Appended (List.replicate (flushPad s) false) s u ∧ exec .bswFlush s =
      .next (respond (BitVec.ofNat 64 (flushPad s)) { u with lastpad := BitVec.ofNat 3 (flushPad s) }) := by
  obtain ⟨u, he, ha⟩ := appendBits_spec (List.replicate (flushPad s) false) s hc.1.2
    (by simpa using wbits_flushPad_le hw.2)
  exact ⟨u, ha, by simp only [exec_bswFlush hu, he]⟩

/-- The n low bits of a field by their place in the stream (R63). -/
theorem msbFirst_toNat {m : Nat} (x : BitVec m) (n : Nat) :
    msbFirst n x.toNat = (List.range n).map (fun j => x.getLsbD (n - 1 - j)) := msbFirst_eq_map n x.toNat

/-- Settles O36: the bits are `msbFirst n v`, and what appending them does is `Appended`. -/
theorem putbitsAppendsTheBits : Obligations.PutbitsAppendsTheBits := by
  intro n v s hu hc hn hv hr
  obtain ⟨u, ha, he⟩ :=
    exec_bswPutbits_of_fits (v := v) hu hc (by simp [wfPutbits, hn, hv]) (overflows_eq_false.2 hr)
  have hstream := ha.stream
  have hcount := ha.count
  rw [msbFirst_toNat] at hstream
  rw [msbFirst_length] at hcount
  exact ⟨_, he, hstream, hcount, rfl, congrArg (respond _) ha.frame, ha.stores⟩

/-- Settles O37: the bits are the code string of the symbol, and what appending them does is `Appended`. -/
theorem putsymAppendsTheCode : Obligations.PutsymAppendsTheCode := by
  intro k s hu hc hv hk hr
  obtain ⟨u, ha, he⟩ := exec_bswPutsym_of_fits hu hc hv hk (overflows_eq_false.2 hr)
  have hstream := ha.stream
  rw [codeString, msbFirst_toNat] at hstream
  exact ⟨_, he, hstream, rfl, congrArg (respond _) ha.frame, ha.stores⟩

/-- The padding completes the byte that was begun, and takes less than a byte (R174). -/
theorem flushPad_spec (s : State) : flushPad s < 8 ∧ (wbits s + flushPad s) % 8 = 0 := by
  have hc := s.wcnt.isLt
  unfold flushPad wbits
  omega

/-- A stream of whole bytes leaves no bit in the accumulator (R27, item 1 of R35). -/
theorem writer_empty_of_wholeBytes {s : State} (hlow : s.wacc.toNat % 2 ^ (8 - s.wcnt.toNat) = 0)
    (h : wbits s % 8 = 0) : s.wcnt = 0 ∧ s.wacc = 0 := by
  have hc := s.wcnt.isLt
  have hcnt : s.wcnt.toNat = 0 := by unfold wbits at h; omega
  rw [hcnt, Nat.mod_eq_of_lt s.wacc.isLt] at hlow
  exact ⟨BitVec.eq_of_toNat_eq hcnt, BitVec.eq_of_toNat_eq hlow⟩

/-- With no bit in the accumulator the stream is the bytes of OBUF below WLEN (R72). -/
theorem outputBits_of_wholeBytes {s : State} (h : s.wcnt = 0) :
    outputBits s = (List.range s.wlen.toNat).flatMap (fun k => byteBits (obufByte s k)) := by
  simp [outputBits, h]

/-- Settles O38: the bits are the `flushPad s` zeros, after which the stream is whole bytes. -/
theorem flushPadsWithZeros : Obligations.FlushPadsWithZeros := by
  intro s hu hc hw
  obtain ⟨u, ha, he⟩ := exec_bswFlush_of_fits hu hc hw
  obtain ⟨hp, hb⟩ := flushPad_spec s
  have hcount : wbits u = wbits s + flushPad s := by simpa using ha.count
  obtain ⟨hcnt, hacc⟩ := writer_empty_of_wholeBytes (ha.low hw.1) (by rw [hcount, hb])
  have hpad : (BitVec.ofNat 3 (flushPad s)).toNat = flushPad s := by
    rw [BitVec.toNat_ofNat, Nat.mod_eq_of_lt hp]
  exact ⟨_, he, ⟨flushPad s, hp, hb, ha.stream, hpad, rfl⟩, hcnt, hacc, outputBits_of_wholeBytes hcnt,
    congrArg (fun x : State => respond _ { x with lastpad := BitVec.ofNat 3 (flushPad s) }) ha.frame, ha.stores⟩

/-! ### The reader -/

/-- The reader's limit lies inside IBUF (item 3 of R35). -/
theorem ReaderOk.rlim_le {s : State} (h : ReaderOk s) : s.rlim.toNat ≤ 8 * s.icap := by
  obtain ⟨-, hi⟩ := h
  omega

/-- BSR_GETBITS where its bits remain (R192). -/
theorem exec_bsrGetbits_of_remaining {s : State} {n : BitVec 8} (hu : Unlocked s) (hw : wfGetbits n = true)
    (hr : s.rpos.toNat + n.toNat ≤ s.rlim.toNat) (hi : s.rlim.toNat ≤ 8 * s.icap) : exec (.bsrGetbits n) s =
      .next (respond (BitVec.ofNat 64 (bitsValue (inputBits s s.rpos.toNat n.toNat)))
        { s with rpos := BitVec.ofNat 64 (s.rpos.toNat + n.toNat) }) := by
  simp only [exec_bsrGetbits hu hw, if_neg hr.not_gt, readBits_inside s n.toNat s.rpos.toNat 0 (hr.trans hi),
    Nat.zero_mul, Nat.zero_add]

/-- Bit n-1-j of the number of n bits of the input is the j-th of them (R63). -/
theorem testBit_bitsValue_inputBits (s : State) (p : Nat) {n j : Nat} (h : j < n) :
    (bitsValue (inputBits s p n)).testBit (n - 1 - j) = inputBit s (p + j) := by
  have e := msbFirst_bitsValue (inputBits s p n)
  rw [inputBits_length, msbFirst_eq_map, inputBits] at e
  exact List.map_inj_left.1 e j (List.mem_range.2 h)

/-- Settles O41: the number is that of the next n bits of the input, `bitsValue (inputBits s RPOS n)`. -/
theorem getbitsReadsTheNumber : Obligations.GetbitsReadsTheNumber := by
  intro n s hu hn hr hi
  have hpos : (BitVec.ofNat 64 (s.rpos.toNat + n.toNat)).toNat = s.rpos.toNat + n.toNat := by
    rw [BitVec.toNat_ofNat, Nat.mod_eq_of_lt (hr.trans_lt s.rlim.isLt)]
  have hlt := bitsValue_lt (inputBits s s.rpos.toNat n.toNat)
  rw [inputBits_length] at hlt
  exact ⟨_, _, exec_bsrGetbits_of_remaining hu (decide_eq_true hn) hr hi, hlt,
    fun j => testBit_bitsValue_inputBits s _, hpos, rfl⟩

/-- BSR_TRIM reads below RLIM only, and so inside IBUF (R193). -/
theorem exec_bsrTrim_next {s : State} {p : BitVec 8} (hu : Unlocked s) (hw : wfTrim p = true)
    (hi : s.rlim.toNat ≤ 8 * s.icap) : ∃ t, exec (.bsrTrim p) s = .next t := by
  rw [exec_bsrTrim hu hw]
  split
  · exact ⟨_, rfl⟩
  · rw [anyOne_inside s _ _ (by omega)]
    cases (inputBits s (s.rlim.toNat - p.toNat) p.toNat).any id <;> exact ⟨_, rfl⟩

/-! ### The walker -/

/-- No store of a leaf's byte is outside OBUF: the capacity check comes first (R64, R212). -/
theorem emitLeaf_ne_outside {s : State} (k : Sym) (hc : CapacitiesOk s) (f : Fault) : emitLeaf k s ≠ .outside f := by
  cases ho : overflows s 8 with
  | true => simp [emitLeaf, ho]
  | false =>
    obtain ⟨u, -, he⟩ := emitLeaf_fits k hc (overflows_eq_false.1 ho)
    simp [he]

/-- No step of the walk meets a position outside a buffer (R62, R64). -/
theorem walkStep_ne_outside {s : State} (hc : CapacitiesOk s) (hr : ReaderOk s) (f : Fault) :
    walkStep s ≠ .outside f := by
  by_cases ha : s.flag .armed = true
  · by_cases hl : s.rpos.toNat < s.rlim.toNat
    · rw [walkStep_eq ha hl (hl.trans_le hr.rlim_le)]
      split
      case h_3 => exact emitLeaf_ne_outside _ hc f
      all_goals nofun
    · simp [walkStep, ha, not_lt.1 hl]
  · simp [walkStep, ha]

/-- Nor does their loop, since each completed step keeps the invariants (R213). -/
theorem walkLoop_ne_outside {s : State} {fuel : Nat} (hs : StateOk s) (f : Fault) : walkLoop fuel s ≠ .outside f := by
  induction fuel generalizing s with
  | zero => nofun
  | succ fuel ih =>
    unfold walkLoop
    split
    · nofun
    · cases hw : walkStep s with
      | moved v t => exact ih (stateOk_walkStep hs hw)
      | raised c => nofun
      | outside g => exact absurd hw (walkStep_ne_outside hs.capacities hs.reader g)

/-! ### Every operation -/

/-- A well-formed command ends in a next state of an unlocked block that meets the invariants. -/
theorem exec_next_of_wf {s : State} {i : Instr} (hs : StateOk s) (hu : Unlocked s) (hw : i.wf = true) :
    ∃ t, exec i s = .next t := by
  have hc := hs.capacities
  have hi := hs.reader.rlim_le
  cases i with
  | sysNop => exact ⟨_, exec_sysNop hu⟩
  | sysReset => exact ⟨_, exec_sysReset s⟩
  | tbBuild => rw [exec_tbBuild hu]; split_ifs <;> exact ⟨_, rfl⟩
  | tbClrf => exact ⟨_, exec_tbClrf hu⟩
  | ctgGen =>
    rw [exec_ctgGen hu]
    split_ifs
    · exact ⟨_, rfl⟩
    · cases genTable s.node s.root <;> exact ⟨_, rfl⟩
  | bswInit => exact ⟨_, exec_bswInit hu⟩
  | bswPutbits n v =>
    cases hr : overflows s n.toNat with
    | true => exact ⟨_, (exec_bswPutbits hu hw).trans (if_pos hr)⟩
    | false => obtain ⟨u, -, he⟩ := exec_bswPutbits_of_fits hu hc hw hr; exact ⟨_, he⟩
  | bswPutsym k =>
    by_cases hv : s.flag .codeValid = false
    · exact ⟨_, (exec_bswPutsym hu).trans (if_pos hv)⟩
    by_cases hk : (codeOf s.code k).len = 0
    · exact ⟨_, (exec_bswPutsym hu).trans ((if_neg hv).trans (if_pos hk))⟩
    cases hr : overflows s (codeOf s.code k).len.toNat with
    | true => exact ⟨_, (exec_bswPutsym hu).trans ((if_neg hv).trans ((if_neg hk).trans (if_pos hr)))⟩
    | false =>
      obtain ⟨u, -, he⟩ := exec_bswPutsym_of_fits hu hc (eq_true_of_ne_false hv) hk hr
      exact ⟨_, he⟩
  | bswFlush => obtain ⟨u, -, he⟩ := exec_bswFlush_of_fits hu hc hs.writer; exact ⟨_, he⟩
  | bsrOpen => rw [exec_bsrOpen hu]; split_ifs <;> exact ⟨_, rfl⟩
  | bsrGetbits n =>
    by_cases hr : s.rlim.toNat < s.rpos.toNat + n.toNat
    · exact ⟨_, (exec_bsrGetbits hu hw).trans (if_pos hr)⟩
    · exact ⟨_, exec_bsrGetbits_of_remaining hu hw (not_lt.1 hr) hi⟩
  | bsrTrim p => exact exec_bsrTrim_next hu hw hi
  | dtwStart => rw [exec_dtwStart hu]; split_ifs <;> exact ⟨_, rfl⟩
  | dtwStep =>
    rw [exec_dtwStep hu]
    cases hg : walkStep s with
    | moved v t => exact ⟨_, rfl⟩
    | raised c => exact ⟨_, rfl⟩
    | outside f => exact absurd hg (walkStep_ne_outside hc hs.reader f)
  | dtwRun =>
    rw [exec_dtwRun hu]
    split_ifs
    · exact ⟨_, rfl⟩
    · cases hg : walkLoop (s.rlim.toNat - s.rpos.toNat) s with
      | done t => dsimp only; split_ifs <;> exact ⟨_, rfl⟩
      | raised c t => exact ⟨_, rfl⟩
      | outside f => exact absurd hg (walkLoop_ne_outside hs f)

/-- Any command ends in a next state of a block that meets the invariants, locked or not (R284, R285). -/
theorem exec_next {s : State} (i : Instr) (hs : StateOk s) : ∃ t, exec i s = .next t := by
  by_cases hi : i = .sysReset
  · exact ⟨_, hi ▸ exec_sysReset s⟩
  cases hl : s.flag .errf with
  | true => exact ⟨_, exec_locked hl hi⟩
  | false =>
    cases hw : i.wf with
    | true => exact exec_next_of_wf hs hl hw
    | false => exact ⟨_, exec_illFormed hl hw⟩

/-- So does any command word, legal or not (R285). -/
theorem runWord_next {s : State} (w : Word) (hs : StateOk s) : ∃ t, runWord w s = .next t := by
  cases hd : decode w with
  | some i => rw [runWord_decoded s hd]; exact exec_next i hs
  | none => rw [runWord_undecoded hd]; split_ifs <;> exact ⟨_, rfl⟩

/-- Settles O54: a command word ends in a next state (`runWord_next`), and so does every other operation. -/
theorem invariantStatesNeverStop : Obligations.InvariantStatesNeverStop := by
  intro s hs
  rcases hp : s.pending with _ | ⟨op, rest⟩
  · exact ⟨_, step_idle hp⟩
  · cases op with
    | cmd w => rw [step_cmd hp]; exact runWord_next w (stateOk_issued hs rest _)
    | read space idx => exact ⟨_, step_read hp⟩
    | write space idx v => exact ⟨_, step_write hp⟩

end Sys2Proof.Machine

/-! ## The words of the commands and the illegal words (30_encoding.md R90 to R95) -/

namespace Sys2Proof

/-! ### A command and its word -/

/-- A word decodes to the command its fields name. -/
theorem decode_eq_some {w : Word} {i : Instr} : decode w = some i ↔ decodeFields (splitWord w) = .ok i := by
  unfold decode decodeNamed
  cases decodeFields (splitWord w) <;> simp [Except.toOption]

/-- The row of a command (R92) accepts the command's fields exactly when its operands are in range (R91). -/
theorem decodeFields_fields {i : Instr} : decodeFields i.fields = .ok i ↔ i.WellFormed := by
  cases i with
  | bswPutbits n v => exact decodePutbits_ok.trans (and_iff_left rfl)
  | bsrGetbits n | bsrTrim p => exact decodeA_ok.trans ((and_iff_right rfl).trans (and_iff_left rfl))
  | _ => exact iff_of_true rfl rfl

/-- The word of a command decodes to it exactly when the command is well-formed (R94). -/
theorem decode_encode {i : Instr} : decode (encode i) = some i ↔ i.WellFormed := by
  rw [decode_eq_some, encode, splitWord_joinFields, decodeFields_fields]

/-- Settles O1: the row of the command accepts its fields (`decodeFields_fields`). -/
theorem decodeOfEncode : Obligations.DecodeOfEncode := fun _ => decode_encode.2

/-- Settles O2: the word is the word of its command (`encode_of_decode`), which decodes only if well-formed. -/
theorem encodeOfDecode : Obligations.EncodeOfDecode := by
  intro w i h
  have hw : encode i = w := encode_of_decode h
  exact ⟨decode_encode.1 (hw ▸ h), hw⟩

/-! ### The illegal words -/

/-- Items (a) to (f) of R95, of the numbers UNIT, OP, A, B. -/
def IllegalNumbers (u o a b : Nat) : Prop :=
  6 ≤ u
  ∨ (u = 0 ∧ 2 ≤ o ∨ u = 1 ∧ 2 ≤ o ∨ u = 2 ∧ 1 ≤ o ∨ u = 3 ∧ 4 ≤ o ∨ u = 4 ∧ 3 ≤ o ∨ u = 5 ∧ 3 ≤ o)
  ∨ (b ≠ 0 ∧ ¬ (u = 3 ∧ o = 1)
      ∨ a ≠ 0 ∧ ¬ (u = 3 ∧ o = 1 ∨ u = 3 ∧ o = 2 ∨ u = 4 ∧ o = 1 ∨ u = 4 ∧ o = 2))
  ∨ (u = 3 ∧ o = 1 ∧ (16 < a ∨ 2 ^ a ≤ b))
  ∨ (u = 4 ∧ o = 1 ∧ 16 < a)
  ∨ (u = 4 ∧ o = 2 ∧ 7 < a)

/-- A check of a row rejects what breaks it, besides what the rest of the row rejects. -/
theorem toOption_ite_eq_none {c : Prop} [Decidable c] {x : Except Illegal Instr} {e : Illegal} :
    (if c then x else .error e).toOption = none ↔ (c → x.toOption = none) := by
  by_cases h : c <;> simp [h, Except.toOption]

/-- A row without operands rejects a nonzero A or B (R95 c). -/
theorem decodeBare_rejects {f : Fields} {i : Instr} :
    (decodeBare f i).toOption = none ↔ f.b.toNat ≠ 0 ∨ f.a.toNat ≠ 0 := by
  rw [decodeBare, toOption_ite_eq_none]
  simp only [Except.toOption, reduceCtorEq, imp_false]
  bv_omega

/-- A row with the operand A rejects a nonzero B (R95 c) and an A out of range. -/
theorem decodeA_rejects {f : Fields} {i : Instr} {r : Bool} {out : Illegal} :
    (decodeA f i r out).toOption = none ↔ f.b.toNat ≠ 0 ∨ r = false := by
  rw [decodeA, toOption_ite_eq_none, toOption_ite_eq_none, imp_iff_not_or]
  simp [Except.toOption, BitVec.toNat_eq]

/-- BSW_PUTBITS rejects the operands of R95 d. -/
theorem decodePutbits_rejects {f : Fields} :
    (decodePutbits f).toOption = none ↔ 16 < f.a.toNat ∨ 2 ^ f.a.toNat ≤ f.b.toNat := by
  rw [decodePutbits, toOption_ite_eq_none]
  simp [Except.toOption, wfPutbits, imp_iff_not_or]

/-- The opcode map rejects exactly the fields of R95, row by row. -/
theorem decodeFields_rejects (f : Fields) :
    (decodeFields f).toOption = none ↔ IllegalNumbers f.unit.toNat f.op.toNat f.a.toNat f.b.toNat := by
  unfold decodeFields
  split
  case h_7 hu ho => simp [decodePutbits_rejects, IllegalNumbers, hu, ho]
  case h_8 hu ho => simp [decodeA_rejects, IllegalNumbers, hu, ho]
  case h_11 hu ho => simp [decodeA_rejects, wfGetbits, IllegalNumbers, hu, ho]
  case h_12 hu ho => simp [decodeA_rejects, wfTrim, IllegalNumbers, hu, ho]
  case h_16 => -- UNIT and OP name no row: items (a) and (b)
    refine iff_of_true rfl (or_assoc.1 (.inl ?_))
    by_cases hu : 6 ≤ f.unit.toNat
    · exact .inl hu
    · interval_cases f.unit.toNat <;> simp_all <;> omega
  all_goals
    rename_i hu ho
    simp [decodeBare_rejects, IllegalNumbers, hu, ho]

/-- A word is illegal exactly when the numbers of its fields are (R94, R95). -/
theorem decode_eq_none (w : Word) : decode w = none ↔
    IllegalNumbers (w.toNat / 2 ^ 28) (w.toNat / 2 ^ 24 % 16) (w.toNat / 2 ^ 16 % 256) (w.toNat % 2 ^ 16) := by
  rw [decode, decodeNamed, decodeFields_rejects, splitWord, Machine.unit_toNat]
  simp only [BitVec.extractLsb'_toNat, Nat.shiftRight_eq_div_pow, pow_zero, Nat.div_one, Nat.reducePow]

/-- Settles O3: an undecoded word of an unlocked block is the illegal command (`Machine.runWord_undecoded`), and the
opcode map rejects exactly the words of R95 (`decode_eq_none`). -/
theorem illegalWordsFault : Obligations.IllegalWordsFault := by
  refine ⟨fun w s hu hd => (Machine.runWord_undecoded hd).trans (if_neg (ne_true_of_eq_false hu)), ?_⟩
  rintro w _ _ _ _ rfl rfl rfl rfl
  exact decode_eq_none w

/-- Settles O4: eight closed words, run through the decoder. -/
theorem specWordsDecode : Obligations.SpecWordsDecode := by
  unfold Obligations.SpecWordsDecode
  decide

end Sys2Proof

namespace Sys2Proof.Machine

/-! ### SYS_NOP -/

/-- Settles O19: the closed word is run through the decoder, an unlocked block responds OK with value 0 and
is otherwise unchanged (`exec_sysNop`), and a locked one answers as to every command but SYS_RESET (`exec_locked`). -/
theorem sysNopDoesNothing : Obligations.SysNopDoesNothing := by
  refine ⟨by decide, fun s => ⟨fun hu => ?_, fun hl => ?_⟩⟩
  · exact exec_sysNop hu
  · exact exec_locked hl nofun

end Sys2Proof.Machine

/-! ## The tree builder (41_tree_builder.md): the counted symbols, the order of candidates, the merging, and what the
tree it builds is -/

namespace Sys2Proof.Machine

/-! ### The counted symbols (R131) -/

theorem mem_allSyms (k : Sym) : k ∈ allSyms :=
  List.mem_map.2 ⟨k.toNat, List.mem_range.2 k.isLt, by simp⟩

theorem nodup_allSyms : allSyms.Nodup := by
  refine List.Nodup.map_on (fun a ha b hb h => ?_) List.nodup_range
  simpa [Nat.mod_eq_of_lt (List.mem_range.1 ha), Nat.mod_eq_of_lt (List.mem_range.1 hb)] using congrArg BitVec.toNat h

theorem mem_countedSyms {s : State} {k : Sym} : k ∈ countedSyms s.freq ↔ freqAt s k ≠ 0 := by
  simp [countedSyms, mem_allSyms, freqAt]

theorem nodup_countedSyms (f : Vector Weight 256) : (countedSyms f).Nodup := nodup_allSyms.filter _

/-- The symbols with a nonzero count, as a set. -/
def counted (s : State) : Finset Sym := Finset.univ.filter (fun k => freqAt s k ≠ 0)

@[simp] theorem mem_counted {s : State} {k : Sym} : k ∈ counted s ↔ freqAt s k ≠ 0 := by simp [counted]

theorem countedSyms_toFinset (s : State) : (countedSyms s.freq).toFinset = counted s := by
  ext k
  rw [List.mem_toFinset, mem_countedSyms, mem_counted]

/-- K of R131 is the number of nonzero counts. -/
theorem countedSyms_length (s : State) : (countedSyms s.freq).length = (counted s).card := by
  rw [← countedSyms_toFinset, List.toFinset_card_of_nodup (nodup_countedSyms _)]

/-- A sum over the counted symbols, as the list the builder goes through gives it. -/
theorem sum_countedSyms {M : Type} [AddCommMonoid M] (s : State) (g : Sym → M) :
    ((countedSyms s.freq).map g).sum = ∑ k ∈ counted s, g k := by
  rw [← countedSyms_toFinset, List.sum_toFinset _ (nodup_countedSyms _)]

/-- TOTAL of R131 is the sum of the counts. -/
theorem totalCount_eq (s : State) : totalCount s.freq = ∑ k : Sym, (freqAt s k).toNat := by
  have huniv : allSyms.toFinset = Finset.univ := Finset.eq_univ_of_forall fun k => List.mem_toFinset.2 (mem_allSyms k)
  rw [← huniv, List.sum_toFinset _ nodup_allSyms]
  rfl

/-- The counts that are 0 add nothing to the sum. -/
theorem sum_counted (s : State) : ∑ k ∈ counted s, (freqAt s k).toNat = ∑ k : Sym, (freqAt s k).toNat := by
  refine Finset.sum_subset (Finset.subset_univ _) fun k _ hk => ?_
  rw [not_not.1 (mt mem_counted.2 hk)]
  rfl

/-! ### TB_CLRF, and the tables TB_BUILD refuses (R136 to R138) -/

theorem exec_tbBuild_of_empty {s : State} (hu : Unlocked s) (h : ∀ k : Sym, freqAt s k = 0) :
    exec .tbBuild s = .next (raiseFault .emptyTable (encode .tbBuild) s) := by
  have hempty : counted s = ∅ := Finset.filter_eq_empty_iff.2 fun k _ => not_not.2 (h k)
  rw [exec_tbBuild hu, countedSyms_length, hempty, Finset.card_empty, if_pos rfl]

/-- A table with a nonzero count passes the first check of TB_BUILD. -/
theorem countedSyms_length_ne_zero {s : State} (h : ∃ k : Sym, freqAt s k ≠ 0) : (countedSyms s.freq).length ≠ 0 := by
  obtain ⟨k, hk⟩ := h
  exact (List.length_pos_of_mem (mem_countedSyms.2 hk)).ne'

/-- TB_BUILD on a table it accepts (R131). -/
theorem exec_tbBuild_of_counts {s : State} (hu : Unlocked s) (h : ∃ k : Sym, freqAt s k ≠ 0)
    (hsum : (∑ k : Sym, (freqAt s k).toNat) < 2 ^ 56) :
    exec .tbBuild s = .next (respond ((treeBuilt s).root.setWidth 64) (treeBuilt s)) := by
  rw [exec_tbBuild hu, if_neg (countedSyms_length_ne_zero h), if_neg (by rwa [totalCount_eq, not_le])]

/-- Settles O23: the checks of TB_BUILD come in the order of R286, before anything is written. -/
theorem tbBuildRefusesBadTables : Obligations.TbBuildRefusesBadTables := by
  intro s hu
  refine ⟨exec_tbBuild_of_empty hu, fun h hsum => ?_⟩
  rw [exec_tbBuild hu, if_neg (countedSyms_length_ne_zero h), if_pos (by rwa [totalCount_eq])]

/-- Settles O22: TB_CLRF leaves `noCounts`, which TB_BUILD refuses (`exec_tbBuild_of_empty`). -/
theorem tbClrfClearsCounts : Obligations.TbClrfClearsCounts := by
  refine ⟨by decide, fun s hu => ⟨_, exec_tbClrf hu, ?_⟩⟩
  have hzero : ∀ k : Sym, freqAt (respond 0 { s with freq := noCounts }) k = 0 := fun k => Vector.getElem_replicate _
  exact ⟨hzero, rfl, exec_tbBuild_of_empty hu hzero⟩

/-! ### The order of candidates (R132) -/

/-- The weight of a node as a number. -/
def weightAt (m : Vector Node 512) (i : NodeIdx) : Nat := (nodeOf m i).weight.toNat

/-- The order of R132 is the order of the pairs (weight, index). -/
theorem comesBefore_iff {m : Vector Node 512} {i j : NodeIdx} : comesBefore m i j = true ↔
    weightAt m i < weightAt m j ∨ weightAt m i = weightAt m j ∧ i.toNat < j.toNat := by
  simp only [comesBefore, Bool.or_eq_true, Bool.and_eq_true, decide_eq_true_eq, BitVec.lt_def, BitVec.toNat_eq,
    weightAt]

theorem comesBefore_irrefl (m : Vector Node 512) (i : NodeIdx) : comesBefore m i i = false := by
  rw [Bool.eq_false_iff, ne_eq, comesBefore_iff]
  omega

theorem comesBefore_trans {m : Vector Node 512} {i j k : NodeIdx} (hij : comesBefore m i j = true)
    (hjk : comesBefore m j k = true) : comesBefore m i k = true := by
  rw [comesBefore_iff] at *
  omega

theorem comesBefore_total {m : Vector Node 512} {i j : NodeIdx} (h : i ≠ j) :
    comesBefore m i j = true ∨ comesBefore m j i = true := by
  have hne : i.toNat ≠ j.toNat := mt BitVec.eq_of_toNat_eq h
  rw [comesBefore_iff, comesBefore_iff]
  omega

theorem weightAt_le_of_comesBefore {m : Vector Node 512} {i j : NodeIdx} (h : comesBefore m i j = true) :
    weightAt m i ≤ weightAt m j := by
  obtain hlt | ⟨heq, -⟩ := comesBefore_iff.1 h
  · exact hlt.le
  · exact heq.le

theorem leastOf_mem (m : Vector Node 512) (a : NodeIdx) (l : List NodeIdx) : leastOf m a l ∈ a :: l := by
  induction l generalizing a with
  | nil => exact List.mem_singleton_self a
  | cons b l ih =>
    obtain h | h := List.mem_cons.1 (ih (if comesBefore m b a then b else a))
    · rw [leastOf, h]
      split_ifs <;> simp
    · exact List.mem_cons_of_mem _ (List.mem_cons_of_mem _ h)

/-- `leastOf` comes before every other member (R132). -/
theorem leastOf_comesBefore (m : Vector Node 512) (a : NodeIdx) (l : List NodeIdx) :
    ∀ x ∈ a :: l, x ≠ leastOf m a l → comesBefore m (leastOf m a l) x = true := by
  induction l generalizing a with
  | nil => exact fun x hx hne => absurd (List.mem_singleton.1 hx) hne
  | cons b l ih =>
    -- the member the search goes on with, `c`, is one of `a` and `b`, and no other of the two comes before it
    obtain ⟨c, hc⟩ : ∃ c, c = if comesBefore m b a then b else a := ⟨_, rfl⟩
    have hbefore : ∀ x ∈ [a, b], x ≠ c → comesBefore m c x = true := by
      intro x hx hxc
      by_cases hba : comesBefore m b a = true
      · rw [if_pos hba] at hc
        have hxa : x = a := by simpa [← hc, hxc] using hx
        rwa [hc, hxa]
      · rw [if_neg hba] at hc
        have hxb : x = b := by simpa [← hc, hxc] using hx
        rw [hc, hxb]
        exact (comesBefore_total (hc ▸ hxb ▸ hxc)).resolve_left hba
    intro x hx hne
    rw [leastOf, ← hc] at hne ⊢
    by_cases hxc : x ∈ c :: l
    · exact ih c x hxc hne
    · have hcx : comesBefore m c x = true := by
        refine hbefore x ?_ fun h => hxc (h ▸ List.mem_cons_self)
        simp only [List.mem_cons, not_or] at hx hxc ⊢
        tauto
      by_cases hcl : c = leastOf m c l
      · rwa [← hcl]
      · exact comesBefore_trans (ih c c List.mem_cons_self hcl) hcx

/-- Settles O25: the order is that of (weight, index) (`comesBefore_iff`), and `leastOf` keeps the least member seen. -/
theorem leastCandidateIsUnique : Obligations.LeastCandidateIsUnique := fun m =>
  ⟨fun _ _ => comesBefore_iff, comesBefore_irrefl m, fun _ _ _ => comesBefore_trans, fun _ _ => comesBefore_total,
    fun a l => ⟨leastOf_mem m a l, leastOf_comesBefore m a l⟩⟩

/-! ### One merge (R131) -/

/-- `a` is the least member of a set of candidates (R132). -/
def Least (m : Vector Node 512) (act : Finset NodeIdx) (a : NodeIdx) : Prop :=
  a ∈ act ∧ ∀ i ∈ act, i ≠ a → comesBefore m a i = true

theorem least_leastOf (m : Vector Node 512) (x : NodeIdx) (xs : List NodeIdx) :
    Least m (x :: xs).toFinset (leastOf m x xs) :=
  ⟨List.mem_toFinset.2 (leastOf_mem m x xs), fun i hi => leastOf_comesBefore m x xs i (List.mem_toFinset.1 hi)⟩

theorem Least.weightAt_le {m : Vector Node 512} {act : Finset NodeIdx} {a i : NodeIdx} (h : Least m act a)
    (hi : i ∈ act) : weightAt m a ≤ weightAt m i := by
  by_cases hia : i = a
  · rw [hia]
  · exact weightAt_le_of_comesBefore (h.2 i hi hia)

/-- The candidates after `a` and `b` are merged into the node at `next`. -/
abbrev afterMerge (act : Finset NodeIdx) (next : Nat) (a b : NodeIdx) : Finset NodeIdx :=
  insert (BitVec.ofNat 9 next) ((act.erase a).erase b)

/-- A merge of the relation `Merging`, its least two named by `Least`. -/
theorem Merging.of_least {m m' : Vector Node 512} {act : Finset NodeIdx} {next : Nat} {a b r : NodeIdx}
    (ha : Least m act a) (hb : Least m (act.erase a) b)
    (rest : Merging (putNode m (BitVec.ofNat 9 next) (mergedNode m a b)) (afterMerge act next a b) (next + 1) m' r) :
    Merging m act next m' r :=
  .merge m m' act next a b r ha.1 ha.2 (Finset.mem_of_mem_erase hb.1) (Finset.ne_of_mem_erase hb.1)
    (fun i hi hia => hb.2 i (Finset.mem_erase.2 ⟨hia, hi⟩)) rest

/-- Induction over the merges of the relation `Merging`, their least two named by `Least`. -/
theorem Merging.least_induction {motive : ∀ {m m' : Vector Node 512} {act : Finset NodeIdx} {next : Nat}
      {r : NodeIdx}, Merging m act next m' r → Prop}
    (done : ∀ (m : Vector Node 512) (r : NodeIdx) (next : Nat), motive (.done m r next))
    (merge : ∀ {m m' : Vector Node 512} {act : Finset NodeIdx} {next : Nat} {a b r : NodeIdx} (ha : Least m act a)
      (hb : Least m (act.erase a) b)
      (rest : Merging (putNode m (BitVec.ofNat 9 next) (mergedNode m a b)) (afterMerge act next a b) (next + 1) m' r),
      motive rest → motive (.of_least ha hb rest))
    {m m' : Vector Node 512} {act : Finset NodeIdx} {next : Nat} {r : NodeIdx} (h : Merging m act next m' r) :
    motive h := by
  induction h with
  | done m r next => exact done m r next
  | merge m m' act next a b r ha hmin hb hab hmin' rest ih =>
    exact merge (a := a) (b := b) ⟨ha, hmin⟩ ⟨Finset.mem_erase.2 ⟨hab, hb⟩, fun i hi hib =>
      hmin' i (Finset.mem_of_mem_erase hi) (Finset.ne_of_mem_erase hi) hib⟩ rest ih

/-- The candidates are below `next`, and NODE has room for every merge from there on. -/
structure Numbered (act : Finset NodeIdx) (next : Nat) : Prop where
  below : ∀ i ∈ act, i.toNat < next
  room : next + act.card ≤ 513

section
variable {act : Finset NodeIdx} {next : Nat} {a b : NodeIdx}

theorem Numbered.next_toNat (h : Numbered act next) (ha : a ∈ act) (hb : b ∈ act.erase a) :
    (BitVec.ofNat 9 next : NodeIdx).toNat = next := by
  have hcard : 1 < act.card := Finset.one_lt_card.2 ⟨b, Finset.mem_of_mem_erase hb, a, ha, Finset.ne_of_mem_erase hb⟩
  have hroom := h.room
  rw [BitVec.toNat_ofNat, Nat.mod_eq_of_lt (by omega)]

theorem Numbered.next_not_mem (h : Numbered act next) (ha : a ∈ act) (hb : b ∈ act.erase a) :
    BitVec.ofNat 9 next ∉ act :=
  fun hn => (h.below _ hn).ne (h.next_toNat ha hb)

theorem Numbered.next_not_mem_erase (h : Numbered act next) (ha : a ∈ act) (hb : b ∈ act.erase a) :
    BitVec.ofNat 9 next ∉ (act.erase a).erase b :=
  fun hn => h.next_not_mem ha hb (Finset.mem_of_mem_erase (Finset.mem_of_mem_erase hn))

/-- A merge makes the candidates one fewer. -/
theorem Numbered.card_afterMerge (h : Numbered act next) (ha : a ∈ act) (hb : b ∈ act.erase a) :
    (afterMerge act next a b).card + 1 = act.card := by
  rw [Finset.card_insert_of_notMem (h.next_not_mem_erase ha hb), Finset.card_erase_add_one hb,
    Finset.card_erase_add_one ha]

theorem Numbered.merge (h : Numbered act next) (ha : a ∈ act) (hb : b ∈ act.erase a) :
    Numbered (afterMerge act next a b) (next + 1) where
  below i hi := by
    obtain rfl | hi := Finset.mem_insert.1 hi
    · exact (h.next_toNat ha hb).trans_lt (Nat.lt_succ_self next)
    · exact (h.below i (Finset.mem_of_mem_erase (Finset.mem_of_mem_erase hi))).trans (Nat.lt_succ_self next)
  room := by
    have hcard := h.card_afterMerge ha hb
    have hroom := h.room
    omega

/-- A sum over the candidates is unchanged by a merge when the new node stands for what the two merged stood for. -/
theorem Numbered.sum_afterMerge {M : Type} [AddCommMonoid M] (h : Numbered act next) (ha : a ∈ act)
    (hb : b ∈ act.erase a) {g g' : NodeIdx → M} (hnew : g' (BitVec.ofNat 9 next) = g a + g b)
    (hold : ∀ i ∈ act, g' i = g i) : ∑ i ∈ afterMerge act next a b, g' i = ∑ i ∈ act, g i := by
  rw [Finset.sum_insert (h.next_not_mem_erase ha hb), hnew, add_assoc,
    Finset.sum_congr rfl fun i hi => hold i (Finset.mem_of_mem_erase (Finset.mem_of_mem_erase hi)),
    Finset.add_sum_erase _ g hb, Finset.add_sum_erase _ g ha]

end

/-! ### The merge loop (R131) -/

/-- Taking a member out of a list without repetitions takes it out of the set. -/
theorem toFinset_erase_of_nodup {l : List NodeIdx} (h : l.Nodup) (a : NodeIdx) :
    (l.erase a).toFinset = l.toFinset.erase a := by
  ext x
  simp [h.mem_erase_iff]

/-- The merge loop with one candidate left. -/
theorem mergeLoop_last {fuel : Nat} {m : Vector Node 512} {x next : NodeIdx} {xs : List NodeIdx}
    (h : (x :: xs).erase (leastOf m x xs) = []) : mergeLoop (fuel + 1) m (x :: xs) next = (m, leastOf m x xs) := by
  simp only [mergeLoop, h]

/-- The merge loop with two candidates or more. -/
theorem mergeLoop_merge {fuel : Nat} {m : Vector Node 512} {x y next : NodeIdx} {xs ys : List NodeIdx}
    (h : (x :: xs).erase (leastOf m x xs) = y :: ys) : mergeLoop (fuel + 1) m (x :: xs) next =
      mergeLoop fuel (putNode m next (mergedNode m (leastOf m x xs) (leastOf m y ys)))
        ((y :: ys).erase (leastOf m y ys) ++ [next]) (next + 1) := by
  simp only [mergeLoop, h]

/-- The merge loop is the merging of R131: with fuel for its candidates it ends with the one that is left. -/
theorem mergeLoop_merging {fuel : Nat} {m : Vector Node 512} {act : List NodeIdx} {next : Nat} (hnd : act.Nodup)
    (hne : act ≠ []) (hfuel : act.length ≤ fuel) (hn : Numbered act.toFinset next) : Merging m act.toFinset next
      (mergeLoop fuel m act (BitVec.ofNat 9 next)).1 (mergeLoop fuel m act (BitVec.ofNat 9 next)).2 := by
  induction fuel generalizing m act next with
  | zero => exact absurd (List.length_eq_zero_iff.1 (Nat.le_zero.1 hfuel)) hne
  | succ fuel ih =>
    obtain ⟨x, xs, rfl⟩ := List.exists_cons_of_ne_nil hne
    have ha := least_leastOf m x xs
    rcases hrest : (x :: xs).erase (leastOf m x xs) with _ | ⟨y, ys⟩
    · rw [mergeLoop_last hrest, ← Finset.insert_erase ha.1, ← toFinset_erase_of_nodup hnd, hrest]
      exact .done m _ next
    · have hset : (y :: ys).toFinset = (x :: xs).toFinset.erase (leastOf m x xs) := by
        rw [← hrest, toFinset_erase_of_nodup hnd]
      have hnd' : (y :: ys).Nodup := hrest ▸ hnd.erase _
      have hb : Least m ((x :: xs).toFinset.erase (leastOf m x xs)) (leastOf m y ys) := hset ▸ least_leastOf m y ys
      have hset' : ((y :: ys).erase (leastOf m y ys) ++ [BitVec.ofNat 9 next]).toFinset
          = afterMerge (x :: xs).toFinset next (leastOf m x xs) (leastOf m y ys) := by
        rw [List.toFinset_append, toFinset_erase_of_nodup hnd', hset, Finset.union_comm]
        rfl
      have hlen : ((y :: ys).erase (leastOf m y ys)).length + 1 ≤ fuel := by
        have hxs := List.length_erase_of_mem (leastOf_mem m x xs)
        rw [hrest] at hxs
        rw [List.length_erase_of_mem (leastOf_mem m y ys)]
        simp only [List.length_cons] at hxs hfuel ⊢
        omega
      have hnew : ((y :: ys).erase (leastOf m y ys) ++ [BitVec.ofNat 9 next]).Nodup :=
        (hnd'.erase _).append (List.nodup_singleton _) (List.disjoint_singleton.2 fun hi =>
          hn.next_not_mem_erase ha.1 hb.1 (by
            rwa [← hset, ← toFinset_erase_of_nodup hnd', List.mem_toFinset]))
      rw [mergeLoop_merge hrest]
      refine .of_least ha hb (hset' ▸ ?_)
      have hnext : (BitVec.ofNat 9 next : NodeIdx) + 1 = BitVec.ofNat 9 (next + 1) := (BitVec.ofNat_add next 1).symm
      rw [hnext]
      exact ih hnew (by simp) (by simpa using hlen) (hset' ▸ hn.merge ha.1 hb.1)

/-! ### What the merging starts from (R131, R133) -/

theorem leafIdx_toNat (k : Sym) : (leafIdx k).toNat = k.toNat := BitVec.toNat_setWidth_of_le (by decide)

theorem leafIdx_injective : Function.Injective leafIdx := fun j k h =>
  BitVec.eq_of_toNat_eq (by rw [← leafIdx_toNat j, h, leafIdx_toNat])

theorem leafIdx_ne_placeholderIdx (k : Sym) : leafIdx k ≠ placeholderIdx := fun h =>
  k.isLt.ne ((leafIdx_toNat k).symm.trans (congrArg BitVec.toNat h))

/-- The leaves of some symbols put into NODE, one after the other (R131). -/
def putLeaves (f : Vector Weight 256) (l : List Sym) (m : Vector Node 512) : Vector Node 512 :=
  l.foldl (fun m k => putNode m (leafIdx k) (leafNode k (f[k.toNat]'(k.isLt)))) m

theorem nodeOf_putLeaves_of_ne (f : Vector Weight 256) (l : List Sym) (m : Vector Node 512) {i : NodeIdx}
    (h : ∀ k ∈ l, i ≠ leafIdx k) : nodeOf (putLeaves f l m) i = nodeOf m i := by
  induction l generalizing m with
  | nil => rfl
  | cons k l ih =>
    obtain ⟨hk, hl⟩ := List.forall_mem_cons.1 h
    exact (ih _ hl).trans (by rw [nodeOf_putNode, if_neg hk])

theorem nodeOf_putLeaves_leafIdx (f : Vector Weight 256) (l : List Sym) (m : Vector Node 512) {k : Sym} (h : k ∈ l) :
    nodeOf (putLeaves f l m) (leafIdx k) = leafNode k (f[k.toNat]'(k.isLt)) := by
  induction l generalizing m with
  | nil => exact absurd h List.not_mem_nil
  | cons j l ih =>
    by_cases hl : k ∈ l
    · exact ih _ hl
    · obtain rfl : k = j := (List.mem_cons.1 h).resolve_right hl
      refine (nodeOf_putLeaves_of_ne f l _ fun i hi e => hl (by rwa [leafIdx_injective e])).trans ?_
      rw [nodeOf_putNode, if_pos rfl]

/-- NODE as the merging finds it: the leaves, and the placeholder beside a single one. -/
theorem leafNodes_eq (s : State) : leafNodes s.freq = if (counted s).card = 1
    then putNode (putLeaves s.freq (countedSyms s.freq) noNodes) placeholderIdx placeholderNode
    else putLeaves s.freq (countedSyms s.freq) noNodes := by
  rw [← countedSyms_length]
  rfl

theorem nodeOf_leafNodes_leafIdx {s : State} {k : Sym} (h : freqAt s k ≠ 0) :
    nodeOf (leafNodes s.freq) (leafIdx k) = leafNode k (freqAt s k) := by
  have hleaf := nodeOf_putLeaves_leafIdx s.freq _ noNodes (mem_countedSyms.2 h)
  rw [leafNodes_eq]
  split_ifs
  · rw [nodeOf_putNode, if_neg (leafIdx_ne_placeholderIdx k), hleaf]; rfl
  · exact hleaf

theorem nodeOf_leafNodes_placeholderIdx {s : State} (h : (counted s).card = 1) :
    nodeOf (leafNodes s.freq) placeholderIdx = placeholderNode := by
  rw [leafNodes_eq, if_pos h, nodeOf_putNode, if_pos rfl]

/-- The candidates the merging starts from, as a set. -/
def candidates (s : State) : Finset NodeIdx := (firstCandidates s.freq).toFinset

theorem mem_candidates {s : State} {i : NodeIdx} : i ∈ candidates s ↔
    (∃ k, freqAt s k ≠ 0 ∧ leafIdx k = i) ∨ (counted s).card = 1 ∧ i = placeholderIdx := by
  rw [candidates, List.mem_toFinset, firstCandidates, List.mem_append, countedSyms_length, List.mem_map]
  simp only [mem_countedSyms]
  split_ifs with h <;> simp [h]

theorem leafIdx_mem_candidates {s : State} {k : Sym} (h : freqAt s k ≠ 0) : leafIdx k ∈ candidates s :=
  mem_candidates.2 (.inl ⟨k, h, rfl⟩)

theorem placeholderIdx_mem_candidates {s : State} (h : (counted s).card = 1) : placeholderIdx ∈ candidates s :=
  mem_candidates.2 (.inr ⟨h, rfl⟩)

/-- Every other entry of NODE is free. -/
theorem nodeOf_leafNodes_of_not_mem {s : State} {i : NodeIdx} (h : i ∉ candidates s) :
    nodeOf (leafNodes s.freq) i = Node.zero := by
  rw [mem_candidates, not_or] at h
  obtain ⟨hleaf, hph⟩ := h
  have hnone : nodeOf (putLeaves s.freq (countedSyms s.freq) noNodes) i = Node.zero :=
    (nodeOf_putLeaves_of_ne _ _ _ fun k hk e => hleaf ⟨k, mem_countedSyms.1 hk, e.symm⟩).trans
      (Vector.getElem_replicate _)
  rw [leafNodes_eq]
  split_ifs with hone
  · rwa [nodeOf_putNode, if_neg fun e => hph ⟨hone, e⟩]
  · exact hnone

theorem nodup_firstCandidates (s : State) : (firstCandidates s.freq).Nodup := by
  refine ((nodup_countedSyms s.freq).map leafIdx_injective).append (by split_ifs <;> simp) fun i hleaf hph => ?_
  obtain ⟨k, -, rfl⟩ := List.mem_map.1 hleaf
  split_ifs at hph
  · exact leafIdx_ne_placeholderIdx k (List.mem_singleton.1 hph)
  · exact List.not_mem_nil hph

/-- A sum over the candidates is one over the counted symbols, and the placeholder where there is one. -/
theorem sum_candidates {M : Type} [AddCommMonoid M] (s : State) (g : NodeIdx → M) : ∑ i ∈ candidates s, g i =
    ∑ k ∈ counted s, g (leafIdx k) + if (counted s).card = 1 then g placeholderIdx else 0 := by
  rw [candidates, List.sum_toFinset _ (nodup_firstCandidates s), firstCandidates, List.map_append, List.sum_append,
    List.map_map, sum_countedSyms, countedSyms_length]
  split_ifs <;> simp

/-- L of R134: the counted symbols, and the placeholder where there is one. -/
theorem card_candidates {s : State} (h : ∃ k : Sym, freqAt s k ≠ 0) :
    (candidates s).card = max 2 (counted s).card := by
  obtain ⟨k, hk⟩ := h
  have hpos : 0 < (counted s).card := Finset.card_pos.2 ⟨k, mem_counted.2 hk⟩
  have hsum := sum_candidates s fun _ => 1
  simp only [Finset.sum_const, smul_eq_mul, mul_one] at hsum
  split_ifs at hsum <;> omega

theorem card_counted_le (s : State) : (counted s).card ≤ 256 :=
  countedSyms_length s ▸ (List.length_filter_le _ _).trans (by simp [allSyms])

theorem numbered_candidates {s : State} (h : ∃ k : Sym, freqAt s k ≠ 0) : Numbered (candidates s) 257 where
  below i hi := by
    obtain ⟨k, -, rfl⟩ | ⟨-, rfl⟩ := mem_candidates.1 hi
    · rw [leafIdx_toNat]; exact k.isLt.trans (by decide)
    · decide
  room := by
    have hle := card_counted_le s
    rw [card_candidates h]
    omega

/-- The tree TB_BUILD builds is the merging of R131 from its leaves. -/
theorem buildTree_merging {s : State} (h : ∃ k : Sym, freqAt s k ≠ 0) :
    Merging (leafNodes s.freq) (candidates s) 257 (buildTree s.freq).1 (buildTree s.freq).2 := by
  obtain ⟨k, hk⟩ := h
  have hne : firstCandidates s.freq ≠ [] := List.ne_nil_of_mem (List.mem_toFinset.1 (leafIdx_mem_candidates hk))
  exact mergeLoop_merging (nodup_firstCandidates s) hne le_rfl (numbered_candidates ⟨k, hk⟩)

/-- There is one symbol exactly when one count is nonzero (R133). -/
theorem card_counted_eq_one {s : State} : (counted s).card = 1 ↔ ∃ k : Sym, ∀ j : Sym, freqAt s j ≠ 0 ↔ j = k := by
  simp only [Finset.card_eq_one, Finset.ext_iff, mem_counted, Finset.mem_singleton]

/-- Settles O24: the loop is the merging of the rule (`buildTree_merging`), which starts from `leafNodes`. -/
theorem tbBuildMergesTheLeastTwo : Obligations.TbBuildMergesTheLeastTwo := by
  intro s hu h hsum
  refine ⟨_, leafNodes s.freq, candidates s, exec_tbBuild_of_counts hu h hsum, rfl, rfl, by simp, by simp, by simp,
    by simp, by simp, buildTree_merging h, fun k hk => ⟨leafIdx_mem_candidates hk, nodeOf_leafNodes_leafIdx hk⟩,
    fun i hi => ?_, fun hone => ?_, fun i hi => nodeOf_leafNodes_of_not_mem hi⟩
  · obtain ⟨k, hk, rfl⟩ | ⟨hone, rfl⟩ := mem_candidates.1 hi
    · exact .inl ⟨k, rfl, hk⟩
    · exact .inr ⟨rfl, card_counted_eq_one.1 hone⟩
  · rw [← card_counted_eq_one] at hone
    exact ⟨placeholderIdx_mem_candidates hone, nodeOf_leafNodes_placeholderIdx hone⟩

/-! ### What the merging makes (R134) -/

section
variable {m m' : Vector Node 512} {act : Finset NodeIdx} {next : Nat} {a b r : NodeIdx}

/-- The merging writes no entry but one for each merge, from `next` on. -/
theorem Merging.keeps (h : Merging m act next m' r) (hn : Numbered act next) {i : NodeIdx}
    (hi : i.toNat < next ∨ next + act.card < i.toNat + 2) : nodeOf m' i = nodeOf m i := by
  induction h using Merging.least_induction with
  | done => rfl
  | @merge m m' act next a b r ha hb rest ih =>
    have hcard := hn.card_afterMerge ha.1 hb.1
    have hpos : 0 < (afterMerge act next a b).card := Finset.card_pos.2 ⟨_, Finset.mem_insert_self _ _⟩
    have hne : i ≠ BitVec.ofNat 9 next := by
      rintro rfl
      rw [hn.next_toNat ha.1 hb.1] at hi
      omega
    rw [ih (hn.merge ha.1 hb.1) (by omega), nodeOf_putNode, if_neg hne]

/-- The entries the merging writes are internal nodes over nodes of smaller index. -/
theorem Merging.makes (h : Merging m act next m' r) (hn : Numbered act next) {i : NodeIdx} (hlow : next ≤ i.toNat)
    (hhigh : i.toNat + 2 ≤ next + act.card) : (nodeOf m' i).kind = .internal
      ∧ (nodeOf m' i).left.toNat < i.toNat ∧ (nodeOf m' i).right.toNat < i.toNat := by
  induction h using Merging.least_induction with
  | done => rw [Finset.card_singleton] at hhigh; omega
  | @merge m m' act next a b r ha hb rest ih =>
    have hn' := hn.merge ha.1 hb.1
    have hcard := hn.card_afterMerge ha.1 hb.1
    obtain heq | hlt := hlow.eq_or_lt
    · obtain rfl : i = BitVec.ofNat 9 next := BitVec.eq_of_toNat_eq ((hn.next_toNat ha.1 hb.1).trans heq).symm
      rw [rest.keeps hn' (.inl (by omega)), nodeOf_putNode, if_pos rfl, ← heq]
      exact ⟨rfl, hn.below _ ha.1, hn.below _ (Finset.mem_of_mem_erase hb.1)⟩
    · exact ih hn' hlt (by omega)

/-- The root is the node of the last merge, where there is one. -/
theorem Merging.root_toNat (h : Merging m act next m' r) (hn : Numbered act next) :
    act = {r} ∨ r.toNat + 2 = next + act.card := by
  induction h using Merging.least_induction with
  | done => exact .inl rfl
  | @merge m m' act next a b r ha hb rest ih =>
    have hcard := hn.card_afterMerge ha.1 hb.1
    obtain hone | htop := ih (hn.merge ha.1 hb.1)
    · have hr : BitVec.ofNat 9 next = r := Finset.mem_singleton.1 (hone ▸ Finset.mem_insert_self _ _)
      rw [hone, Finset.card_singleton] at hcard
      rw [← hcard, ← hr, hn.next_toNat ha.1 hb.1]
      exact .inr rfl
    · exact .inr (by omega)

theorem weightAt_putNode_of_ne (m : Vector Node 512) {i j : NodeIdx} (n : Node) (h : j ≠ i) :
    weightAt (putNode m i n) j = weightAt m j := by
  rw [weightAt, nodeOf_putNode, if_neg h, weightAt]

/-- The weight of a merged node, where the sum of the weights fits (R134: "no WEIGHT field overflows"). -/
theorem weightAt_mergedNode (ha : a ∈ act) (hb : b ∈ act.erase a)
    (hsum : ∑ i ∈ act, weightAt m i < 2 ^ 56) (n : NodeIdx) :
    weightAt (putNode m n (mergedNode m a b)) n = weightAt m a + weightAt m b := by
  have hle : weightAt m a + weightAt m b < 2 ^ 56 := by
    rw [← Finset.add_sum_erase _ _ ha, ← Finset.add_sum_erase _ _ hb] at hsum
    omega
  rw [weightAt, nodeOf_putNode, if_pos rfl]
  exact (BitVec.toNat_add ..).trans (Nat.mod_eq_of_lt hle)

/-- The candidates but the new one weigh after a merge what they weighed before. -/
theorem weightAt_afterMerge (hn : Numbered act next) (ha : a ∈ act) (hb : b ∈ act.erase a) (n : Node) {i : NodeIdx}
    (hi : i ∈ act) : weightAt (putNode m (BitVec.ofNat 9 next) n) i = weightAt m i :=
  weightAt_putNode_of_ne m n fun h => hn.next_not_mem ha hb (h ▸ hi)

/-- A merge leaves the sum of the candidates' weights as it is. -/
theorem sum_weightAt_afterMerge (hn : Numbered act next) (ha : a ∈ act) (hb : b ∈ act.erase a)
    (hsum : ∑ i ∈ act, weightAt m i < 2 ^ 56) :
    ∑ i ∈ afterMerge act next a b, weightAt (putNode m (BitVec.ofNat 9 next) (mergedNode m a b)) i
      = ∑ i ∈ act, weightAt m i :=
  hn.sum_afterMerge ha hb (weightAt_mergedNode ha hb hsum _) fun _ => weightAt_afterMerge hn ha hb _

/-- The root weighs what the candidates weigh together. -/
theorem Merging.weightAt_root (h : Merging m act next m' r) (hn : Numbered act next)
    (hsum : ∑ i ∈ act, weightAt m i < 2 ^ 56) : weightAt m' r = ∑ i ∈ act, weightAt m i := by
  induction h using Merging.least_induction with
  | done => exact (Finset.sum_singleton _ _).symm
  | @merge m m' act next a b r ha hb rest ih =>
    have hkeep := sum_weightAt_afterMerge hn ha.1 hb.1 hsum
    exact (ih (hn.merge ha.1 hb.1) (hkeep.trans_lt hsum)).trans hkeep

end

/-- The candidates' weights are the counts; the placeholder weighs nothing. -/
theorem sum_weightAt_candidates (s : State) :
    ∑ i ∈ candidates s, weightAt (leafNodes s.freq) i = ∑ k : Sym, (freqAt s k).toNat := by
  have hleaf : ∀ k ∈ counted s, weightAt (leafNodes s.freq) (leafIdx k) = (freqAt s k).toNat := fun k hk => by
    rw [weightAt, nodeOf_leafNodes_leafIdx (mem_counted.1 hk)]; rfl
  rw [sum_candidates, Finset.sum_congr rfl hleaf, sum_counted]
  split_ifs with hone
  · rw [weightAt, nodeOf_leafNodes_placeholderIdx hone]; exact Nat.add_zero _
  · exact Nat.add_zero _

/-- NODE as the merging finds it has leaves at the indices of the counted symbols, and no internal node. -/
theorem kind_leafNodes (s : State) (i : NodeIdx) : (nodeOf (leafNodes s.freq) i).kind ≠ .internal
    ∧ ((nodeOf (leafNodes s.freq) i).kind = .leaf ↔ ∃ k : Sym, i = leafIdx k ∧ freqAt s k ≠ 0) := by
  by_cases hi : i ∈ candidates s
  · obtain ⟨k, hk, rfl⟩ | ⟨hone, rfl⟩ := mem_candidates.1 hi
    · rw [nodeOf_leafNodes_leafIdx hk]
      exact ⟨nofun, iff_of_true rfl ⟨k, rfl, hk⟩⟩
    · rw [nodeOf_leafNodes_placeholderIdx hone]
      exact ⟨nofun, iff_of_false nofun fun ⟨k, e, _⟩ => leafIdx_ne_placeholderIdx k e.symm⟩
  · rw [nodeOf_leafNodes_of_not_mem hi]
    exact ⟨nofun, iff_of_false nofun fun ⟨k, e, hk⟩ => hi (e ▸ leafIdx_mem_candidates hk)⟩

/-- The root TB_BUILD makes is the node of the last merge (R134). -/
theorem buildTree_root_toNat {s : State} (h : ∃ k : Sym, freqAt s k ≠ 0) :
    (buildTree s.freq).2.toNat + 2 = 257 + (candidates s).card := by
  refine ((buildTree_merging h).root_toNat (numbered_candidates h)).resolve_left fun hone => ?_
  have hcard := card_candidates h
  rw [hone, Finset.card_singleton] at hcard
  omega

/-- Settles O27: the merging makes the nodes 257 to 255 + L over smaller ones (`Merging.makes`) and leaves the others
as they were (`Merging.keeps`). -/
theorem builtTreeShape : Obligations.BuiltTreeShape := by
  intro s l hu hsum h hl
  have hm := buildTree_merging h
  have hn := numbered_candidates h
  have hroot := buildTree_root_toNat h
  have hcard : (candidates s).card = l := (card_candidates h).trans hl.symm
  have hkeeps : ∀ i : NodeIdx, ¬ (257 ≤ i.toNat ∧ i.toNat ≤ 255 + l) →
      nodeOf (buildTree s.freq).1 i = nodeOf (leafNodes s.freq) i := fun i hi => hm.keeps hn (by omega)
  have hinternal : ∀ i : NodeIdx,
      (nodeOf (buildTree s.freq).1 i).kind = .internal ↔ 257 ≤ i.toNat ∧ i.toNat ≤ 255 + l := by
    refine fun i => ⟨fun hk => ?_, fun hi => (hm.makes hn hi.1 (by omega)).1⟩
    by_contra hi
    exact (kind_leafNodes s i).1 (hkeeps i hi ▸ hk)
  have hlow : ∀ k : Sym, ¬ (257 ≤ (leafIdx k).toNat ∧ (leafIdx k).toNat ≤ 255 + l) := fun k => by
    rw [leafIdx_toNat]
    omega
  refine ⟨_, exec_tbBuild_of_counts hu h hsum, ?root, ?weight, hinternal, fun i hk => ?children, fun i => ?leaf,
    fun k hk => (hkeeps _ (hlow k)).trans (nodeOf_leafNodes_leafIdx hk)⟩
  case root => simp only [respond_root, treeBuilt_root]; omega
  case weight =>
    have hstart := sum_weightAt_candidates s
    exact (hm.weightAt_root hn (hstart.trans_lt hsum)).trans hstart
  case children =>
    obtain ⟨hi, hi'⟩ := (hinternal i).1 hk
    exact (hm.makes hn hi (by omega)).2
  case leaf =>
    by_cases hi : 257 ≤ i.toNat ∧ i.toNat ≤ 255 + l
    · refine iff_of_false (fun hk => ?_) fun ⟨k, e, _⟩ => hlow k (by rwa [e] at hi)
      exact absurd (((hinternal i).2 hi).symm.trans hk) (by decide)
    · have hkind := (kind_leafNodes s i).2
      rwa [← hkeeps i hi] at hkind

/-! ### One symbol (R133) -/

/-- The merge loop on two candidates, the second before the first. -/
theorem mergeLoop_pair {m : Vector Node 512} {x y next : NodeIdx} (hxy : x ≠ y) (h : comesBefore m y x = true) :
    mergeLoop 2 m [x, y] next = (putNode m next (mergedNode m y x), next) := by
  have hleast : leastOf m x [y] = y := by rw [leastOf, if_pos h, leastOf]
  have hrest : [x, y].erase y = [x] := by simp [hxy]
  rw [mergeLoop_merge (ys := []) (by rw [hleast, hrest]), hleast]
  simp [mergeLoop, leastOf]

/-- The tree of a table with one counted symbol. -/
theorem buildTree_of_one {s : State} {k : Sym} (h : ∀ j : Sym, freqAt s j ≠ 0 ↔ j = k) : buildTree s.freq =
    (putNode (leafNodes s.freq) 257 (mergedNode (leafNodes s.freq) placeholderIdx (leafIdx k)), 257) := by
  have hk : freqAt s k ≠ 0 := (h k).2 rfl
  have hcard : (counted s).card = 1 := card_counted_eq_one.2 ⟨k, h⟩
  have hone : countedSyms s.freq = [k] := by
    obtain ⟨j, hj⟩ := List.length_eq_one_iff.1 ((countedSyms_length s).trans hcard)
    rw [hj, ← (h j).1 (mem_countedSyms.1 (hj ▸ List.mem_singleton_self j))]
  have hfirst : firstCandidates s.freq = [leafIdx k, placeholderIdx] := by rw [firstCandidates, hone]; rfl
  have hbefore : comesBefore (leafNodes s.freq) placeholderIdx (leafIdx k) = true := by
    rw [comesBefore_iff, weightAt, weightAt, nodeOf_leafNodes_placeholderIdx hcard, nodeOf_leafNodes_leafIdx hk]
    exact .inl (Nat.pos_of_ne_zero (mt (fun e => BitVec.eq_of_toNat_eq e) hk))
  rw [buildTree, hfirst]
  exact mergeLoop_pair (leafIdx_ne_placeholderIdx k) hbefore

/-- Settles O26: the one merge takes the placeholder before the leaf (`buildTree_of_one`). -/
theorem singleSymbolTree : Obligations.SingleSymbolTree := by
  intro s k hu h
  have hk : freqAt s k ≠ 0 := (h k).2 rfl
  have hone : (counted s).card = 1 := card_counted_eq_one.2 ⟨k, h⟩
  have hset : counted s = {k} := by ext j; rw [mem_counted, h, Finset.mem_singleton]
  have hsum : (∑ j : Sym, (freqAt s j).toNat) < 2 ^ 56 := by
    rw [← sum_counted, hset, Finset.sum_singleton]
    exact (freqAt s k).isLt
  have hnode : ∀ i, nodeOf (buildTree s.freq).1 i = if i = 257 then ⟨.internal, 0, 256, k.setWidth 9, freqAt s k⟩
      else nodeOf (leafNodes s.freq) i := fun i => by
    rw [buildTree_of_one h, nodeOf_putNode, mergedNode, nodeOf_leafNodes_placeholderIdx hone,
      nodeOf_leafNodes_leafIdx hk]
    simp [placeholderNode, placeholderIdx, leafNode, leafIdx]
  have hleaf : leafIdx k ≠ 257 := fun e => by
    have hlt := k.isLt
    rw [← leafIdx_toNat, e] at hlt
    exact absurd hlt (by decide)
  refine ⟨_, exec_tbBuild_of_counts hu ⟨k, hk⟩ hsum, ?_, ?_, (hnode 257).trans (if_pos rfl),
    (hnode 256).trans (nodeOf_leafNodes_placeholderIdx hone),
    ((hnode _).trans (if_neg hleaf)).trans (nodeOf_leafNodes_leafIdx hk), fun i hroot hph hki => ?_⟩
  · rw [respond_reply, treeBuilt_root, buildTree_of_one h]; rfl
  · rw [respond_root, treeBuilt_root, buildTree_of_one h]
  · refine ((hnode i).trans (if_neg hroot)).trans (nodeOf_leafNodes_of_not_mem fun hi => ?_)
    obtain ⟨j, hj, rfl⟩ | ⟨-, rfl⟩ := mem_candidates.1 hi
    · exact hki (by rw [(h j).1 hj]; rfl)
    · exact hph rfl

/-! ### The least weighted path length (R135)

Optimality is proved over depths, not over trees: the depths of the leaves of a tree satisfy Kraft's inequality, and the
merging is optimal among all depths that do. A tree with the same leaves gives such depths, and so does the depth 8 for
each of at most 256 symbols (R251 f). -/

/-- The Kraft sum of depths given to some candidates. -/
def kraft (act : Finset NodeIdx) (d : NodeIdx → Nat) : ℚ := ∑ i ∈ act, (1 / 2) ^ d i

section
variable {act : Finset NodeIdx} {w d : NodeIdx → Nat} {a b : NodeIdx}

theorem swap_support_subset (ha : a ∈ act) (hb : b ∈ act) : {i | Equiv.swap a b i ≠ i} ⊆ (act : Set NodeIdx) := by
  intro i hi
  by_contra hact
  exact hi (Equiv.swap_apply_of_ne_of_ne (fun e => hact (e ▸ ha)) fun e => hact (e ▸ hb))

/-- Two candidates may exchange their depths. -/
theorem kraft_swap (ha : a ∈ act) (hb : b ∈ act) : kraft act (d ∘ Equiv.swap a b) = kraft act d :=
  (Equiv.swap a b).sum_comp act (fun i => (1 / 2 : ℚ) ^ d i) (swap_support_subset ha hb)

/-- Giving the greater of two depths to the lighter of two candidates does not raise the weighted sum. -/
theorem sum_swap_le (ha : a ∈ act) (hb : b ∈ act) (hw : w a ≤ w b) (hd : d a ≤ d b) :
    ∑ i ∈ act, w i * (d ∘ Equiv.swap a b) i ≤ ∑ i ∈ act, w i * d i := by
  by_cases hab : b = a
  · rw [hab, Equiv.swap_self]; rfl
  have hb' := Finset.mem_erase.2 ⟨hab, hb⟩
  have hrest : ∀ i ∈ (act.erase a).erase b, w i * (d ∘ Equiv.swap a b) i = w i * d i := fun i hi => by
    obtain ⟨hib, hia, -⟩ : i ≠ b ∧ i ≠ a ∧ i ∈ act := by simpa using hi
    rw [Function.comp_apply, Equiv.swap_apply_of_ne_of_ne hia hib]
  rw [← Finset.add_sum_erase _ _ ha, ← Finset.add_sum_erase _ _ hb', ← Finset.add_sum_erase act _ ha,
    ← Finset.add_sum_erase _ (fun i => w i * d i) hb', Finset.sum_congr rfl hrest, ← add_assoc, ← add_assoc]
  simpa using mul_add_mul_le_mul_add_mul hw hd

/-- A lightest candidate may be given the greatest depth, by exchanging it with one that has it. -/
theorem exists_deepest (ha : a ∈ act) (hmin : ∀ i ∈ act, w a ≤ w i) : ∃ p ∈ act, (∀ i ∈ act, d i ≤ d p)
    ∧ ∑ i ∈ act, w i * (d ∘ Equiv.swap a p) i ≤ ∑ i ∈ act, w i * d i := by
  obtain ⟨p, hp, hmax⟩ := act.exists_max_image d ⟨a, ha⟩
  exact ⟨p, hp, hmax, sum_swap_le ha hp (hmin p hp) (hmax a ha)⟩

/-- The two lightest candidates may be given depths no other candidate exceeds. -/
theorem exists_deepest_pair (ha : a ∈ act) (hmin : ∀ i ∈ act, w a ≤ w i) (hb : b ∈ act.erase a)
    (hmin' : ∀ i ∈ act.erase a, w b ≤ w i) : ∃ e : NodeIdx → Nat, kraft act e = kraft act d
      ∧ (∑ i ∈ act, w i * e i ≤ ∑ i ∈ act, w i * d i) ∧ ∀ i ∈ act.erase a, e i ≤ e a ∧ e i ≤ e b := by
  obtain ⟨p, hp, hmax, hle⟩ := exists_deepest (d := d) ha hmin
  obtain ⟨d', hd'⟩ : ∃ d', d' = d ∘ Equiv.swap a p := ⟨_, rfl⟩
  rw [← hd'] at hle
  obtain ⟨q, hq, hmax', hle'⟩ := exists_deepest (d := d') hb hmin'
  have hne : a ≠ b ∧ a ≠ q := ⟨(Finset.ne_of_mem_erase hb).symm, (Finset.ne_of_mem_erase hq).symm⟩
  have hfix : (d' ∘ Equiv.swap b q) a = d' a := congrArg d' (Equiv.swap_apply_of_ne_of_ne hne.1 hne.2)
  have htop : ∀ i ∈ act, d' i ≤ d' a := fun i hi => by
    rw [hd', Function.comp_apply, Function.comp_apply, Equiv.swap_apply_left]
    refine hmax _ ?_
    rw [Equiv.swap_apply_def]
    split_ifs <;> assumption
  have hin : ∀ i ∈ act.erase a, Equiv.swap b q i ∈ act.erase a := fun i hi => by
    rw [Equiv.swap_apply_def]
    split_ifs <;> assumption
  refine ⟨d' ∘ Equiv.swap b q, ?_, ?_, fun i hi => ⟨?_, ?_⟩⟩
  · rw [kraft_swap (Finset.mem_of_mem_erase hb) (Finset.mem_of_mem_erase hq), hd', kraft_swap ha hp]
  · refine le_trans ?_ hle
    rw [← Finset.add_sum_erase _ _ ha, ← Finset.add_sum_erase act (fun i => w i * d' i) ha, hfix]
    exact Nat.add_le_add_left hle' _
  · exact hfix ▸ htop _ (Finset.mem_of_mem_erase (hin i hi))
  · simpa using hmax' _ (hin i hi)

/-- The Kraft sum splits at two candidates. -/
theorem kraft_eq_add (ha : a ∈ act) (hb : b ∈ act.erase a) :
    kraft act d = (1 / 2) ^ d a + (1 / 2) ^ d b + kraft ((act.erase a).erase b) d := by
  rw [kraft, ← Finset.add_sum_erase _ _ ha, ← Finset.add_sum_erase _ _ hb, add_assoc, kraft]

/-- The Kraft sum of depths up to `e` is a multiple of `1 / 2 ^ e`. -/
theorem exists_kraft_eq {e : Nat} (h : ∀ i ∈ act, d i ≤ e) : ∃ n : Nat, kraft act d = n * (1 / 2) ^ e := by
  refine ⟨∑ i ∈ act, 2 ^ (e - d i), ?_⟩
  rw [kraft, Nat.cast_sum, Finset.sum_mul]
  refine Finset.sum_congr rfl fun i hi => ?_
  obtain ⟨c, rfl⟩ := Nat.exists_eq_add_of_le (h i hi)
  rw [Nat.add_sub_cancel_left, pow_add, Nat.cast_pow, mul_left_comm, ← mul_pow]
  norm_num

/-- Where two depths are the greatest, their two leaves leave room for one leaf a level above the higher of them, since
the Kraft sum of the others is a multiple of `1 / 2 ^ min (d a) (d b)`. -/
theorem exists_shared_depth (ha : a ∈ act) (hb : b ∈ act.erase a) (hk : kraft act d ≤ 1)
    (hdeep : ∀ i ∈ act.erase a, d i ≤ d a ∧ d i ≤ d b) :
    ∃ e, e + 1 = min (d a) (d b) ∧ kraft ((act.erase a).erase b) d + (1 / 2) ^ e ≤ 1 := by
  obtain ⟨e, he⟩ : ∃ e, e = min (d a) (d b) := ⟨_, rfl⟩
  obtain ⟨n, hn⟩ : ∃ n : Nat, kraft ((act.erase a).erase b) d = n * (1 / 2) ^ e :=
    exists_kraft_eq fun i hi => he ▸ le_min_iff.2 (hdeep i (Finset.mem_of_mem_erase hi))
  have hpos : ∀ j : Nat, (0 : ℚ) < (1 / 2) ^ j := fun j => by positivity
  have htwo : (1 / 2 : ℚ) ^ e < (1 / 2) ^ d a + (1 / 2) ^ d b := by
    obtain h | h : e = d a ∨ e = d b := he ▸ min_choice _ _
    · exact h ▸ lt_add_of_pos_right _ (hpos _)
    · exact h ▸ lt_add_of_pos_left _ (hpos _)
  have hone : (2 ^ e : ℚ) * (1 / 2) ^ e = 1 := by rw [← mul_pow]; norm_num
  have hlt : ((n + 1 : Nat) : ℚ) * (1 / 2) ^ e < 2 ^ e * (1 / 2) ^ e := by
    rw [kraft_eq_add ha hb, hn] at hk
    rw [hone, Nat.cast_succ, add_one_mul]
    linarith
  have hroom : n + 1 < 2 ^ e := by exact_mod_cast lt_of_mul_lt_mul_right hlt (hpos e).le
  obtain _ | e := e
  · omega
  refine ⟨e, he, ?_⟩
  calc kraft ((act.erase a).erase b) d + (1 / 2) ^ e
      = ((n + 2 : Nat) : ℚ) * (1 / 2) ^ (e + 1) := by rw [hn, Nat.cast_add, pow_succ]; push_cast; ring
    _ ≤ 2 ^ (e + 1) * (1 / 2) ^ (e + 1) := mul_le_mul_of_nonneg_right (by exact_mod_cast hroom) (hpos _).le
    _ = 1 := hone

/-- Any depths for the candidates give depths for the candidates after a merge, in which the merged two are one level
deeper than the node they hang from, at no greater weighted sum. -/
theorem exists_depths_afterMerge {next : Nat} (hn : Numbered act next) (ha : a ∈ act) (hmin : ∀ i ∈ act, w a ≤ w i)
    (hb : b ∈ act.erase a) (hmin' : ∀ i ∈ act.erase a, w b ≤ w i) (hk : kraft act d ≤ 1) :
    ∃ e : NodeIdx → Nat, kraft (afterMerge act next a b) e ≤ 1 ∧
      ∑ i ∈ (act.erase a).erase b, w i * e i + (w a + w b) * (e (BitVec.ofNat 9 next) + 1) ≤ ∑ i ∈ act, w i * d i := by
  obtain ⟨d', hk', hle, hdeep⟩ := exists_deepest_pair (d := d) ha hmin hb hmin'
  obtain ⟨e, he, hroom⟩ := exists_shared_depth ha hb (hk'.trans_le hk) hdeep
  have hnew := hn.next_not_mem_erase ha hb
  have hold : ∀ i ∈ (act.erase a).erase b, Function.update d' (BitVec.ofNat 9 next) e i = d' i :=
    fun i hi => Function.update_of_ne (ne_of_mem_of_not_mem hi hnew) e d'
  refine ⟨Function.update d' (BitVec.ofNat 9 next) e, ?_, le_trans ?_ hle⟩
  · rw [kraft, Finset.sum_insert hnew, Function.update_self, Finset.sum_congr rfl fun i hi => by rw [hold i hi],
      add_comm]
    exact hroom
  · have hab : (w a + w b) * (e + 1) ≤ w a * d' a + w b * d' b := by
      rw [he, add_mul]
      exact Nat.add_le_add (Nat.mul_le_mul_left _ (min_le_left _ _)) (Nat.mul_le_mul_left _ (min_le_right _ _))
    rw [Function.update_self, Finset.sum_congr rfl fun i hi => by rw [hold i hi], ← Finset.add_sum_erase act _ ha,
      ← Finset.add_sum_erase _ (fun i => w i * d' i) hb]
    omega

end

/-! ### The tree the merging builds (R135) -/

/-- The real leaves of a tree, each with its weight. -/
def Tree.weighed (x : Tree) : Multiset (Sym × Weight) := (x.leaves.map (fun l => (l.1, l.2.1)) : List (Sym × Weight))

theorem Tree.weighed_branch (l r : Tree) : (Tree.branch l r).weighed = l.weighed + r.weighed := by
  simp [Tree.weighed, Tree.leaves, Function.comp_def]

theorem Tree.total_branch (l r : Tree) : (Tree.branch l r).total = l.total + r.total := by
  simp [Tree.total, Tree.leaves, Function.comp_def]

/-- Under a new root every leaf is one level deeper. -/
theorem Tree.cost_branch (l r : Tree) : (Tree.branch l r).cost = l.cost + r.cost + (l.total + r.total) := by
  have hdeeper (y : Tree) : (y.leaves.map fun x => x.2.1.toNat * (x.2.2.length + 1)).sum = y.cost + y.total := by
    simp only [mul_add, mul_one, List.sum_map_add, Tree.cost, Tree.total]
  simp only [Tree.cost, Tree.leaves, List.map_append, List.map_map, Function.comp_def, List.length_cons,
    List.sum_append, hdeeper]
  omega

/-- Writing a free entry leaves every tree in NODE as it is. -/
theorem treeAt_putNode {m : Vector Node 512} {n : NodeIdx} (hfree : (nodeOf m n).kind = .free) (v : Node) (x : Tree)
    {i : NodeIdx} (h : TreeAt m i x) : TreeAt (putNode m n v) i x := by
  have hkeep : ∀ j, (nodeOf m j).kind ≠ .free → nodeOf (putNode m n v) j = nodeOf m j := fun j hj => by
    rw [nodeOf_putNode, if_neg fun e => hj (by rwa [e])]
  induction x generalizing i with
  | leaf k w =>
    rw [TreeAt] at h ⊢
    rwa [hkeep i (by simp [h.1])]
  | placeholder =>
    rw [TreeAt] at h ⊢
    rwa [hkeep i (by simp [h])]
  | branch l r ihl ihr =>
    obtain ⟨hk, hl, hr⟩ := h
    rw [TreeAt, hkeep i (by simp [hk])]
    exact ⟨hk, ihl hl, ihr hr⟩

/-- Each candidate is the root of a tree with its weight, and the entries from `next` on are free. -/
structure Forest (m : Vector Node 512) (act : Finset NodeIdx) (next : Nat) (T : NodeIdx → Tree) : Prop where
  tree : ∀ i ∈ act, TreeAt m i (T i)
  total : ∀ i ∈ act, (T i).total = weightAt m i
  free : ∀ i : NodeIdx, next ≤ i.toNat → (nodeOf m i).kind = .free

section
variable {m m' : Vector Node 512} {act : Finset NodeIdx} {next : Nat} {a b r : NodeIdx} {T : NodeIdx → Tree}

/-- The trees after a merge. -/
def mergedTrees (T : NodeIdx → Tree) (next : Nat) (a b : NodeIdx) : NodeIdx → Tree :=
  Function.update T (BitVec.ofNat 9 next) (.branch (T a) (T b))

theorem mergedTrees_new : mergedTrees T next a b (BitVec.ofNat 9 next) = .branch (T a) (T b) := Function.update_self ..

theorem mergedTrees_old (hn : Numbered act next) (ha : a ∈ act) (hb : b ∈ act.erase a) {i : NodeIdx} (hi : i ∈ act) :
    mergedTrees T next a b i = T i := Function.update_of_ne (ne_of_mem_of_not_mem hi (hn.next_not_mem ha hb)) _ _

theorem Forest.merge (hf : Forest m act next T) (hn : Numbered act next) (ha : a ∈ act) (hb : b ∈ act.erase a)
    (hsum : ∑ i ∈ act, weightAt m i < 2 ^ 56) : Forest (putNode m (BitVec.ofNat 9 next) (mergedNode m a b))
      (afterMerge act next a b) (next + 1) (mergedTrees T next a b) where
  tree i hi := by
    have hfree := hf.free (BitVec.ofNat 9 next) (hn.next_toNat ha hb).ge
    have htree : ∀ j ∈ act, TreeAt (putNode m (BitVec.ofNat 9 next) (mergedNode m a b)) j (T j) :=
      fun j hj => treeAt_putNode hfree _ _ (hf.tree j hj)
    obtain rfl | hi := Finset.mem_insert.1 hi
    · rw [mergedTrees_new, TreeAt, nodeOf_putNode, if_pos rfl]
      exact ⟨rfl, htree a ha, htree b (Finset.mem_of_mem_erase hb)⟩
    · have hact := Finset.mem_of_mem_erase (Finset.mem_of_mem_erase hi)
      rw [mergedTrees_old hn ha hb hact]
      exact htree i hact
  total i hi := by
    obtain rfl | hi := Finset.mem_insert.1 hi
    · rw [mergedTrees_new, Tree.total_branch, weightAt_mergedNode ha hb hsum, hf.total a ha,
        hf.total b (Finset.mem_of_mem_erase hb)]
    · have hact := Finset.mem_of_mem_erase (Finset.mem_of_mem_erase hi)
      rw [mergedTrees_old hn ha hb hact, weightAt_afterMerge hn ha hb _ hact, hf.total i hact]
  free i hi := by
    have hne : i ≠ BitVec.ofNat 9 next := by
      rintro rfl
      rw [hn.next_toNat ha hb] at hi
      omega
    rw [nodeOf_putNode, if_neg hne]
    exact hf.free i (by omega)

/-- The merging builds a tree with the leaves of the candidates' trees, whose weighted path length is the least that
hanging the candidates' trees at depths allowed by Kraft's inequality can give. -/
theorem Merging.optimal (h : Merging m act next m' r) (hn : Numbered act next) (hsum : ∑ i ∈ act, weightAt m i < 2 ^ 56)
    (hf : Forest m act next T) : ∃ x, TreeAt m' r x ∧ x.weighed = ∑ i ∈ act, (T i).weighed
      ∧ ∀ d, kraft act d ≤ 1 → x.cost ≤ ∑ i ∈ act, (T i).cost + ∑ i ∈ act, weightAt m i * d i := by
  induction h using Merging.least_induction generalizing T with
  | done m r next =>
    refine ⟨T r, hf.tree r (Finset.mem_singleton_self r), (Finset.sum_singleton _ _).symm, fun d _ => ?_⟩
    rw [Finset.sum_singleton]
    exact Nat.le_add_right _ _
  | @merge m m' act next a b r ha hb rest ih =>
    obtain ⟨x, hx, hweighed, hcost⟩ := ih (hn.merge ha.1 hb.1)
      ((sum_weightAt_afterMerge hn ha.1 hb.1 hsum).trans_lt hsum) (hf.merge hn ha.1 hb.1 hsum)
    refine ⟨x, hx, hweighed.trans (hn.sum_afterMerge ha.1 hb.1 ?_ fun i hi => ?_), fun d hd => ?_⟩
    · rw [mergedTrees_new, Tree.weighed_branch]
    · rw [mergedTrees_old hn ha.1 hb.1 hi]
    · obtain ⟨e, he, hle⟩ := exists_depths_afterMerge hn ha.1 (fun _ => ha.weightAt_le) hb.1
        (fun _ => hb.weightAt_le) hd
      have hnew := hn.next_not_mem_erase ha.1 hb.1
      have hact : ∀ i ∈ (act.erase a).erase b, i ∈ act := fun i hi =>
        Finset.mem_of_mem_erase (Finset.mem_of_mem_erase hi)
      have hcosts : ∑ i ∈ (act.erase a).erase b, (mergedTrees T next a b i).cost
          = ∑ i ∈ (act.erase a).erase b, (T i).cost :=
        Finset.sum_congr rfl fun i hi => by rw [mergedTrees_old hn ha.1 hb.1 (hact i hi)]
      have hweights : ∑ i ∈ (act.erase a).erase b,
            weightAt (putNode m (BitVec.ofNat 9 next) (mergedNode m a b)) i * e i
          = ∑ i ∈ (act.erase a).erase b, weightAt m i * e i :=
        Finset.sum_congr rfl fun i hi => by rw [weightAt_afterMerge hn ha.1 hb.1 _ (hact i hi)]
      refine (hcost e he).trans ?_
      rw [Finset.sum_insert hnew, Finset.sum_insert hnew, mergedTrees_new, Tree.cost_branch, hf.total a ha.1,
        hf.total b (Finset.mem_of_mem_erase hb.1), weightAt_mergedNode ha.1 hb.1 hsum,
        hcosts, hweights,
        ← Finset.add_sum_erase act (fun i => (T i).cost) ha.1, ← Finset.add_sum_erase _ (fun i => (T i).cost) hb.1]
      rw [mul_add_one] at hle
      omega

end

/-! ### The depths of the symbols in a tree -/

theorem Tree.symbols_eq_map (x : Tree) : x.symbols = x.leaves.map (fun l => l.1) := by
  induction x with
  | leaf | placeholder => rfl
  | branch l r ihl ihr => simp [Tree.symbols, Tree.leaves, ihl, ihr, Function.comp_def]

theorem Tree.symbols_eq_weighed (x : Tree) : (x.symbols : Multiset Sym) = x.weighed.map Prod.fst := by
  rw [Tree.symbols_eq_map, Tree.weighed, Multiset.map_coe, List.map_map]
  rfl

/-- Where the symbols are distinct, the depth of a leaf is a function of its symbol. -/
theorem Tree.exists_depths {x : Tree} (h : x.symbols.Nodup) :
    ∃ d : Sym → Nat, ∀ l ∈ x.leaves, l.2.2.length = d l.1 := by
  rw [Tree.symbols_eq_map] at h
  have hdepth : ∀ k : Sym, ∃ n, ∀ l ∈ x.leaves, l.1 = k → l.2.2.length = n := fun k => by
    by_cases hk : ∃ l ∈ x.leaves, l.1 = k
    · obtain ⟨l, hl, hlk⟩ := hk
      exact ⟨_, fun l' hl' hk' => by rw [List.inj_on_of_nodup_map h hl' hl (hk'.trans hlk.symm)]⟩
    · exact ⟨0, fun l hl hlk => absurd ⟨l, hl, hlk⟩ hk⟩
  choose d hd using hdepth
  exact ⟨d, fun l hl => hd l.1 l hl rfl⟩

/-- A sum over the real leaves of a tree with the counted symbols is one over those symbols. -/
theorem Tree.sum_leaves {M : Type} [AddCommMonoid M] {s : State} {x : Tree} (hnd : x.symbols.Nodup)
    (hsym : ∀ k : Sym, k ∈ x.symbols ↔ freqAt s k ≠ 0) {f : Sym × Weight × List Bool → M} {g : Sym → M}
    (hg : ∀ l ∈ x.leaves, f l = g l.1) : (x.leaves.map f).sum = ∑ k ∈ counted s, g k := by
  have hset : counted s = x.symbols.toFinset := by
    ext k
    rw [mem_counted, List.mem_toFinset, hsym]
  rw [hset, List.sum_toFinset _ hnd, Tree.symbols_eq_map, List.map_map, List.map_congr_left hg]
  rfl

/-- Kraft's inequality: the paths of a tree's real leaves. -/
theorem Tree.kraft_le_one (x : Tree) : (x.leaves.map (fun l => (1 / 2 : ℚ) ^ l.2.2.length)).sum ≤ 1 := by
  induction x with
  | leaf | placeholder => simp [Tree.leaves]
  | branch l r ihl ihr =>
    have hhalf (y : Tree) : (y.leaves.map (fun x => (1 / 2 : ℚ) ^ (x.2.2.length + 1))).sum
        = (y.leaves.map (fun x => (1 / 2 : ℚ) ^ x.2.2.length)).sum * (1 / 2) := by
      simp only [pow_succ, List.sum_map_mul_right]
    simp only [Tree.leaves, List.map_append, List.map_map, Function.comp_def, List.length_cons, List.sum_append, hhalf]
    linarith

/-! ### The tree TB_BUILD builds is optimal (R135) -/

/-- The tree a candidate of the first merge stands for: a leaf, or the placeholder. -/
def nodeTree (n : Node) : Tree := if n.kind = .leaf then .leaf n.sym n.weight else .placeholder

/-- The trees the merging starts from. -/
def firstTrees (s : State) (i : NodeIdx) : Tree := nodeTree (nodeOf (leafNodes s.freq) i)

theorem firstTrees_leafIdx {s : State} {k : Sym} (h : freqAt s k ≠ 0) :
    firstTrees s (leafIdx k) = .leaf k (freqAt s k) := by
  rw [firstTrees, nodeOf_leafNodes_leafIdx h]; rfl

theorem firstTrees_placeholderIdx {s : State} (h : (counted s).card = 1) :
    firstTrees s placeholderIdx = .placeholder := by
  rw [firstTrees, nodeOf_leafNodes_placeholderIdx h]; rfl

theorem forest_firstTrees {s : State} (h : ∃ k : Sym, freqAt s k ≠ 0) :
    Forest (leafNodes s.freq) (candidates s) 257 (firstTrees s) where
  tree i hi := by
    obtain ⟨k, hk, rfl⟩ | ⟨hone, rfl⟩ := mem_candidates.1 hi
    · rw [firstTrees_leafIdx hk, TreeAt, nodeOf_leafNodes_leafIdx hk]
      exact ⟨rfl, rfl, rfl⟩
    · rw [firstTrees_placeholderIdx hone, TreeAt, nodeOf_leafNodes_placeholderIdx hone]
      rfl
  total i hi := by
    obtain ⟨k, hk, rfl⟩ | ⟨hone, rfl⟩ := mem_candidates.1 hi
    · rw [firstTrees_leafIdx hk, weightAt, nodeOf_leafNodes_leafIdx hk]
      simp [Tree.total, Tree.leaves, leafNode]
    · rw [firstTrees_placeholderIdx hone, weightAt, nodeOf_leafNodes_placeholderIdx hone]
      rfl
  free i hi := by
    rw [nodeOf_leafNodes_of_not_mem fun hact => hi.not_gt ((numbered_candidates h).below i hact)]
    rfl

/-- The trees the merging starts from are the counted symbols with their counts. -/
theorem sum_weighed_firstTrees (s : State) :
    ∑ i ∈ candidates s, (firstTrees s i).weighed = (counted s).val.map (fun k => (k, freqAt s k)) := by
  have hleaf : ∀ k ∈ counted s, (firstTrees s (leafIdx k)).weighed = {(k, freqAt s k)} := fun k hk => by
    rw [firstTrees_leafIdx (mem_counted.1 hk)]; rfl
  have hph : (if (counted s).card = 1 then (firstTrees s placeholderIdx).weighed else 0) = 0 := by
    split_ifs with hone
    · rw [firstTrees_placeholderIdx hone]; rfl
    · rfl
  rw [sum_candidates, hph, add_zero, Finset.sum_congr rfl hleaf]
  exact (congrArg Multiset.sum (Multiset.map_map _ _ _)).symm.trans (Multiset.sum_map_singleton _)

/-- Depths of the counted symbols as depths of the candidates, the placeholder at depth 1. -/
def candidateDepth (d : Sym → Nat) (i : NodeIdx) : Nat := if i = placeholderIdx then 1 else d (i.setWidth 8)

theorem candidateDepth_leafIdx (d : Sym → Nat) (k : Sym) : candidateDepth d (leafIdx k) = d k := by
  rw [candidateDepth, if_neg (leafIdx_ne_placeholderIdx k), leafIdx, BitVec.setWidth_setWidth_of_le _ (by decide),
    BitVec.setWidth_eq]

theorem candidateDepth_placeholderIdx (d : Sym → Nat) : candidateDepth d placeholderIdx = 1 := if_pos rfl

/-- The tree TB_BUILD builds: its real leaves are the counted symbols with their counts, and its weighted path length is
at most that of any depths for the symbols that leave room, beside a single one, for the placeholder. -/
theorem buildTree_optimal {s : State} (h : ∃ k : Sym, freqAt s k ≠ 0)
    (hsum : (∑ k : Sym, (freqAt s k).toNat) < 2 ^ 56) :
    ∃ x, TreeAt (buildTree s.freq).1 (buildTree s.freq).2 x
      ∧ x.weighed = (counted s).val.map (fun k => (k, freqAt s k))
      ∧ ∀ d : Sym → Nat, (∑ k ∈ counted s, (1 / 2 : ℚ) ^ d k) + (if (counted s).card = 1 then 1 / 2 else 0) ≤ 1 →
        x.cost ≤ ∑ k ∈ counted s, (freqAt s k).toNat * d k := by
  obtain ⟨x, hx, hweighed, hcost⟩ := (buildTree_merging h).optimal (numbered_candidates h)
    ((sum_weightAt_candidates s).trans_lt hsum) (forest_firstTrees h)
  refine ⟨x, hx, hweighed.trans (sum_weighed_firstTrees s), fun d hd => ?_⟩
  have hkraft : kraft (candidates s) (candidateDepth d) ≤ 1 := by
    simpa only [kraft, sum_candidates, candidateDepth_leafIdx, candidateDepth_placeholderIdx, pow_one] using hd
  have hzero : ∑ i ∈ candidates s, (firstTrees s i).cost = 0 := by
    refine Finset.sum_eq_zero fun i _ => ?_
    rw [firstTrees, nodeTree]
    split_ifs <;> rfl
  have hleaf : ∀ k ∈ counted s, weightAt (leafNodes s.freq) (leafIdx k) * candidateDepth d (leafIdx k)
      = (freqAt s k).toNat * d k := fun k hk => by
    rw [weightAt, nodeOf_leafNodes_leafIdx (mem_counted.1 hk), candidateDepth_leafIdx]; rfl
  have hph : (if (counted s).card = 1 then weightAt (leafNodes s.freq) placeholderIdx * candidateDepth d placeholderIdx
      else 0) = 0 := by
    split_ifs with hone
    · rw [weightAt, nodeOf_leafNodes_placeholderIdx hone]; exact Nat.zero_mul _
    · rfl
  calc x.cost ≤ _ := hcost _ hkraft
    _ = ∑ k ∈ counted s, (freqAt s k).toNat * d k := by
      rw [hzero, Nat.zero_add, sum_candidates, hph, Nat.add_zero, Finset.sum_congr rfl hleaf]

/-- The root of the tree is no leaf. -/
theorem buildTree_branch {s : State} (h : ∃ k : Sym, freqAt s k ≠ 0) {x : Tree}
    (hx : TreeAt (buildTree s.freq).1 (buildTree s.freq).2 x) : ∃ l r, x = .branch l r := by
  have hroot := buildTree_root_toNat h
  have hcard := card_candidates h
  have hk := ((buildTree_merging h).makes (numbered_candidates h) (i := (buildTree s.freq).2) (by omega) hroot.le).1
  cases x with
  | leaf => exact absurd (hx.1.symm.trans hk) (by decide)
  | placeholder => exact absurd (Eq.trans (Eq.symm hx) hk) (by decide)
  | branch l r => exact ⟨l, r, rfl⟩

/-- The depths of a tree with the counted symbols leave room, beside a single one, for the placeholder. -/
theorem Tree.kraft_counted {s : State} {l r : Tree} (hnd : (Tree.branch l r).symbols.Nodup)
    (hsym : ∀ k : Sym, k ∈ (Tree.branch l r).symbols ↔ freqAt s k ≠ 0) {d : Sym → Nat}
    (hd : ∀ x ∈ (Tree.branch l r).leaves, x.2.2.length = d x.1) :
    (∑ k ∈ counted s, (1 / 2 : ℚ) ^ d k) + (if (counted s).card = 1 then 1 / 2 else 0) ≤ 1 := by
  split_ifs with hone
  · obtain ⟨k, hk⟩ := Finset.card_eq_one.1 hone
    obtain ⟨x, hx, rfl⟩ := Tree.mem_symbols.1 ((hsym k).2 (mem_counted.1 (hk ▸ Finset.mem_singleton_self k)))
    have hpos : 1 ≤ d x.1 := hd x hx ▸ List.length_pos_iff.2 (Tree.leaf_below hx)
    have hhalf : (1 / 2 : ℚ) ^ d x.1 ≤ (1 / 2) ^ 1 := pow_le_pow_of_le_one (by norm_num) (by norm_num) hpos
    rw [hk, Finset.sum_singleton]
    linarith
  · rw [add_zero, ← Tree.sum_leaves hnd hsym (f := fun x => (1 / 2 : ℚ) ^ x.2.2.length) fun x hx => by rw [hd x hx]]
    exact (Tree.branch l r).kraft_le_one

/-- Depth 8 leaves room for every symbol (R251 f). -/
theorem kraft_eight (s : State) :
    (∑ _k ∈ counted s, (1 / 2 : ℚ) ^ 8) + (if (counted s).card = 1 then 1 / 2 else 0) ≤ 1 := by
  have hle : ((counted s).card : ℚ) ≤ 256 := by exact_mod_cast card_counted_le s
  rw [Finset.sum_const, nsmul_eq_mul]
  split_ifs with hone
  · rw [hone]; norm_num
  · linarith

/-- Settles O28: the merging is optimal among depths (`buildTree_optimal`), and the depths in another tree, or 8 for
each symbol, are such depths. -/
theorem builtTreeIsOptimal : Obligations.BuiltTreeIsOptimal := by
  intro s hu h hsum
  obtain ⟨x, hx, hweighed, hcost⟩ := buildTree_optimal h hsum
  have hsym : (x.symbols : Multiset Sym) = (counted s).val := by
    rw [Tree.symbols_eq_weighed, hweighed, Multiset.map_map]
    exact Multiset.map_id _
  refine ⟨_, x, exec_tbBuild_of_counts hu h hsum, hx, buildTree_branch h hx, ?nodup, fun k => ?symbols,
    fun l hl => ?weights, ?least, ?eight⟩
  case nodup => exact Multiset.coe_nodup.1 (hsym ▸ (counted s).nodup)
  case symbols => rw [← Multiset.mem_coe, hsym, Finset.mem_val, mem_counted]
  case weights =>
    have hmem : (l.1, l.2.1) ∈ x.weighed := List.mem_map.2 ⟨l, hl, rfl⟩
    obtain ⟨k, -, hk⟩ := Multiset.mem_map.1 (hweighed ▸ hmem)
    obtain ⟨hk1, hk2⟩ := Prod.ext_iff.1 hk
    exact hk2.symm.trans (congrArg (freqAt s) hk1)
  case least =>
    rintro y ⟨l, r, rfl⟩ hnd hsym hw
    obtain ⟨d, hd⟩ := Tree.exists_depths hnd
    refine (hcost d (Tree.kraft_counted hnd hsym hd)).trans_eq ?_
    exact (Tree.sum_leaves hnd hsym fun l hl => by rw [hw l hl, hd l hl]).symm
  case eight =>
    refine (hcost (fun _ => 8) (kraft_eight s)).trans_eq ?_
    rw [← Finset.sum_mul, sum_counted, Nat.mul_comm]

end Sys2Proof.Machine

/-! ## What CTG_GEN accepts and refuses (42_code_table_gen.md R151 to R155) -/

namespace Sys2Proof.Machine

/-! ### The tree an accepted walk has walked (R153 c) -/

section
variable {m : Vector Node 512} {l r : Tree} {p : List Bool} {a b : GenAcc}

/-- A tree at an INTERNAL node is a branch. -/
theorem TreeAt.branch_of_internal {i : NodeIdx} {x : Tree} (h : TreeAt m i x) (hk : (nodeOf m i).kind = .internal) :
    ∃ l r, x = .branch l r := by
  cases x with
  | leaf => exact absurd (h.1.symm.trans hk) (by decide)
  | placeholder => exact absurd (Eq.trans (Eq.symm h) hk) (by decide)
  | branch l r => exact ⟨l, r, rfl⟩

/-- A node Gen accepts and does not go below is a leaf met for the first time, or the first placeholder (R155). -/
theorem genVisit_fresh {i : NodeIdx} {d v : Nat} (h : genVisit (nodeOf m i) d v a = .ok b) :
    ∃ x, TreeAt m i x ∧ x.depth = 0 ∧ Fresh x a := by
  unfold genVisit at h
  split at h
  case h_1 | h_2 => cases h
  case h_3 hk =>
    split at h
    · cases h
    · have hun : (codeOf a.table (nodeOf m i).sym).len = 0 := not_not.1 ‹_›
      exact ⟨.leaf (nodeOf m i).sym (nodeOf m i).weight, ⟨hk, rfl, rfl⟩, rfl,
        List.nodup_singleton _, fun k hs => by rwa [List.mem_singleton.1 hs], Nat.zero_le 1, fun _ => rfl⟩
  case h_4 hk =>
    split at h
    · cases h
    · exact ⟨.placeholder, hk, rfl, List.nodup_nil, nofun, le_rfl, fun hph => absurd hph ‹_›⟩

/-- A symbol coded at a path of 1 to 255 edges has a nonzero LEN from then on, so Gen knows it as met (R151). -/
theorem Coded.met (h : Coded l p a b) (hp : p ≠ []) (hd : p.length + l.depth ≤ 255) {k : Sym} (hk : k ∈ l.symbols) :
    (codeOf b.table k).len ≠ 0 := by
  obtain ⟨y, hy, rfl⟩ := Tree.mem_symbols.1 hk
  have hdeep := Tree.leaf_depth hy
  rw [h.codes y hy]
  exact pathCode_len_ne_zero (by rw [List.length_append]; omega) fun e => hp (List.append_eq_nil_iff.1 e).1

/-- Where nothing is met twice in a left subtree, nor in the right one after it, nothing is in the tree. -/
theorem Fresh.branch (hl : Fresh l a) (hc : Coded l p a b) (hr : Fresh r b) (hp : p ≠ [])
    (hd : p.length + l.depth ≤ 255) : Fresh (.branch l r) a := by
  have hapart : ∀ k ∈ r.symbols, k ∉ l.symbols := fun k hk hk' => hc.met hp hd hk' (hr.unmet k hk)
  have hph : l.placeholders ≠ 0 → r.placeholders = 0 := fun h => hr.noPh (hc.ph.2 (.inr h))
  constructor
  case nodup =>
    exact List.nodup_append.2 ⟨hl.nodup, hr.nodup, fun k hk j hj e => hapart j hj (e ▸ hk)⟩
  case unmet =>
    intro k hk
    obtain hk | hk := List.mem_append.1 hk
    · exact hl.unmet k hk
    · rw [← hc.others k (hapart k hk)]
      exact hr.unmet k hk
  case single =>
    have := hl.single
    have := hr.single
    rw [Tree.placeholders]
    omega
  case noPh =>
    intro h
    rw [Tree.placeholders, hl.noPh h, hr.noPh (hc.ph.2 (.inl h))]

/-- What Gen accepts is a tree in which nothing is met twice (R153 c). -/
theorem gen_ok_tree {rem : Nat} {i : NodeIdx} (hp : p.length + rem = 255) (h : gen m rem i (bitsValue p) a = .ok b) :
    ∃ x, TreeAt m i x ∧ x.depth ≤ rem ∧ Fresh x a := by
  induction rem using Nat.strongRecOn generalizing i p a b with
  | ind rem ih =>
    by_cases hk : (nodeOf m i).kind = .internal
    · obtain ⟨n, c, rfl, hl, hr⟩ := gen_internal_ok hk h
      have hlen : ∀ d : Bool, (p ++ [d]).length + n = 255 := fun d => by simp; omega
      have hl' : gen m n (nodeOf m i).left (bitsValue (p ++ [false])) a = .ok c := by rw [bitsValue_snoc]; exact hl
      have hr' : gen m n (nodeOf m i).right (bitsValue (p ++ [true])) c = .ok b := by rw [bitsValue_snoc]; exact hr
      obtain ⟨l, htl, hdl, hfl⟩ := ih n (by omega) (hlen false) hl'
      obtain ⟨r, htr, hdr, hfr⟩ := ih n (by omega) (hlen true) hr'
      obtain ⟨c', hc', hcoded⟩ := gen_codes l htl hdl (hlen false) hfl
      obtain rfl : c' = c := Except.ok.inj (hc'.symm.trans hl')
      refine ⟨.branch l r, ⟨hk, htl, htr⟩, Nat.succ_le_succ (max_le hdl hdr), hfl.branch hcoded hfr (by simp) ?_⟩
      have := hlen false
      omega
    · rw [gen_stops hk] at h
      obtain ⟨x, ht, hd, hf⟩ := genVisit_fresh h
      exact ⟨x, ht, hd.le.trans (Nat.zero_le rem), hf⟩

/-- What CTG_GEN's walk accepts is a tree it accepts (R153 c). -/
theorem genTable_ok_tree {root : NodeIdx} (h : genTable m root = .ok b) : ∃ x, TreeAt m root x ∧ x.Codable := by
  unfold genTable at h
  split at h
  · obtain ⟨x, ht, hd, hf⟩ := gen_ok_tree (p := []) rfl h
    exact ⟨x, ht, ht.branch_of_internal ‹_›, hd, hf.nodup, hf.single⟩
  · cases h

end

/-- CTG_GEN ends in every unlocked block, whatever NODE holds (R152). -/
theorem exec_ctgGen_next {s : State} (hu : Unlocked s) : ∃ t, exec .ctgGen s = .next t := by
  rw [exec_ctgGen hu]
  split_ifs
  · exact ⟨_, rfl⟩
  · cases genTable s.node s.root <;> exact ⟨_, rfl⟩

/-- Settles O30: CTG_GEN always ends (`exec_ctgGen_next`), and it ends OK only where its walk accepts the tree
(`genTable_ok_tree`). -/
theorem ctgGenAcceptsOnlyTrees : Obligations.CtgGenAcceptsOnlyTrees := by
  intro s hu
  obtain ⟨t, ht⟩ := exec_ctgGen_next hu
  refine ⟨t, ht, fun v hv => ?_⟩
  obtain ⟨-, rfl⟩ | ⟨-, c, -, rfl⟩ | ⟨-, acc, hg, -⟩ := exec_ctgGen_cases hu ht
  · cases hv
  · cases hv
  · exact genTable_ok_tree hg

/-- Settles O32: the code of a symbol is a path on the walk, which ends on the symbol's leaf
(`codeString_leads_to_leaf`). -/
theorem codeLeadsToItsLeaf : Obligations.CodeLeadsToItsLeaf := by
  intro s k h hv hk
  obtain ⟨hw, hleaf, hsym⟩ := codeString_leads_to_leaf h hv hk
  exact ⟨hleaf, hsym, hw.2⟩

/-! ### The fault CTG_GEN reports (R155, R286) -/

/-- CTG_GEN's walk faults exactly with the first thing wrong in preorder (R151, R286). -/
theorem genTable_error_iff {m : Vector Node 512} {root : NodeIdx} (hk : (nodeOf m root).kind = .internal) {c : Cause} :
    genTable m root = .error c ↔ ∃ p, OnWalk m root p ∧ Objection m root p c
      ∧ ∀ q d, OnWalk m root q → PathBefore q p → ¬ Objection m root q d := by
  have hanswer := genTable_answer hk
  constructor
  · intro h
    rw [h] at hanswer
    obtain ⟨p, hw, -, hc, hfirst⟩ := hanswer
    exact ⟨p, hw, hc, fun q d hq => hfirst q d hq List.nil_prefix⟩
  · rintro ⟨p, hw, hc, hfirst⟩
    cases hg : genTable m root with
    | ok acc =>
      rw [hg] at hanswer
      exact absurd hc (hanswer.2 p c hw List.nil_prefix)
    | error d =>
      rw [hg] at hanswer
      obtain ⟨q, hq, -, hd, hfirst'⟩ := hanswer
      obtain rfl | hbefore | hbefore := pathBefore_total p q
      · rw [hd.unique hc]
      · exact absurd hc (hfirst' p c hw List.nil_prefix hbefore)
      · exact absurd hd (hfirst q d hq hbefore)

/-- With a tree, CTG_GEN faults with the cause its walk finds, and leaves the table cleared (R151, R288). -/
theorem exec_ctgGen_of_error {s : State} {c : Cause} (hu : Unlocked s) (hv : s.flag .treeValid = true)
    (hg : genTable s.node s.root = .error c) :
    exec .ctgGen s = .next (raiseFault c (encode .ctgGen) (tableCleared s)) := by
  rw [exec_ctgGen hu, if_neg (by simp [hv]), hg]

/-- CTG_GEN faults with no other cause than E_NO_TREE and the one its walk finds (R151, R155). -/
theorem exec_ctgGen_fault {s t : State} {c : Cause} (hu : Unlocked s) (ht : exec .ctgGen s = .next t)
    (hr : t.reply = faultReply c) : (s.flag .treeValid = false ∧ c = .noTree)
      ∨ (genTable s.node s.root = .error c ∧ t = raiseFault c (encode .ctgGen) (tableCleared s)) := by
  have hcause : ∀ {d : Cause} {w : Word} {u : State}, (raiseFault d w u).reply = faultReply c → d = c := fun h => by
    exact causeCode_inj (by simpa using h)
  obtain ⟨hv, rfl⟩ | ⟨-, d, hg, rfl⟩ | ⟨-, acc, -, rfl⟩ := exec_ctgGen_cases hu ht
  · exact .inl ⟨hv, (hcause hr).symm⟩
  · obtain rfl := hcause hr
    exact .inr ⟨hg, rfl⟩
  · cases hr

/-- Settles O33: the fault is the one the walk finds (`exec_ctgGen_fault`), which is the first thing wrong in preorder
(`genTable_error_iff`). -/
theorem ctgGenFaultsClearTheTable : Obligations.CtgGenFaultsClearTheTable := by
  intro s hu
  refine ⟨fun hv => ?noTree, fun hv hk => ?root, fun hv hk c => ?first, fun t c ht hr hc => ?cleared⟩
  case noTree => rw [exec_ctgGen hu, if_pos hv]
  case root => exact ⟨_, exec_ctgGen_of_error hu hv (if_neg hk), rfl⟩
  case first =>
    refine Iff.trans ⟨fun ⟨t, ht, hr⟩ => ?_, fun hg => ⟨_, exec_ctgGen_of_error hu hv hg, rfl⟩⟩ (genTable_error_iff hk)
    obtain ⟨hv', -⟩ | ⟨hg, -⟩ := exec_ctgGen_fault hu ht hr
    · exact absurd hv (by simp [hv'])
    · exact hg
  case cleared =>
    obtain ⟨-, hc'⟩ | ⟨-, rfl⟩ := exec_ctgGen_fault hu ht hr
    · exact absurd hc' hc
    · have hword : encode .ctgGen = 0x20000000 := by decide
      rw [hword]
      rfl

/-! ### CTG_GEN after TB_BUILD (R154, R155) -/

/-- The node memory holds at most one tree at an index. -/
theorem TreeAt.unique {m : Vector Node 512} {x y : Tree} {i : NodeIdx} (hx : TreeAt m i x) (hy : TreeAt m i y) :
    x = y := by
  induction x generalizing i y with
  | leaf k w =>
    obtain ⟨hk, rfl, rfl⟩ := hx
    cases y with
    | leaf j v => obtain ⟨-, rfl, rfl⟩ := hy; rfl
    | placeholder => exact absurd (hk.symm.trans hy) (by decide)
    | branch l r => exact absurd (hk.symm.trans hy.1) (by decide)
  | placeholder =>
    have hk : (nodeOf m i).kind = .placeholder := hx
    cases y with
    | leaf j v => exact absurd (hk.symm.trans hy.1) (by decide)
    | placeholder => rfl
    | branch l r => exact absurd (hk.symm.trans hy.1) (by decide)
  | branch l r ihl ihr =>
    obtain ⟨l', r', rfl⟩ := hy.branch_of_internal hx.1
    rw [ihl hx.2.1 hy.2.1, ihr hx.2.2 hy.2.2]

/-- Where internal nodes stand from index 257 on, over nodes of smaller index, a tree is no deeper than its root is above
256. -/
theorem TreeAt.depth_le {m : Vector Node 512} {x : Tree} {i : NodeIdx} (h : TreeAt m i x)
    (hinternal : ∀ i : NodeIdx, (nodeOf m i).kind = .internal →
      257 ≤ i.toNat ∧ (nodeOf m i).left.toNat < i.toNat ∧ (nodeOf m i).right.toNat < i.toNat) :
    x.depth ≤ i.toNat - 256 := by
  induction x generalizing i with
  | leaf | placeholder => exact Nat.zero_le _
  | branch l r ihl ihr =>
    obtain ⟨hk, hl, hr⟩ := h
    obtain ⟨hi, hleft, hright⟩ := hinternal i hk
    have := ihl hl
    have := ihr hr
    rw [Tree.depth]
    omega

/-- What is summed up over a tree's subtrees is, of the tree the merging builds, the sum over the candidates' trees. -/
theorem Merging.sum_trees {M : Type} [AddCommMonoid M] {g : Tree → M} (hg : ∀ l r, g (.branch l r) = g l + g r)
    {m m' : Vector Node 512} {act : Finset NodeIdx} {next : Nat} {r : NodeIdx} {T : NodeIdx → Tree}
    (h : Merging m act next m' r) (hn : Numbered act next) (hsum : ∑ i ∈ act, weightAt m i < 2 ^ 56)
    (hf : Forest m act next T) : ∃ x, TreeAt m' r x ∧ g x = ∑ i ∈ act, g (T i) := by
  induction h using Merging.least_induction generalizing T with
  | done m r next => exact ⟨T r, hf.tree r (Finset.mem_singleton_self r), (Finset.sum_singleton _ _).symm⟩
  | @merge m m' act next a b r ha hb rest ih =>
    obtain ⟨x, hx, hgx⟩ := ih (hn.merge ha.1 hb.1) ((sum_weightAt_afterMerge hn ha.1 hb.1 hsum).trans_lt hsum)
      (hf.merge hn ha.1 hb.1 hsum)
    refine ⟨x, hx, hgx.trans (hn.sum_afterMerge ha.1 hb.1 ?_ fun i hi => ?_)⟩
    · rw [mergedTrees_new, hg]
    · rw [mergedTrees_old hn ha.1 hb.1 hi]

section
variable {s : State} {x : Tree}

/-- The tree TB_BUILD builds has the placeholder only beside a single symbol (R133). -/
theorem placeholders_buildTree (h : ∃ k : Sym, freqAt s k ≠ 0) (hsum : (∑ k : Sym, (freqAt s k).toNat) < 2 ^ 56)
    (hx : TreeAt (buildTree s.freq).1 (buildTree s.freq).2 x) :
    x.placeholders = if (counted s).card = 1 then 1 else 0 := by
  obtain ⟨y, hy, hsumy⟩ := (buildTree_merging h).sum_trees (g := Tree.placeholders) (fun _ _ => rfl)
    (numbered_candidates h) ((sum_weightAt_candidates s).trans_lt hsum) (forest_firstTrees h)
  have hleaf : ∑ k ∈ counted s, (firstTrees s (leafIdx k)).placeholders = 0 :=
    Finset.sum_eq_zero fun k hk => by rw [firstTrees_leafIdx (mem_counted.1 hk)]; rfl
  rw [hx.unique hy, hsumy, sum_candidates, hleaf, zero_add]
  split_ifs with hone
  · rw [firstTrees_placeholderIdx hone]; rfl
  · rfl

/-- TB_BUILD builds a tree CTG_GEN accepts: its internal nodes are numbered upwards from 257, so it is no deeper than
255. -/
theorem codable_of_tbBuild {t : State} (hu : Unlocked s) (h : ∃ k : Sym, freqAt s k ≠ 0)
    (hsum : (∑ k : Sym, (freqAt s k).toNat) < 2 ^ 56) (ht : exec .tbBuild s = .next t)
    (hx : TreeAt t.node t.root x) (hnd : x.symbols.Nodup) : x.Codable := by
  obtain rfl := Host.Outcome.next.inj ((exec_tbBuild_of_counts hu h hsum).symm.trans ht)
  obtain ⟨t', ht', -, -, hinternal, hchildren, -⟩ := builtTreeShape s _ hu hsum h rfl
  obtain rfl := Host.Outcome.next.inj (ht.symm.trans ht')
  refine ⟨buildTree_branch h hx, ?depth, hnd, ?placeholders⟩
  case depth =>
    have hdepth := hx.depth_le fun i hi => ⟨((hinternal i).1 hi).1, hchildren i hi⟩
    have hroot := (respond ((treeBuilt s).root.setWidth 64) (treeBuilt s)).root.isLt
    omega
  case placeholders =>
    rw [placeholders_buildTree h hsum hx]
    split_ifs <;> decide

end

/-- Settles O34: TB_BUILD leaves a tree over the counted symbols (`builtTreeIsOptimal`) that CTG_GEN accepts
(`codable_of_tbBuild`) and codes (`ctgGenCodesTheTree`); at most 8 bits for each counted byte fit TOTBITS. -/
theorem ctgGenAfterTbBuild : Obligations.CtgGenAfterTbBuild := by
  intro s t hu h hsum ht
  obtain ⟨t', x, ht', hx, -, hnd, hsym, hweight, -, hcost⟩ := builtTreeIsOptimal s hu h hsum
  obtain rfl := Host.Outcome.next.inj (ht.symm.trans ht')
  have hcodable := codable_of_tbBuild hu h hsum ht hx hnd
  obtain ⟨hu', hv⟩ : Unlocked t ∧ t.flag .treeValid = true := by
    obtain rfl := Host.Outcome.next.inj ((exec_tbBuild_of_counts hu h hsum).symm.trans ht)
    exact ⟨by simpa [Unlocked] using hu, by simp⟩
  obtain ⟨u, he, hreply, hcodes, hnone, htot, hframe⟩ := ctgGenCodesTheTree t x hu' hv hx hcodable
  have hset : x.symbols.toFinset = counted s := by
    ext k
    rw [List.mem_toFinset, hsym, mem_counted]
  refine ⟨u, he, ?reply, ?valid, fun k => ?coded, ?bits⟩
  case reply => rw [hreply, ← List.toFinset_card_of_nodup hnd, hset, counted]
  case valid => rw [hframe]; simp [State.flag]
  case coded =>
    rw [← hsym]
    constructor
    · exact fun hk => by_contra fun hno => hk (by rw [hnone k hno])
    · intro hk
      obtain ⟨l, hl, rfl⟩ := Tree.mem_symbols.1 hk
      exact (hcodes l hl).1
  case bits =>
    have hleaves : x.cost = ∑ k ∈ counted s, (freqAt s k).toNat * (codeOf u.code k).len.toNat :=
      Tree.sum_leaves hnd hsym fun l hl => by rw [hweight l hl, (hcodes l hl).2.2.1]
    have hall : ∑ k ∈ counted s, (freqAt s k).toNat * (codeOf u.code k).len.toNat
        = ∑ k : Sym, (freqAt s k).toNat * (codeOf u.code k).len.toNat := by
      refine Finset.sum_subset (Finset.subset_univ _) fun k _ hk => ?_
      rw [not_not.1 (mt mem_counted.2 hk)]
      exact Nat.zero_mul _
    rw [htot, Nat.mod_eq_of_lt (by omega), hleaves, hall]

end Sys2Proof.Machine

/-! ## The writer emptied, and what it refuses (43_bitstream_writer.md R171 to R173, 60_exceptions.md R286) -/

namespace Sys2Proof.Machine

/-- Settles O35: the closed word is run through the decoder, and BSW_INIT responds with the four registers of the writer
at 0 (`exec_bswInit`). -/
theorem bswInitEmptiesTheWriter : Obligations.BswInitEmptiesTheWriter :=
  ⟨by decide, fun _ hu => exec_bswInit hu⟩

/-- Settles O39: the checks of `exec_bswPutbits` and `exec_bswPutsym` come in the order of R286, before anything is
appended; bits that do not fit are the ones `overflows` finds (`overflows_eq_true`). -/
theorem writerFaultsInOrder : Obligations.WriterFaultsInOrder := by
  intro s n v k hu
  refine ⟨fun hn hv hr => ?putbits, fun hv => ?staleCode, fun hv hk => ?noCode, fun hv hk hr => ?overflow⟩
  case putbits =>
    have hw : wfPutbits n v = true := by simp [wfPutbits, hn, hv]
    rw [exec_bswPutbits hu hw, if_pos (overflows_eq_true.2 hr)]
  case staleCode => rw [exec_bswPutsym hu, if_pos hv]
  case noCode => rw [exec_bswPutsym hu, if_neg (by simp [hv]), if_pos hk]
  case overflow => rw [exec_bswPutsym hu, if_neg (by simp [hv]), if_neg hk, if_pos (overflows_eq_true.2 hr)]

end Sys2Proof.Machine

/-! ## The reader opened and trimmed, and what it refuses (44_bitstream_reader.md R191 to R193, 60_exceptions.md R286) -/

namespace Sys2Proof.Machine

/-- Settles O40: the closed word is run through the decoder, and the branches of `exec_bsrOpen` are the two cases; 8*ILEN
fits RLIM because the capacity is in the range of R5. -/
theorem openStartsAtTheFirstBit : Obligations.OpenStartsAtTheFirstBit := by
  refine ⟨by decide, fun s hu hc => ⟨fun hlong => ?badLen, fun hfits => ?opened⟩⟩
  case badLen => rw [exec_bsrOpen hu, if_pos hlong]
  case opened =>
    have hlim : (BitVec.ofNat 64 (8 * s.ilen.toNat)).toNat = 8 * s.ilen.toNat := by
      obtain ⟨-, -, hicap⟩ := hc
      rw [BitVec.toNat_ofNat, Nat.mod_eq_of_lt (by omega)]
    exact ⟨_, (exec_bsrOpen hu).trans (if_neg hfits.not_gt), hlim, rfl⟩

/-- BSR_TRIM where its bits remain: one of them that is 1 decides between the fault and the trimming (R193). -/
theorem exec_bsrTrim_of_remaining {s : State} {p : BitVec 8} (hu : Unlocked s) (hw : wfTrim p = true)
    (hr : s.rpos.toNat + p.toNat ≤ s.rlim.toNat) (hi : s.rlim.toNat ≤ 8 * s.icap) : exec (.bsrTrim p) s =
      if ∃ j, j < p.toNat ∧ inputBit s (s.rlim.toNat - p.toNat + j) = true then
        .next (raiseFault .padNonzero (encode (.bsrTrim p)) s)
      else .next (respond (BitVec.ofNat 64 (s.rlim.toNat - p.toNat - s.rpos.toNat))
        { s with rlim := BitVec.ofNat 64 (s.rlim.toNat - p.toNat) }) := by
  rw [exec_bsrTrim hu hw, if_neg (by omega), anyOne_inside s _ _ (by omega)]
  simp only [← inputBits_any]
  cases (inputBits s (s.rlim.toNat - p.toNat) p.toNat).any id <;> rfl

/-- Settles O42: no bit to be trimmed is 1, so `exec_bsrTrim_of_remaining` lowers RLIM. -/
theorem trimTakesZeroBits : Obligations.TrimTakesZeroBits := by
  intro p s hu hp hr hi hzero
  have hnone : ¬ ∃ j, j < p.toNat ∧ inputBit s (s.rlim.toNat - p.toNat + j) = true := by
    rintro ⟨j, hj, hone⟩
    exact Bool.false_ne_true ((hzero j hj).symm.trans hone)
  have hlim : (BitVec.ofNat 64 (s.rlim.toNat - p.toNat)).toNat = s.rlim.toNat - p.toNat := by
    rw [BitVec.toNat_ofNat, Nat.mod_eq_of_lt ((Nat.sub_le _ _).trans_lt s.rlim.isLt)]
  refine ⟨_, (exec_bsrTrim_of_remaining hu (decide_eq_true hp) hr hi).trans (if_neg hnone), hlim, ?frame⟩
  rw [respond_rlim, hlim]
  rfl

/-- Settles O43: each count is checked before a bit is read (`exec_bsrGetbits`, `exec_bsrTrim`), and the bits to be
trimmed before RLIM is written (`exec_bsrTrim_of_remaining`). -/
theorem readerFaultsInOrder : Obligations.ReaderFaultsInOrder := by
  intro s n p hu hn hp hs
  have hwp : wfTrim p = true := decide_eq_true hp
  refine ⟨fun hr => ?underrun, fun hr => ?padRange, fun hr hone => ?padNonzero⟩
  case underrun => rw [exec_bsrGetbits hu (decide_eq_true hn), if_pos hr]
  case padRange =>
    have hshort : s.rlim.toNat - s.rpos.toNat < p.toNat := by
      obtain ⟨hpos, -⟩ := hs
      omega
    rw [exec_bsrTrim hu hwp, if_pos hshort]
  case padNonzero => rw [exec_bsrTrim_of_remaining hu hwp hr hs.rlim_le, if_pos hone]

end Sys2Proof.Machine

/-! ## The tree walker (45_tree_walker.md R211 to R215) -/

namespace Sys2Proof.Machine

/-! ### What a walk emits -/

/-- Storing nothing stores only output. -/
theorem StoresOnlyOutput.refl (s : State) : StoresOnlyOutput s s := ⟨le_rfl, fun _ _ => rfl⟩

/-- The bytes completed by two walks, one after the other, lie between the first and the last WLEN. -/
theorem StoresOnlyOutput.trans {s t u : State} (h : StoresOnlyOutput s t) (g : StoresOnlyOutput t u) :
    StoresOnlyOutput s u := by
  obtain ⟨hle, hsame⟩ := h
  obtain ⟨gle, gsame⟩ := g
  exact ⟨hle.trans gle, fun k hk => (gsame k (by omega)).trans (hsame k (by omega))⟩

/-- What a walk that emits the symbols `xs` and meets no placeholder does to a state (R212, R215): it moves RPOS and
CUR, counts the symbols and appends 8 bits for each; nothing else changes. -/
structure Emitted (xs : List Sym) (s t : State) : Prop where
  frame : t = { s with
    rpos := t.rpos, cur := t.cur, symcnt := t.symcnt
    wlen := t.wlen, wcnt := t.wcnt, wacc := t.wacc, obuf := t.obuf }
  symcnt : t.symcnt = s.symcnt + BitVec.ofNat 64 xs.length
  count : wbits t = wbits s + 8 * xs.length
  stream : outputBits t = outputBits s ++ xs.flatMap byteBits
  stores : StoresOnlyOutput s t

/-- Moving the reader's cursor and CUR emits nothing. -/
theorem Emitted.nil (s : State) (p : BitVec 64) (i : NodeIdx) : Emitted [] s { s with rpos := p, cur := i } where
  frame := rfl
  symcnt := (BitVec.add_zero _).symm
  count := rfl
  stream := (List.append_nil _).symm
  stores := StoresOnlyOutput.refl s

/-- Appending a symbol's byte and counting it emits the symbol. -/
theorem Emitted.of_appended {s u : State} {p : BitVec 64} {k : Sym} (h : Appended (byteBits k) { s with rpos := p } u)
    (i : NodeIdx) : Emitted [k] s { u with symcnt := u.symcnt + 1, cur := i } where
  frame := by rw [h.frame]
  symcnt := by rw [h.frame]; rfl
  count := h.count
  stream := by rw [List.flatMap_singleton]; exact h.stream
  stores := h.stores

theorem Emitted.trans {xs ys : List Sym} {s t u : State} (h : Emitted xs s t) (g : Emitted ys t u) :
    Emitted (xs ++ ys) s u where
  frame := by rw [g.frame, h.frame]
  symcnt := by rw [g.symcnt, h.symcnt, List.length_append, BitVec.ofNat_add, BitVec.add_assoc]
  count := by rw [g.count, h.count, List.length_append]; omega
  stream := by rw [g.stream, h.stream, List.flatMap_append, List.append_assoc]
  stores := h.stores.trans g.stores

/-! ### One step (R212) -/

section
variable {s : State}

/-- A walker that is not armed takes no step. -/
theorem walkStep_notArmed (ha : s.flag .armed = false) : walkStep s = .raised .notArmed := if_pos ha

variable (ha : s.flag .armed = true)
include ha

/-- Nor does an armed one with no payload bit left. -/
theorem walkStep_underrun (hl : s.rlim.toNat ≤ s.rpos.toNat) : walkStep s = .raised .underrun :=
  (if_neg (by simp [ha])).trans (if_pos hl)

variable (hl : s.rpos.toNat < s.rlim.toNat) (hi : s.rpos.toNat < 8 * s.icap)
include hl hi

theorem walkStep_free (hk : (nodeAt s (childOn s (inputBit s s.rpos.toNat))).kind = .free) :
    walkStep s = .raised .badNode := by rw [walkStep_eq ha hl hi, hk]

theorem walkStep_internal (hk : (nodeAt s (childOn s (inputBit s s.rpos.toNat))).kind = .internal) :
    walkStep s = .moved 0x000 { s with rpos := s.rpos + 1, cur := childOn s (inputBit s s.rpos.toNat) } := by
  rw [walkStep_eq ha hl hi, hk]

theorem walkStep_placeholder (hk : (nodeAt s (childOn s (inputBit s s.rpos.toNat))).kind = .placeholder) :
    walkStep s =
      .moved 0x200 { s with rpos := s.rpos + 1, cur := s.root, status := putFlag s.status .phSeen true } := by
  rw [walkStep_eq ha hl hi, hk]

theorem walkStep_leaf (hk : (nodeAt s (childOn s (inputBit s s.rpos.toNat))).kind = .leaf) :
    walkStep s = emitLeaf (nodeAt s (childOn s (inputBit s s.rpos.toNat))).sym s := by
  rw [walkStep_eq ha hl hi, hk]

/-- At a leaf whose byte does not fit, nothing is emitted. -/
theorem walkStep_overflow (hk : (nodeAt s (childOn s (inputBit s s.rpos.toNat))).kind = .leaf)
    (hr : overflows s 8 = true) : walkStep s = .raised .overflow := by
  rw [walkStep_leaf ha hl hi hk, emitLeaf, if_pos hr]

/-- At a leaf whose byte fits, its symbol is emitted and the walk is back at the root. -/
theorem walkStep_emits (hk : (nodeAt s (childOn s (inputBit s s.rpos.toNat))).kind = .leaf) (hc : CapacitiesOk s)
    (hr : wbits s + 8 ≤ 8 * s.ocap) :
    ∃ t, walkStep s = .moved (0x100 + (nodeAt s (childOn s (inputBit s s.rpos.toNat))).sym.setWidth 64) t
      ∧ t.cur = s.root ∧ Emitted [(nodeAt s (childOn s (inputBit s s.rpos.toNat))).sym] s t := by
  obtain ⟨u, hu, he⟩ := emitLeaf_fits (nodeAt s (childOn s (inputBit s s.rpos.toNat))).sym hc hr
  have hroot : u.root = s.root := by rw [hu.frame]
  exact ⟨_, (walkStep_leaf ha hl hi hk).trans he, hroot, .of_appended hu _⟩

end

/-- Settles O44: the checks of `exec_dtwStart` pass, and it writes CUR, SYMCNT and the two flags. -/
theorem startArmsTheWalker : Obligations.StartArmsTheWalker := by
  intro s hu hv hk
  refine ⟨_, by rw [exec_dtwStart hu, if_neg (by simp [hv]), if_neg (not_not.2 hk)], ?_⟩
  simp [State.flag, respond]

/-- Settles O45: the child on the next bit is of one of three kinds, each with its own lemma (`walkStep_internal`,
`walkStep_emits`, `walkStep_placeholder`). -/
theorem stepMovesOneEdge : Obligations.StepMovesOneEdge := by
  rintro s c hu hc ha hl hi rfl
  refine ⟨fun hk => ?internal, fun hk hr => ?leaf, fun hk => ?placeholder⟩
  case internal =>
    rw [exec_dtwStep hu, walkStep_internal ha hl hi hk]
    rfl
  case leaf =>
    obtain ⟨t, hm, hcur, he⟩ := walkStep_emits ha hl hi hk hc hr
    have hrpos : t.rpos = s.rpos + 1 := by rw [(walkStep_frame hm).1]
    have hstream := he.stream
    have hframe := he.frame
    rw [List.flatMap_singleton] at hstream
    rw [hrpos, hcur, he.symcnt] at hframe
    refine ⟨respond _ t, by rw [exec_dtwStep hu, hm], hstream, ?frame, he.stores⟩
    exact congrArg (respond _) hframe
  case placeholder =>
    rw [exec_dtwStep hu, walkStep_placeholder ha hl hi hk]
    rfl

/-! ### The loop (R213) -/

/-- The loop after a completed step is the loop from the state the step made. -/
theorem walkLoop_of_moved {s t : State} {v : BitVec 64} (h : walkStep s = .moved v t) :
    walkLoop (s.rlim.toNat - s.rpos.toNat) s = walkLoop (t.rlim.toNat - t.rpos.toNat) t := by
  obtain ⟨hr, hl⟩ := walkStep_rpos h
  have hlim : t.rlim = s.rlim := by rw [(walkStep_frame h).1]
  have hfuel : s.rlim.toNat - s.rpos.toNat = t.rlim.toNat - t.rpos.toNat + 1 := by rw [hlim, hr]; omega
  rw [hfuel, walkLoop, if_neg hl.not_ge, h]

section
variable {s t : State} (hu : Unlocked s)
include hu

/-- DTW_RUN after a completed step is DTW_RUN from the state the step made. -/
theorem exec_dtwRun_of_moved {v : BitVec 64} (h : walkStep s = .moved v t) : exec .dtwRun s = exec .dtwRun t := by
  have hut : Unlocked t := (walkStep_flag h .errf (by decide)).trans hu
  obtain ⟨ha, -⟩ := walkStep_moved h
  have hat : t.flag .armed = true := (walkStep_flag h .armed (by decide)).trans ha
  rw [exec_dtwRun hu, exec_dtwRun hut, if_neg (by simp [ha]), if_neg (by simp [hat]), walkLoop_of_moved h]

/-- What the host was answered before plays no part in DTW_RUN. -/
theorem exec_dtwRun_reply (r : Option Reply) : exec .dtwRun { s with reply := r } = exec .dtwRun s := by
  rw [exec_dtwRun hu, exec_dtwRun (s := { s with reply := r }) hu, walkLoop_reply]
  dsimp only
  cases walkLoop (s.rlim.toNat - s.rpos.toNat) s <;> rfl

variable (ha : s.flag .armed = true)
include ha

/-- DTW_RUN with no payload bit left. -/
theorem exec_dtwRun_at_limit (hl : s.rlim.toNat ≤ s.rpos.toNat) : exec .dtwRun s =
    if s.cur ≠ s.root then .next (raiseFault .truncSymbol (encode .dtwRun) s) else .next (respond s.symcnt s) := by
  rw [exec_dtwRun hu, if_neg (by simp [ha]), Nat.sub_eq_zero_of_le hl]
  rfl

/-- DTW_RUN at a step that faults. -/
theorem exec_dtwRun_of_raised {c : Cause} (hl : s.rpos.toNat < s.rlim.toNat) (h : walkStep s = .raised c) :
    exec .dtwRun s = .next (raiseFault c (encode .dtwRun) s) := by
  obtain ⟨n, hn⟩ := Nat.exists_eq_add_one.2 (Nat.sub_pos_of_lt hl)
  rw [exec_dtwRun hu, if_neg (by simp [ha]), hn, walkLoop, if_neg hl.not_ge, h]

end

/-- Settles O46: with no payload bit left DTW_RUN ends (`exec_dtwRun_at_limit`); with one left it begins with the step
DTW_STEP takes (`exec_dtwRun_of_moved`, `exec_dtwRun_of_raised`), whose response no later step reads. -/
theorem runIsRepeatedSteps : Obligations.RunIsRepeatedSteps := by
  intro s hu ha hr
  refine ⟨fun hlim hcur => ?done, fun hlim hcur => ?truncated, fun _ t v ht hv => ?moved,
    fun hlim t c ht hc => ?raised⟩
  case done => rw [exec_dtwRun_at_limit hu ha (by rw [hlim]), if_neg (not_not.2 hcur)]; rfl
  case truncated => rw [exec_dtwRun_at_limit hu ha (by rw [hlim]), if_pos hcur]
  case moved =>
    obtain ⟨_, u, hm, rfl⟩ | ⟨_, -, rfl⟩ := exec_dtwStep_cases hu ht
    · have huu : Unlocked u := (walkStep_flag hm .errf (by decide)).trans hu
      exact (exec_dtwRun_of_moved hu hm).trans (exec_dtwRun_reply huu _).symm
    · cases hv
  case raised =>
    obtain ⟨_, u, -, rfl⟩ | ⟨d, hd, rfl⟩ := exec_dtwStep_cases hu ht
    · cases hc
    · have hcause : causeCode d = causeCode c := by simpa using hc
      have hl : s.rpos.toNat < s.rlim.toNat := lt_of_le_of_ne hr.1 fun e => hlim (BitVec.eq_of_toNat_eq e)
      rw [← causeCode_inj hcause]
      exact exec_dtwRun_of_raised hu ha hl hd

/-- Settles O47: the checks of `exec_dtwStart` and of `walkStep` come in the order of R286, before anything is
written. -/
theorem walkerFaultsInOrder : Obligations.WalkerFaultsInOrder := by
  rintro s c hu rfl
  refine ⟨fun hv => ?noTree, fun hv hk => ?badTree, fun ha => ⟨?notArmed, ?runNotArmed⟩, fun ha hl => ?underrun,
    fun ha hl hi hk => ?badNode, fun ha hl hi hk hr => ?overflow⟩
  case noTree => rw [exec_dtwStart hu, if_pos hv]
  case badTree => rw [exec_dtwStart hu, if_neg (by simp [hv]), if_pos hk]
  case notArmed => rw [exec_dtwStep hu, walkStep_notArmed ha]
  case runNotArmed => rw [exec_dtwRun hu, if_pos ha]
  case underrun => rw [exec_dtwStep hu, walkStep_underrun ha hl]
  case badNode => rw [exec_dtwStep hu, walkStep_free ha hl (hl.trans_le hi) hk]
  case overflow => rw [exec_dtwStep hu, walkStep_overflow ha hl (hl.trans_le hi) hk (overflows_eq_true.2 hr)]

/-! ### The frame (R212, R213, R288) -/

/-- A completed step stores at the bytes it completes only. -/
theorem walkStep_stores {s t : State} {v : BitVec 64} (hc : CapacitiesOk s) (h : walkStep s = .moved v t) :
    StoresOnlyOutput s t := by
  obtain ⟨ha, hl, hi, ⟨-, -, rfl⟩ | ⟨hk, hr, -⟩ | ⟨-, -, rfl⟩⟩ := walkStep_moved h
  · exact .refl s
  · obtain ⟨u, hu, -, he⟩ := walkStep_emits ha hl hi hk hc (overflows_eq_false.1 hr)
    cases h.symm.trans hu
    exact he.stores
  · exact .refl s

/-- What DTW_STEP and DTW_RUN do to a state before they answer, whatever they meet. -/
structure Walked (s t : State) : Prop where
  frame : t = { s with
    rpos := t.rpos, cur := t.cur, symcnt := t.symcnt, status := t.status
    wlen := t.wlen, wcnt := t.wcnt, wacc := t.wacc, obuf := t.obuf }
  flags : ∀ f : Flag, f ≠ .phSeen → t.flag f = s.flag f
  forward : s.rpos.toNat ≤ t.rpos.toNat
  inside : t.rpos.toNat ≤ s.rlim.toNat
  stores : StoresOnlyOutput s t

theorem Walked.refl {s : State} (hr : ReaderOk s) : Walked s s := ⟨rfl, fun _ _ => rfl, le_rfl, hr.1, .refl s⟩

theorem Walked.trans {s t u : State} (h : Walked s t) (g : Walked t u) : Walked s u where
  frame := by rw [g.frame, h.frame]
  flags := fun f hf => (g.flags f hf).trans (h.flags f hf)
  forward := h.forward.trans g.forward
  inside := by
    have hlim : t.rlim = s.rlim := by rw [h.frame]
    exact hlim ▸ g.inside
  stores := h.stores.trans g.stores

/-- A completed step is such a walk. -/
theorem Walked.of_moved {s t : State} {v : BitVec 64} (hc : CapacitiesOk s) (h : walkStep s = .moved v t) :
    Walked s t := by
  obtain ⟨hr, hl⟩ := walkStep_rpos h
  have hframe := (walkStep_frame h).1
  refine ⟨?_, walkStep_flag h, by omega, by omega, walkStep_stores hc h⟩
  have hrpos : t.rpos = s.rpos + 1 := by rw [hframe]
  rwa [← hrpos] at hframe

/-- So are the completed steps of the loop, since each keeps the invariants. -/
theorem Walked.of_loop {fuel : Nat} {s u : State} (hs : StateOk s)
    (h : walkLoop fuel s = .done u ∨ ∃ c, walkLoop fuel s = .raised c u) : Walked s u :=
  walkLoop_induction (P := fun s u => StateOk s → Walked s u) (fun _ hs => .refl hs.reader)
    (fun _ _ _ _ hw ih hs => (Walked.of_moved hs.capacities hw).trans (ih (stateOk_walkStep hs hw))) fuel s u h hs

/-- The effect of DTW_STEP and of DTW_RUN is such a walk. -/
theorem Effect.walked {i : Instr} {s u : State} (h : Effect i s u) (hi : i = .dtwStep ∨ i = .dtwRun)
    (hs : StateOk s) : Walked s u := by
  cases h with
  | untouched => exact .refl hs.reader
  | stepped v _ _ hw => exact .of_moved hs.capacities hw
  | ran fuel _ _ hw => exact .of_loop hs hw
  | _ => simp at hi

/-- Settles O49: the effect of the command is a walk (`Effect.walked`), and its answer writes ERRF, the record and the
response alone. -/
theorem walkerFrame : Obligations.WalkerFrame := by
  intro i s t hs hi h
  obtain ⟨u, he, ha⟩ := exec_effect h
  obtain ⟨hframe, hflags, hforward, hinside, hstores⟩ := he.walked hi hs
  cases ha with
  | ok v => exact ⟨by rw [hframe]; rfl, fun f hf _ => hflags f hf, hforward, hinside, hstores⟩
  | fault c =>
    refine ⟨congrArg (raiseFault c (encode i)) hframe, fun f hf hne => ?_, hforward, hinside, hstores⟩
    rw [raiseFault_flag, if_neg hne.symm, hflags f hf]
  | locked => exact ⟨by rw [hframe]; rfl, fun f hf _ => hflags f hf, hforward, hinside, hstores⟩

/-! ### Decoding (R215) -/

/-- Where a payload bit is left, RPOS is below RLIM and the bit is the one there. -/
theorem payloadBits_cons {s : State} {b : Bool} {bs : List Bool} (h : payloadBits s = b :: bs) :
    s.rpos.toNat < s.rlim.toNat ∧ inputBit s s.rpos.toNat = b ∧ inputBits s (s.rpos.toNat + 1) bs.length = bs := by
  have hlen : s.rlim.toNat - s.rpos.toNat = bs.length + 1 := by
    simpa [payloadBits] using congrArg List.length h
  rw [payloadBits, hlen, inputBits_succ, List.cons.injEq] at h
  exact ⟨by omega, h⟩

/-- A completed step consumes the first payload bit. -/
theorem payloadBits_of_moved {s t : State} {v : BitVec 64} (h : walkStep s = .moved v t) :
    payloadBits s = inputBit s s.rpos.toNat :: payloadBits t := by
  obtain ⟨hr, hl⟩ := walkStep_rpos h
  have hlim : t.rlim = s.rlim := by rw [(walkStep_frame h).1]
  have hbit : ∀ p n, inputBits t p n = inputBits s p n := fun p n => by rw [(walkStep_frame h).1]; rfl
  rw [payloadBits, payloadBits, hlim, hr, hbit, ← inputBits_succ]
  congr 1
  omega

/-- Below the first edge of a path on the walk, the rest is a path on the walk. -/
theorem OnWalk.tail {m : Vector Node 512} {i : NodeIdx} {b : Bool} {p : List Bool} (h : OnWalk m i (b :: p)) :
    OnWalk m (if b then (nodeOf m i).right else (nodeOf m i).left) p := by
  obtain ⟨hlen, hint⟩ := h
  rw [List.length_cons] at hlen hint
  exact ⟨by omega, fun n hn => hint (n + 1) (by omega)⟩

/-- DTW_RUN where the payload begins with a path from CUR over internal nodes to a leaf: it emits the leaf's symbol
and goes on from the root with the rest of the payload. -/
theorem dtwRun_decodes_symbol {p rest : List Bool} {s : State} (hs : StateOk s) (hu : Unlocked s)
    (ha : s.flag .armed = true) (hp : p ≠ []) (hw : OnWalk s.node s.cur p)
    (hk : (nodeOf s.node (follow s.node s.cur p)).kind = .leaf) (hpay : payloadBits s = p ++ rest)
    (hr : wbits s + 8 ≤ 8 * s.ocap) : ∃ t, exec .dtwRun s = exec .dtwRun t ∧ StateOk t ∧ t.cur = s.root
      ∧ payloadBits t = rest ∧ Emitted [(nodeOf s.node (follow s.node s.cur p)).sym] s t := by
  induction p generalizing s with
  | nil => exact absurd rfl hp
  | cons b q ih =>
    obtain ⟨hl, rfl, -⟩ := payloadBits_cons hpay
    have hi := hl.trans_le hs.reader.rlim_le
    have hrest : ∀ {v t}, walkStep s = .moved v t → payloadBits t = q ++ rest := fun hm => by
      have := (payloadBits_of_moved hm).symm.trans hpay
      exact (List.cons.inj this).2
    cases q with
    | nil =>
      obtain ⟨t, hm, hcur, he⟩ := walkStep_emits ha hl hi hk hs.capacities hr
      exact ⟨t, exec_dtwRun_of_moved hu hm, stateOk_walkStep hs hm, hcur, hrest hm, he⟩
    | cons c q =>
      have hint : (nodeAt s (childOn s (inputBit s s.rpos.toNat))).kind = .internal := hw.tail.2 0 (by simp)
      have hm := walkStep_internal ha hl hi hint
      obtain ⟨t, hrun, ht, hcur, hpay', he⟩ :=
        ih (stateOk_walkStep hs hm) hu ha (by simp) hw.tail hk (hrest hm) hr
      exact ⟨t, (exec_dtwRun_of_moved hu hm).trans hrun, ht, hcur, hpay', (Emitted.nil s _ _).trans he⟩

/-- Emitting symbols changes no flag. -/
theorem Emitted.flag {xs : List Sym} {s t : State} (h : Emitted xs s t) (f : Flag) : t.flag f = s.flag f := by
  rw [h.frame]; rfl

/-- DTW_RUN from the root over the codes of `xs` (R215). -/
theorem dtwRun_decodes {xs : List Sym} {s : State} (hs : StateOk s) (hu : Unlocked s) (hv : s.flag .codeValid = true)
    (ha : s.flag .armed = true) (hcur : s.cur = s.root) (hx : ∀ x ∈ xs, hasCode s.code x)
    (hpay : payloadBits s = xs.flatMap (fun x => codeString (codeOf s.code x)))
    (hr : wbits s + 8 * xs.length ≤ 8 * s.ocap) : ∃ t, exec .dtwRun s = .next (respond t.symcnt t)
      ∧ t.cur = s.root ∧ t.rpos = s.rlim ∧ Emitted xs s t := by
  induction xs generalizing s with
  | nil =>
    have hl : s.rlim.toNat - s.rpos.toNat = 0 := by simpa [payloadBits] using congrArg List.length hpay
    have hlim : s.rpos = s.rlim := BitVec.eq_of_toNat_eq (by have := hs.reader.1; omega)
    refine ⟨s, ?_, hcur, hlim, .nil s s.rpos s.cur⟩
    rw [exec_dtwRun_at_limit hu ha (by rw [hlim]), if_neg (not_not.2 hcur)]
  | cons x xs ih =>
    obtain ⟨hx, hxs⟩ := List.forall_mem_cons.1 hx
    obtain ⟨hw, hleaf, hsym⟩ := codeString_leads_to_leaf hs.code hv hx
    rw [List.flatMap_cons] at hpay
    rw [List.length_cons] at hr
    rw [← hcur] at hw hleaf hsym
    have hne : codeString (codeOf s.code x) ≠ [] := fun e => hx (BitVec.eq_of_toNat_eq (by
      simpa [codeString] using congrArg List.length e))
    obtain ⟨t, hrun, ht, htcur, htpay, he⟩ :=
      dtwRun_decodes_symbol hs hu ha hne hw hleaf hpay (by omega)
    rw [hsym] at he
    have hroot : t.root = s.root := by rw [he.frame]
    have hcode : t.code = s.code := by rw [he.frame]
    have hlim : t.rlim = s.rlim := by rw [he.frame]
    have hocap : t.ocap = s.ocap := by rw [he.frame]
    have hcount := he.count
    rw [List.length_singleton] at hcount
    obtain ⟨u, hrun', hucur, hurpos, he'⟩ := ih ht ((he.flag _).trans hu) ((he.flag _).trans hv)
      ((he.flag _).trans ha) (htcur.trans hroot.symm) (hcode ▸ hxs) (by rw [htpay, hcode]) (by omega)
    exact ⟨u, hrun.trans hrun', hucur.trans hroot, hurpos.trans hlim, he.trans he'⟩

/-- Settles O48: DTW_RUN emits the symbols one after the other (`dtwRun_decodes`), since the code of each leads the
walk to its leaf. -/
theorem walkerInvertsTheWriter : Obligations.WalkerInvertsTheWriter := by
  intro s xs hs hu hv ha hcur hx hpay hr
  obtain ⟨t, hrun, htcur, hrpos, he⟩ := dtwRun_decodes hs hu hv ha hcur hx hpay hr
  have hframe := he.frame
  rw [hrpos, htcur.trans hcur.symm] at hframe
  exact ⟨respond t.symcnt t, hrun, he.stream, he.symcnt, rfl, congrArg (respond t.symcnt) hframe, he.stores⟩

end Sys2Proof.Machine

/-! ## The host sequences (46_archive_sequences.md R230): one operation after the other -/

namespace Sys2Proof.Machine

/-! ### The operations of a sequence -/

/-- The block as a command or a host write finds it: the operation is counted (log entry 5). -/
abbrev tick (s : State) : State := { s with ops := s.ops + 1 }

theorem stateOk_tick {s : State} (h : StateOk s) : StateOk (tick s) := stateOk_issued h s.pending _

theorem stateOk_exec {i : Instr} {s t : State} (hs : StateOk s) (h : exec i s = .next t) : StateOk t := by
  obtain ⟨u, he, ha⟩ := exec_effect h
  exact ha.keeps_stateOk (he.keeps_stateOk hs)

section
variable {α β : Type} {i : Instr} {s t u : State} {e : Failure}

/-- A command that ends OK gives its value to the sequence. -/
theorem seqCmd_respond {v : BitVec 64} (hw : i.WellFormed) (h : exec i (tick s) = .next (respond v u)) :
    seqCmd i s = (.ok v, respond v u) := seqCmd_ok (decode_encode.2 hw) h rfl

/-- A command that faults ends the sequence with its cause. -/
theorem seqCmd_raise {c : Cause} {w : Word} (hw : i.WellFormed) (h : exec i (tick s) = .next (raiseFault c w u)) :
    seqCmd i s = (.error (.fault (causeCode c)), raiseFault c w u) := seqCmd_fault (decode_encode.2 hw) h rfl

theorem seq_pure (a : α) (s : State) : (pure a : Seq α) s = (.ok a, s) := rfl

theorem seq_throw (e : Failure) (s : State) : (throw e : Seq α) s = (.error e, s) := rfl

/-- A check of the host: the sequence fails, or goes on. -/
theorem seq_check {c : Prop} [Decidable c] (e : Failure) (k : Unit → Seq α) (s : State) :
    (if c then throw e >>= k else k ()) s = if c then (.error e, s) else k () s := by
  split
  · exact seq_bind_error (seq_throw e s)
  · rfl

/-! ### Sequences that blame the archive or the capacities alone (R256, R292) -/

/-- A failure that is no HostError. -/
def Pardonable (e : Failure) : Prop := failureClass e = .formatError ∨ failureClass e = .capacityError

theorem failureClass_fault (c : Cause) : failureClass (.fault (causeCode c)) = causeClass c := by cases c <;> rfl

/-- From `s` the sequence ends with a result and a state of which `Q` holds, or with a failure that is no HostError. -/
def Runs (m : Seq α) (s : State) (Q : α → State → Prop) : Prop :=
  (∀ a t, m s = (.ok a, t) → Q a t) ∧ ∀ e t, m s = (.error e, t) → Pardonable e

variable {m : Seq α} {f : α → Seq β} {Q : α → State → Prop} {R : β → State → Prop}

theorem Runs.of_ok {a : α} (h : m s = (.ok a, t)) (hQ : Q a t) : Runs m s Q := by
  refine ⟨fun b u hb => ?_, fun e u he => ?_⟩
  · cases h.symm.trans hb; exact hQ
  · cases h.symm.trans he

theorem Runs.of_error (h : m s = (.error e, t)) (he : Pardonable e) : Runs m s Q := by
  refine ⟨fun b u hb => ?_, fun d u hd => ?_⟩
  · cases h.symm.trans hb
  · cases h.symm.trans hd; exact he

theorem Runs.bind (hm : Runs m s Q) (hf : ∀ a t, Q a t → Runs (f a) t R) : Runs (m >>= f) s R := by
  rcases h : m s with ⟨_ | a, t⟩
  · exact .of_error (seq_bind_error h) (hm.2 _ _ h)
  · have hrun := hf a t (hm.1 _ _ h)
    simpa only [Runs, seq_bind_ok h] using hrun

theorem Runs.check {c : Prop} [Decidable c] {k : Unit → Seq α} (he : Pardonable e) (hk : ¬ c → Runs (k ()) s Q) :
    Runs (if c then throw e >>= k else k ()) s Q := by
  by_cases hc : c
  · exact .of_error (by rw [seq_check, if_pos hc]) he
  · simpa only [Runs, seq_check, if_neg hc] using hk hc

end

/-! ### FREQ_COUNT (R231) -/

/-- The count of each byte value in a byte sequence, as FREQ holds it. -/
def countTable (x : List Byte) : Vector Weight 256 := .ofFn fun k => BitVec.ofNat 56 (x.count (BitVec.ofNat 8 k))

/-- FREQ with the counts of some symbols of `x` written; a count of 0 is not. -/
def countsWritten (x : List Byte) (l : List Sym) (f : Vector Weight 256) : Vector Weight 256 :=
  l.foldl (fun f k => if x.count k ≠ 0 then f.set k.toNat (BitVec.ofNat 56 (x.count k)) k.isLt else f) f

theorem freqAt_eq_of_freq {s : State} {f : Vector Weight 256} (h : s.freq = f) (k : Sym) :
    freqAt s k = f[k.toNat]'k.isLt := by subst h; rfl

theorem countTable_get (x : List Byte) (k : Sym) : (countTable x)[k.toNat]'k.isLt = BitVec.ofNat 56 (x.count k) := by
  simp [countTable]

theorem countsWritten_get (x : List Byte) (l : List Sym) (f : Vector Weight 256) (k : Sym) :
    (countsWritten x l f)[k.toNat]'k.isLt =
      if k ∈ l ∧ x.count k ≠ 0 then BitVec.ofNat 56 (x.count k) else f[k.toNat]'k.isLt := by
  induction l generalizing f with
  | nil => simp [countsWritten]
  | cons j l ih =>
    refine (ih _).trans ?_
    by_cases hk : k = j
    · subst hk
      by_cases h0 : x.count k ≠ 0 <;> simp [h0]
    · have hkj : j.toNat ≠ k.toNat := fun e => hk (BitVec.eq_of_toNat_eq e.symm)
      by_cases h0 : x.count j ≠ 0 <;> simp [h0, hk, hkj, Vector.getElem_set_ne]

/-- Every count is written, or was 0 already. -/
theorem countsWritten_noCounts (x : List Byte) : countsWritten x allSyms noCounts = countTable x := by
  refine Vector.ext fun i hi => ?_
  obtain ⟨k, rfl⟩ : ∃ k : Sym, k.toNat = i := ⟨.ofFin ⟨i, hi⟩, rfl⟩
  rw [countsWritten_get, countTable_get]
  by_cases h0 : x.count k ≠ 0
  · rw [if_pos ⟨mem_allSyms k, h0⟩]
  · rw [if_neg fun h => h0 h.2, not_not.1 h0]
    exact Vector.getElem_replicate _

/-- What a sequence that writes FREQ alone makes of a state. -/
structure Recounted (f : Vector Weight 256) (s t : State) : Prop where
  frame : t = { s with freq := t.freq, ops := t.ops, reply := t.reply }
  freq : t.freq = f

theorem seqWrite_freq {s : State} (hu : Unlocked s) (k : Sym) (v : Nat) : ∃ t, seqWrite 1 k.toNat v s = (.ok (), t)
    ∧ Recounted (s.freq.set k.toNat (BitVec.ofNat 56 v) k.isLt) s t := by
  refine ⟨_, seqWrite_eq 1 k.toNat v s, ?_⟩
  rw [hostWrite_unlocked 1 k.toNat v (s := tick s) hu, writeEntry_freq k.isLt]
  exact ⟨rfl, rfl⟩

theorem writeCounts_runs {x : List Byte} {l : List Sym} {s : State} (hu : Unlocked s) :
    ∃ t, writeCounts x l s = (.ok (), t) ∧ Recounted (countsWritten x l s.freq) s t := by
  induction l generalizing s with
  | nil => exact ⟨s, rfl, rfl, rfl⟩
  | cons k l ih =>
    by_cases h0 : x.count k ≠ 0
    · obtain ⟨t, ht, hframe, hfreq⟩ := seqWrite_freq hu k (x.count k)
      have hut : Unlocked t := by rw [Unlocked, hframe]; exact hu
      obtain ⟨u, hu', hframe', hfreq'⟩ := ih hut
      refine ⟨u, ?_, by rw [hframe', hframe], ?_⟩
      · rw [writeCounts, if_pos h0, seq_bind_ok ht]; exact hu'
      · rw [hfreq', hfreq, countsWritten, countsWritten, List.foldl_cons, if_pos h0]
    · obtain ⟨u, hu', hframe', hfreq'⟩ := ih hu
      refine ⟨u, ?_, hframe', ?_⟩
      · rw [writeCounts, if_neg h0]; exact hu'
      · rw [hfreq', countsWritten, countsWritten, List.foldl_cons, if_neg h0]

/-- FREQ_COUNT leaves the counts in FREQ and changes nothing else (R231). -/
theorem freqCount_counts (x : List Byte) {s : State} (hu : Unlocked s) :
    ∃ t, freqCount x s = (.ok (), t) ∧ Recounted (countTable x) s t := by
  have hclrf := seqCmd_respond (s := s) rfl (exec_tbClrf (s := tick s) hu)
  obtain ⟨t, ht, hframe, hfreq⟩ :=
    writeCounts_runs (x := x) (l := allSyms) (s := respond 0 { tick s with freq := noCounts }) hu
  refine ⟨t, (seq_bind_ok hclrf).trans ht, hframe, ?_⟩
  rw [hfreq]
  exact countsWritten_noCounts x

/-- A count of a sequence of fewer than 2^56 bytes fits FREQ. -/
theorem freqAt_countTable {x : List Byte} (hx : x.length < 2 ^ 56) {s : State} (h : s.freq = countTable x) (k : Sym) :
    (freqAt s k).toNat = x.count k := by
  rw [freqAt_eq_of_freq h, countTable_get, BitVec.toNat_ofNat, Nat.mod_eq_of_lt (List.count_le_length.trans_lt hx)]

/-- Settles O55: FREQ_COUNT leaves `countTable x` in FREQ (`freqCount_counts`), and every count fits. -/
theorem freqCountCountsBytes : Obligations.FreqCountCountsBytes := by
  intro x s hu hx
  obtain ⟨t, ht, hframe, hfreq⟩ := freqCount_counts x hu
  exact ⟨t, ht, freqAt_countTable hx hfreq, hframe⟩

end Sys2Proof.Machine

/-! ## GET_TREE (46_archive_sequences.md R243 to R245): the trees whose descriptions it reads, and what it refuses -/

namespace Sys2Proof.Machine

/-! ### Reading bits -/

/-- What a sequence has done to the reader when it took the bits `bs` off the payload. -/
structure Took (bs : List Bool) (s t : State) : Prop where
  frame : t = { s with rpos := t.rpos, ops := t.ops, reply := t.reply }
  payload : payloadBits s = bs ++ payloadBits t
  reader : ReaderOk t
  keeps : StateOk s → StateOk t

section
variable {s t u : State} {as bs rest : List Bool} {n : BitVec 8}

theorem Took.unlocked (h : Took bs s t) (hu : Unlocked s) : Unlocked t := by
  rw [Unlocked, h.frame]; exact hu

theorem Took.trans (h : Took as s t) (g : Took bs t u) : Took (as ++ bs) s u where
  frame := by rw [g.frame, h.frame]
  payload := by rw [h.payload, g.payload, List.append_assoc]
  reader := g.reader
  keeps := g.keeps ∘ h.keeps

/-- The payload begins with the bits from RPOS on. -/
theorem payloadBits_split {k : Nat} (h : s.rpos.toNat + k ≤ s.rlim.toNat) : payloadBits s =
    inputBits s s.rpos.toNat k ++ inputBits s (s.rpos.toNat + k) (s.rlim.toNat - (s.rpos.toNat + k)) := by
  rw [payloadBits, ← inputBits_add]
  congr 1
  omega

/-- BSR_GETBITS n takes the next n bits where they remain (R192). -/
theorem getbits_of_room (hu : Unlocked s) (hr : ReaderOk s) (hn : n.toNat ≤ 16)
    (hroom : s.rpos.toNat + n.toNat ≤ s.rlim.toNat) : ∃ t, seqCmd (.bsrGetbits n) s =
      (.ok (BitVec.ofNat 64 (bitsValue (inputBits s s.rpos.toNat n.toNat))), t)
      ∧ Took (inputBits s s.rpos.toNat n.toNat) s t := by
  have hexec := exec_bsrGetbits_of_remaining (s := tick s) hu (decide_eq_true hn) hroom hr.rlim_le
  have hpos : (BitVec.ofNat 64 (s.rpos.toNat + n.toNat)).toNat = s.rpos.toNat + n.toNat := by
    rw [BitVec.toNat_ofNat, Nat.mod_eq_of_lt (hroom.trans_lt s.rlim.isLt)]
  refine ⟨_, seqCmd_respond (decide_eq_true hn) hexec, rfl, ?payload, ⟨hpos.trans_le hroom, hr.2⟩,
    fun hs => stateOk_exec (stateOk_tick hs) hexec⟩
  case payload =>
    refine (payloadBits_split hroom).trans (congrArg _ ?_)
    rw [payloadBits, respond_rpos, respond_rlim, hpos]
    rfl

theorem getbits_takes (hu : Unlocked s) (hr : ReaderOk s) (hn : n.toNat ≤ 16) (hp : payloadBits s = bs ++ rest)
    (hl : bs.length = n.toNat) :
    ∃ t, seqCmd (.bsrGetbits n) s = (.ok (BitVec.ofNat 64 (bitsValue bs)), t) ∧ Took bs s t := by
  have hlen : s.rlim.toNat - s.rpos.toNat = bs.length + rest.length := by
    simpa [payloadBits] using congrArg List.length hp
  have hroom : s.rpos.toNat + n.toNat ≤ s.rlim.toNat := by have := hr.1; omega
  have hbits := (List.append_inj ((payloadBits_split hroom).symm.trans hp) (by simp [hl])).1
  exact hbits ▸ getbits_of_room hu hr hn hroom

/-- BSR_GETBITS takes its bits, or ends the sequence with E_UNDERRUN, a FormatError (R192, R244). -/
theorem getbits_runs (hu : Unlocked s) (hr : ReaderOk s) (hn : n.toNat ≤ 16) : Runs (seqCmd (.bsrGetbits n)) s
    (fun v t => ∃ bs, bs.length = n.toNat ∧ v = BitVec.ofNat 64 (bitsValue bs) ∧ Took bs s t) := by
  by_cases hroom : s.rlim.toNat < s.rpos.toNat + n.toNat
  · have hexec := (exec_bsrGetbits (s := tick s) hu (decide_eq_true hn)).trans (if_pos hroom)
    exact .of_error (seqCmd_raise (decide_eq_true hn) hexec) (.inl (failureClass_fault .underrun))
  · obtain ⟨t, ht, htook⟩ := getbits_of_room hu hr hn (not_lt.1 hroom)
    exact .of_ok ht ⟨_, inputBits_length .., rfl, htook⟩

end

/-! ### Tree descriptions (R237) and the host's variables -/

/-- The description of a tree: its nodes in preorder, a leaf with its 9-bit leaf id. -/
def Tree.bits : Tree → List Bool
  | .leaf k _ => true :: false :: byteBits k
  | .placeholder => true :: true :: List.replicate 8 false
  | .branch l r => false :: (l.bits ++ r.bits)

/-- How many nodes of a tree are internal. -/
def Tree.inner : Tree → Nat
  | .leaf _ _ => 0
  | .placeholder => 0
  | .branch l r => l.inner + r.inner + 1

/-- The tree as its description gives it back: without weights. -/
def Tree.unweighted : Tree → Tree
  | .leaf k _ => .leaf k 0
  | .placeholder => .placeholder
  | .branch l r => .branch l.unweighted r.unweighted

/-- The host's variables when Parse has met an internal node and goes on below it (R243). -/
def ParseVars.descend (h : ParseVars) : ParseVars := { h with ni := h.ni + 1, nx := h.nx + 1 }

/-- The host's variables when Parse has read a tree (R243). -/
def ParseVars.after (h : ParseVars) : Tree → ParseVars
  | .leaf k _ => { h with seen := k :: h.seen, nreal := h.nreal + 1, nx := h.nx + 1 }
  | .placeholder => { h with ph := true, nx := h.nx + 1 }
  | .branch l r => (h.descend.after l).after r

section
variable (h : ParseVars) (x l r : Tree)

@[simp] theorem ParseVars.after_unweighted : h.after x.unweighted = h.after x := by
  induction x generalizing h with
  | leaf | placeholder => rfl
  | branch l r ihl ihr => simp [Tree.unweighted, ParseVars.after, ihl, ihr]

theorem ParseVars.after_seen : (h.after x).seen = x.symbols.reverse ++ h.seen := by
  induction x generalizing h with
  | leaf | placeholder => rfl
  | branch l r ihl ihr => simp [Tree.symbols, ParseVars.after, ParseVars.descend, ihl, ihr]

theorem ParseVars.after_ni : (h.after x).ni = h.ni + x.inner := by
  induction x generalizing h with
  | leaf | placeholder => rfl
  | branch l r ihl ihr => simp only [Tree.inner, ParseVars.after, ParseVars.descend, ihl, ihr]; omega

theorem ParseVars.after_nreal : (h.after x).nreal = h.nreal + x.symbols.length := by
  induction x generalizing h with
  | leaf | placeholder => rfl
  | branch l r ihl ihr =>
    simp only [Tree.symbols, ParseVars.after, ParseVars.descend, ihl, ihr, List.length_append]; omega

theorem ParseVars.after_ph : (h.after x).ph = (h.ph || decide (x.placeholders ≠ 0)) := by
  induction x generalizing h with
  | leaf | placeholder => simp [Tree.placeholders, ParseVars.after]
  | branch l r ihl ihr =>
    simp only [Tree.placeholders, ParseVars.after, ParseVars.descend, ihl, ihr, Bool.or_assoc]
    congr 1
    by_cases hl : l.placeholders = 0 <;> simp [hl]

theorem ParseVars.after_nx :
    (h.after x).nx = h.nx + x.inner + x.symbols.length + x.placeholders := by
  induction x generalizing h with
  | leaf | placeholder => rfl
  | branch l r ihl ihr =>
    simp only [Tree.inner, Tree.symbols, Tree.placeholders, ParseVars.after, ParseVars.descend, ihl, ihr,
      List.length_append]
    omega

/-- A tree has one leaf more than it has internal nodes. -/
theorem Tree.leaves_eq_inner_succ : x.symbols.length + x.placeholders = x.inner + 1 := by
  induction x with
  | leaf | placeholder => rfl
  | branch l r ihl ihr => simp only [Tree.inner, Tree.symbols, Tree.placeholders, List.length_append]; omega

/-- A tree Parse accepts when it has met what the host's variables say (R243, R244). -/
structure Acceptable : Prop where
  nodup : x.symbols.Nodup
  unmet : ∀ k ∈ x.symbols, k ∉ h.seen
  single : h.ph.toNat + x.placeholders ≤ 1
  few : h.ni + x.inner ≤ 255

variable {h x l r}

theorem ParseVars.after_ph_toNat (ha : h.ph.toNat + x.placeholders ≤ 1) :
    (h.after x).ph.toNat = h.ph.toNat + x.placeholders := by
  rw [ParseVars.after_ph]
  obtain h0 | h1 : x.placeholders = 0 ∨ x.placeholders = 1 := by omega
  · simp [h0]
  · have hph : h.ph.toNat = 0 := by omega
    rw [Bool.toNat_eq_zero] at hph
    simp [h1, hph]

/-- Parse accepts a branch exactly when it accepts its left subtree, and then its right subtree. -/
theorem acceptable_branch :
    Acceptable h (.branch l r) ↔ Acceptable h.descend l ∧ Acceptable (h.descend.after l) r := by
  constructor
  · intro ⟨hnd, hun, hph, hni⟩
    rw [Tree.placeholders] at hph
    rw [Tree.inner] at hni
    obtain ⟨hndl, hndr, hdis⟩ := List.nodup_append.1 hnd
    have hsingle : h.descend.ph.toNat + l.placeholders ≤ 1 := by rw [ParseVars.descend]; dsimp only; omega
    refine ⟨⟨hndl, fun k hk => hun k (List.mem_append_left _ hk), hsingle, ?_⟩, ⟨hndr, fun k hk => ?_, ?_, ?_⟩⟩
    · rw [ParseVars.descend]; dsimp only; omega
    · rw [ParseVars.after_seen, List.mem_append, List.mem_reverse, not_or]
      exact ⟨fun hl => hdis k hl k hk rfl, hun k (List.mem_append_right _ hk)⟩
    · rw [ParseVars.after_ph_toNat hsingle, ParseVars.descend]; dsimp only; omega
    · rw [ParseVars.after_ni, ParseVars.descend]; dsimp only; omega
  · rintro ⟨⟨hndl, hunl, hphl, -⟩, hndr, hunr, hphr, hnir⟩
    rw [ParseVars.after_ph_toNat hphl] at hphr
    rw [ParseVars.after_ni] at hnir
    simp only [ParseVars.after_seen, List.mem_append, List.mem_reverse, not_or] at hunr
    have hun : ∀ k ∈ (Tree.branch l r).symbols, k ∉ h.seen := fun k hk => by
      obtain hk | hk := List.mem_append.1 hk
      · exact hunl k hk
      · exact (hunr k hk).2
    refine ⟨List.nodup_append.2 ⟨hndl, hndr, fun k hk j hj e => (hunr j hj).1 (e ▸ hk)⟩, hun, ?_, ?_⟩
    · rw [ParseVars.descend] at hphr; rw [Tree.placeholders]; dsimp only at hphr; omega
    · rw [ParseVars.descend] at hnir; rw [Tree.inner]; dsimp only at hnir; omega

/-- What the host's variables say of the nodes met so far. -/
structure VarsOk (h : ParseVars) : Prop where
  nodup : h.seen.Nodup
  nreal : h.nreal = h.seen.length
  nx : h.nx = h.ni + h.nreal + h.ph.toNat
  few : h.ni ≤ 255

theorem varsOk_parseStart : VarsOk parseStart := ⟨List.nodup_nil, rfl, rfl, by decide⟩

theorem VarsOk.descend (hv : VarsOk h) (hni : h.ni + 1 ≤ 255) : VarsOk h.descend :=
  ⟨hv.nodup, hv.nreal, by simp only [ParseVars.descend, hv.nx]; omega, hni⟩

theorem VarsOk.after (hv : VarsOk h) (ha : Acceptable h x) : VarsOk (h.after x) := by
  refine ⟨?_, ?_, ?_, ?_⟩
  · rw [ParseVars.after_seen]
    exact (List.nodup_reverse.2 ha.nodup).append hv.nodup fun k hk => ha.unmet k (List.mem_reverse.1 hk)
  · simp [ParseVars.after_nreal, ParseVars.after_seen, hv.nreal, Nat.add_comm]
  · rw [ParseVars.after_nx, ParseVars.after_ni, ParseVars.after_nreal, ParseVars.after_ph_toNat ha.single, hv.nx]
    omega
  · rw [ParseVars.after_ni]; exact ha.few

/-- 255 internal nodes, 256 symbols and a placeholder fit NODE. -/
theorem VarsOk.nx_le (hv : VarsOk h) : h.nx ≤ 512 := by
  have hseen : h.seen.length ≤ 256 :=
    (hv.nodup.subperm fun k _ => mem_allSyms k).length_le.trans_eq (by simp [allSyms])
  have hph := Bool.toNat_le h.ph
  have hnx := hv.nx
  have hreal := hv.nreal
  have hni := hv.few
  omega

/-- Every node of a tree Parse accepts has an entry of NODE to itself. -/
theorem VarsOk.room (hv : VarsOk h) (ha : Acceptable h x) : h.nx < (h.after x).nx ∧ (h.after x).nx ≤ 512 := by
  refine ⟨?_, (hv.after ha).nx_le⟩
  have hleaves := x.leaves_eq_inner_succ
  rw [ParseVars.after_nx]
  omega

end

/-! ### Writing a node -/

/-- The block after the host wrote a node into NODE (R31, R70). -/
def nodeStored (i : Nat) (n : Node) (s : State) : State :=
  { writeNode (BitVec.ofNat 9 i) (packNode n).toNat (tick s) with reply := some .written }

section
variable {s : State} {i : Nat} {n : Node}

theorem seqWrite_node (hu : Unlocked s) (hi : i < 512) :
    seqWrite 2 i (packNode n).toNat s = (.ok (), nodeStored i n s) := by
  rw [seqWrite_eq, hostWrite_unlocked 2 i _ (s := tick s) hu, writeEntry_node hi, nodeStored]

@[simp] theorem nodeStored_node : (nodeStored i n s).node = putNode s.node (BitVec.ofNat 9 i) n := by
  simp [nodeStored]

@[simp] theorem nodeStored_errf : (nodeStored i n s).flag .errf = s.flag .errf :=
  (writeNode_flag (BitVec.ofNat 9 i) (packNode n).toNat (tick s) .errf).trans (by simp [State.flag])

@[simp] theorem payloadBits_nodeStored : payloadBits (nodeStored i n s) = payloadBits s := rfl

theorem nodeStored_frame : nodeStored i n s = { s with
    node := (nodeStored i n s).node, status := (nodeStored i n s).status
    ops := (nodeStored i n s).ops, reply := (nodeStored i n s).reply } := rfl

theorem stateOk_nodeStored (hu : Unlocked s) (hi : i < 512) (hs : StateOk s) : StateOk (nodeStored i n s) := by
  have h := stateOk_hostWrite 2 i (packNode n).toNat (stateOk_tick hs)
  rw [hostWrite_unlocked 2 i _ (s := tick s) hu, writeEntry_node hi] at h
  exact stateOk_reply h _

theorem toNat_ofNat_index (hi : i < 512) : (BitVec.ofNat 9 i : NodeIdx).toNat = i := by
  rw [BitVec.toNat_ofNat, Nat.mod_eq_of_lt hi]

end

/-! ### What Parse does (R243) -/

/-- What Parse makes of a state when it has read the tree `x` with the variables `h`: the description is taken off the
payload, and NODE holds the tree in the entries numbered from `h.nx` on, which is all of NODE that changed. -/
structure Parsed (x : Tree) (h : ParseVars) (s t : State) : Prop where
  frame : t = { s with node := t.node, status := t.status, rpos := t.rpos, ops := t.ops, reply := t.reply }
  unlocked : Unlocked t
  payload : payloadBits s = x.bits ++ payloadBits t
  reader : ReaderOk t
  keeps : StateOk s → StateOk t
  others : ∀ j : NodeIdx, j.toNat < h.nx ∨ (h.after x).nx ≤ j.toNat → nodeOf t.node j = nodeOf s.node j
  tree : ∀ m, (∀ j : NodeIdx, h.nx ≤ j.toNat → j.toNat < (h.after x).nx → nodeOf m j = nodeOf t.node j) →
    TreeAt m (BitVec.ofNat 9 h.nx) x

section
variable {x l r : Tree} {h : ParseVars} {s s' t u : State} {n : Node}

/-- Parse at a leaf: its bits are taken, and its node is written. -/
theorem Parsed.single (ht : Took x.bits s t) (hu : Unlocked s) (hi : h.nx < 512) (hnx : (h.after x).nx = h.nx + 1)
    (htree : ∀ m, nodeOf m (BitVec.ofNat 9 h.nx) = n → TreeAt m (BitVec.ofNat 9 h.nx) x) :
    Parsed x h s (nodeStored h.nx n t) where
  frame := by rw [nodeStored_frame, ht.frame]
  unlocked := (nodeStored_errf).trans (ht.unlocked hu)
  payload := ht.payload
  reader := ht.reader
  keeps := fun hs => stateOk_nodeStored (ht.unlocked hu) hi (ht.keeps hs)
  others := fun j hj => by
    have hne : j ≠ BitVec.ofNat 9 h.nx := by
      rintro rfl
      rw [toNat_ofNat_index hi, hnx] at hj
      omega
    rw [nodeStored_node, nodeOf_putNode, if_neg hne, ht.frame]
  tree := fun m hm => htree m (by
    rw [hm _ (toNat_ofNat_index hi).ge (by rw [toNat_ofNat_index hi, hnx]; omega), nodeStored_node, nodeOf_putNode,
      if_pos rfl])

/-- Parse at an internal node: its bit is taken, the subtrees are read one after the other, and the node is written
into the entry that was kept free for it. -/
theorem Parsed.branch (ht : Took [false] s s') (hl : Parsed l h.descend s' t)
    (hr : Parsed r (h.descend.after l) t u) (hlt : h.descend.nx < (h.descend.after l).nx)
    (hrt : (h.descend.after l).nx < ((h.descend.after l).after r).nx) (hle : ((h.descend.after l).after r).nx ≤ 512) :
    Parsed (.branch l r) h s (nodeStored h.nx ⟨.internal, 0, BitVec.ofNat 9 h.descend.nx,
      BitVec.ofNat 9 (h.descend.after l).nx, 0⟩ u) := by
  have hd : h.descend.nx = h.nx + 1 := rfl
  have hi : h.nx < 512 := by omega
  have hafter : h.after (.branch l r) = (h.descend.after l).after r := rfl
  have hne : ∀ j : NodeIdx, j.toNat ≠ h.nx → j ≠ BitVec.ofNat 9 h.nx := fun j hj e => hj (by
    rw [e, toNat_ofNat_index hi])
  constructor
  case frame => rw [nodeStored_frame, hr.frame, hl.frame, ht.frame]
  case unlocked => exact nodeStored_errf.trans hr.unlocked
  case payload =>
    rw [ht.payload, hl.payload, hr.payload, Tree.bits, payloadBits_nodeStored]
    simp
  case reader => exact hr.reader
  case keeps => exact fun hs => stateOk_nodeStored hr.unlocked hi (hr.keeps (hl.keeps (ht.keeps hs)))
  case others =>
    intro j hj
    rw [hafter] at hj
    rw [nodeStored_node, nodeOf_putNode, if_neg (hne j (by omega)), hr.others j (by omega), hl.others j (by omega),
      ht.frame]
  case tree =>
    intro m hm
    rw [hafter] at hm
    have hself := hm (BitVec.ofNat 9 h.nx) (toNat_ofNat_index hi).ge (by rw [toNat_ofNat_index hi]; omega)
    rw [nodeStored_node, nodeOf_putNode, if_pos rfl] at hself
    have hother : ∀ j : NodeIdx, h.descend.nx ≤ j.toNat → j.toNat < ((h.descend.after l).after r).nx →
        nodeOf m j = nodeOf u.node j := fun j hj hj' => by
      rw [hm j (by omega) hj', nodeStored_node, nodeOf_putNode, if_neg (hne j (by omega))]
    rw [TreeAt, hself]
    refine ⟨rfl, hl.tree m fun j hj hj' => ?_, hr.tree m fun j hj hj' => hother j (by omega) hj'⟩
    rw [hother j hj (by omega), hr.others j (.inl hj')]

end

end Sys2Proof.Machine

namespace Sys2Proof.Machine

/-! ### A leaf (R238, R243) -/

section
variable {h : ParseVars} {s t u : State} {v : Nat} {bs : List Bool}

theorem parseLeaf_dup (hv : v ≤ 0xFF) (hseen : BitVec.ofNat 8 v ∈ h.seen) :
    parseLeaf v h s = (.error .dupSymbol, s) := by
  rw [parseLeaf, if_pos hv]
  exact (seq_check ..).trans (if_pos hseen)

theorem parseLeaf_multi (hv : v = 0x100) (hph : h.ph = true) : parseLeaf v h s = (.error .multiPlaceholder, s) := by
  rw [parseLeaf, if_neg (by omega), if_pos hv]
  exact (seq_check ..).trans (if_pos hph)

theorem parseLeaf_reserved (hv : 0x101 ≤ v) : parseLeaf v h s = (.error .reservedLeaf, s) := by
  rw [parseLeaf, if_neg (by omega), if_neg (by omega)]
  exact seq_throw _ s

/-- A symbol not met before is a leaf. -/
theorem parseLeaf_symbol (hu : Unlocked s) (hi : h.nx < 512) (hv : v ≤ 0xFF) (hseen : BitVec.ofNat 8 v ∉ h.seen) :
    parseLeaf v h s = (.ok (h.nx, h.after (.leaf (BitVec.ofNat 8 v) 0)),
      nodeStored h.nx ⟨.leaf, BitVec.ofNat 8 v, 0, 0, 0⟩ s) := by
  rw [parseLeaf, if_pos hv]
  refine (seq_check ..).trans ((if_neg hseen).trans ?_)
  exact seq_bind_ok (seqWrite_node hu hi)

theorem parseLeaf_placeholder (hu : Unlocked s) (hi : h.nx < 512) (hv : v = 0x100) (hph : h.ph = false) :
    parseLeaf v h s = (.ok (h.nx, h.after .placeholder), nodeStored h.nx ⟨.placeholder, 0, 0, 0, 0⟩ s) := by
  rw [parseLeaf, if_neg (by omega), if_pos hv]
  refine (seq_check ..).trans ((if_neg (by simp [hph])).trans ?_)
  exact seq_bind_ok (seqWrite_node hu hi)

/-- The bits of a leaf whose leaf id is a symbol's. -/
theorem bits_leaf (hl : bs.length = 9) (hv : bitsValue bs ≤ 0xFF) :
    true :: bs = (Tree.leaf (BitVec.ofNat 8 (bitsValue bs)) 0).bits := by
  have hbs := msbFirst_bitsValue bs
  rw [hl, msbFirst, Nat.testBit_lt_two_pow (show bitsValue bs < 2 ^ 8 by omega)] at hbs
  rw [Tree.bits, byteBits, BitVec.toNat_ofNat, Nat.mod_eq_of_lt (by omega), hbs]

/-- The bits of a leaf whose leaf id is the placeholder's. -/
theorem bits_placeholder (hl : bs.length = 9) (hv : bitsValue bs = 0x100) : true :: bs = Tree.placeholder.bits := by
  have hbs := msbFirst_bitsValue bs
  rw [hl, hv] at hbs
  rw [← hbs]
  decide

/-- What the leaf's node is, once its bits are taken. -/
theorem parsed_leaf {k : Sym} (ht : Took (Tree.leaf k 0).bits s t) (hu : Unlocked s) (hi : h.nx < 512) :
    Parsed (.leaf k 0) h s (nodeStored h.nx ⟨.leaf, k, 0, 0, 0⟩ t) :=
  .single ht hu hi rfl fun m hm => by rw [TreeAt, hm]; exact ⟨rfl, rfl, rfl⟩

theorem parsed_placeholder (ht : Took Tree.placeholder.bits s t) (hu : Unlocked s) (hi : h.nx < 512) :
    Parsed .placeholder h s (nodeStored h.nx ⟨.placeholder, 0, 0, 0, 0⟩ t) :=
  .single ht hu hi rfl fun m hm => by rw [TreeAt, hm]

theorem acceptable_leaf {k : Sym} {w : Weight} (hk : k ∉ h.seen) (hv : VarsOk h) : Acceptable h (.leaf k w) :=
  ⟨List.nodup_singleton k, fun j hj => by rwa [List.mem_singleton.1 hj], Bool.toNat_le h.ph, hv.few⟩

theorem acceptable_placeholder (hph : h.ph = false) (hv : VarsOk h) : Acceptable h .placeholder :=
  ⟨List.nodup_nil, nofun, by simp [hph, Tree.placeholders], hv.few⟩

/-- What Parse answers: the tree it has read, no deeper than it may be, or a FormatError. -/
def ParseAnswer (fuel depth : Nat) (h : ParseVars) (s : State) (a : Nat × ParseVars) (t : State) : Prop :=
  ∃ x, a = (h.nx, h.after x) ∧ Acceptable h x ∧ x.depth < fuel ∧ (depth = 0 → ∃ l r, x = .branch l r) ∧ Parsed x h s t

theorem parseLeaf_runs {fuel depth : Nat} (hd : depth ≠ 0) (hu : Unlocked s) (hv : VarsOk h) (hl : bs.length = 9)
    (ht : Took (true :: bs) s t) : Runs (parseLeaf (bitsValue bs) h) t (ParseAnswer (fuel + 1) depth h s) := by
  have hut := ht.unlocked hu
  by_cases hsym : bitsValue bs ≤ 0xFF
  · by_cases hseen : BitVec.ofNat 8 (bitsValue bs) ∈ h.seen
    · exact .of_error (parseLeaf_dup hsym hseen) (.inl rfl)
    · have ha := acceptable_leaf (w := 0) hseen hv
      have hi : h.nx < 512 := (hv.room ha).1.trans_le (hv.room ha).2
      rw [bits_leaf hl hsym] at ht
      exact .of_ok (parseLeaf_symbol hut hi hsym hseen)
        ⟨_, rfl, ha, Nat.zero_lt_succ _, fun h0 => absurd h0 hd, parsed_leaf ht hu hi⟩
  · by_cases hph : bitsValue bs = 0x100
    · by_cases hmet : h.ph = true
      · exact .of_error (parseLeaf_multi hph hmet) (.inl rfl)
      · rw [Bool.not_eq_true] at hmet
        have ha := acceptable_placeholder hmet hv
        have hi : h.nx < 512 := (hv.room ha).1.trans_le (hv.room ha).2
        rw [bits_placeholder hl hph] at ht
        exact .of_ok (parseLeaf_placeholder hut hi hph hmet)
          ⟨_, rfl, ha, Nat.zero_lt_succ _, fun h0 => absurd h0 hd, parsed_placeholder ht hu hi⟩
    · exact .of_error (parseLeaf_reserved (by omega)) (.inl rfl)

end

/-! ### A node (R243) -/

/-- A string of one bit is that bit. -/
theorem eq_singleton_of_length_one {bs : List Bool} (h : bs.length = 1) : bs = [false] ∨ bs = [true] := by
  obtain ⟨b, rfl⟩ := List.length_eq_one_iff.1 h
  cases b <;> simp

section
variable {n depth : Nat} {h : ParseVars} {s s' t u : State}

/-- Parse at a 0 bit reads the left subtree, then the right one, and writes the node. -/
theorem parseNode_inner (h1 : seqCmd (.bsrGetbits 1) s = (.ok 0, s')) (hni : h.ni + 1 ≤ 255) :
    parseNode (n + 1) depth h s = (parseNode n (depth + 1) h.descend >>= fun l => parseNode n (depth + 1) l.2 >>= fun r =>
      seqWrite 2 h.nx (packNode ⟨.internal, 0, BitVec.ofNat 9 l.1, BitVec.ofNat 9 r.1, 0⟩).toNat >>= fun _ =>
      pure (h.nx, r.2)) s' := by
  rw [parseNode, seq_bind_ok h1]
  refine (congrFun (if_pos rfl) s').trans ((seq_check ..).trans (if_neg (by omega)))

/-- Parse at a 1 bit at depth 0. -/
theorem parseNode_rootLeaf (h1 : seqCmd (.bsrGetbits 1) s = (.ok 1, s')) :
    parseNode (n + 1) 0 h s = (.error .rootLeaf, s') := by
  rw [parseNode, seq_bind_ok h1]
  exact (congrFun (if_neg (by decide)) s').trans ((seq_check ..).trans (if_pos rfl))

/-- Parse at a 1 bit below the root reads a leaf id. -/
theorem parseNode_leaf {v : BitVec 64} (h1 : seqCmd (.bsrGetbits 1) s = (.ok 1, s')) (hd : depth ≠ 0)
    (h9 : seqCmd (.bsrGetbits 9) s' = (.ok v, t)) : parseNode (n + 1) depth h s = parseLeaf v.toNat h t := by
  rw [parseNode, seq_bind_ok h1]
  refine (congrFun (if_neg (by decide)) s').trans ((seq_check ..).trans ((if_neg hd).trans ?_))
  exact seq_bind_ok h9

/-- The leaf id, read as a response. -/
theorem toNat_leafId {bs : List Bool} (hl : bs.length = 9) : (BitVec.ofNat 64 (bitsValue bs)).toNat = bitsValue bs := by
  have hlt := bitsValue_lt bs
  rw [hl] at hlt
  rw [BitVec.toNat_ofNat, Nat.mod_eq_of_lt (by omega)]

/-- Parse reads only trees it accepts, and fails with FormatErrors alone (R244, R245). -/
theorem parseNode_runs (fuel : Nat) (hu : Unlocked s) (hr : ReaderOk s) (hv : VarsOk h) :
    Runs (parseNode fuel depth h) s (ParseAnswer fuel depth h s) := by
  induction fuel generalizing depth h s with
  | zero => exact .of_error (seq_throw .tooManyNodes s) (.inl rfl)
  | succ fuel ih =>
    rw [parseNode]
    refine (getbits_runs hu hr (by decide)).bind fun d s' ⟨bs, hbs, hd, htook⟩ => ?_
    have hu' := htook.unlocked hu
    obtain rfl | rfl := eq_singleton_of_length_one hbs
    · -- an internal node: its subtrees, by induction
      have hd : d = 0 := hd
      rw [if_pos hd]
      refine .check (.inl rfl) fun hni => ?_
      have hvd := hv.descend (not_lt.1 hni)
      refine (ih hu' htook.reader hvd).bind ?_
      rintro _ t ⟨l, rfl, hal, hdl, -, hl⟩
      refine (ih hl.unlocked hl.reader (hvd.after hal)).bind ?_
      rintro _ u ⟨r, rfl, har, hdr, -, hr⟩
      have hroom := (hvd.after hal).room har
      have hlt := (hvd.room hal).1
      have hnx : h.descend.nx = h.nx + 1 := rfl
      refine .of_ok (seq_bind_ok (seqWrite_node hr.unlocked (by omega)))
        ⟨.branch l r, rfl, acceptable_branch.2 ⟨hal, har⟩, ?_, fun _ => ⟨l, r, rfl⟩,
          .branch htook hl hr hlt hroom.1 hroom.2⟩
      rw [Tree.depth]
      omega
    · -- a leaf
      rw [hd, if_neg (by decide)]
      refine .check (.inl rfl) fun h0 => ?_
      refine (getbits_runs hu' htook.reader (by decide)).bind ?_
      rintro _ t ⟨bs, hl, rfl, htook'⟩
      rw [toNat_leafId hl]
      exact parseLeaf_runs h0 hu hv hl (htook.trans htook')

@[simp] theorem Tree.bits_unweighted (x : Tree) : x.unweighted.bits = x.bits := by
  induction x with
  | leaf | placeholder => rfl
  | branch l r ihl ihr => rw [Tree.unweighted, Tree.bits, Tree.bits, ihl, ihr]

/-- Parse at a 1 bit below the root, the leaf id left to be told apart. -/
theorem parseNode_leafId {bs rest : List Bool} (hu : Unlocked s) (hr : ReaderOk s) (hd : depth ≠ 0)
    (hl : bs.length = 9) (hp : payloadBits s = true :: (bs ++ rest)) :
    ∃ t, parseNode (n + 1) depth h s = parseLeaf (bitsValue bs) h t ∧ Took (true :: bs) s t := by
  obtain ⟨s', h1, ht⟩ := getbits_takes (bs := [true]) (n := 1) hu hr (by decide) hp rfl
  have hp' : payloadBits s' = bs ++ rest := (List.cons.inj (hp.symm.trans ht.payload)).2.symm
  obtain ⟨t, h9, ht'⟩ := getbits_takes (n := 9) (ht.unlocked hu) ht.reader (by decide) hp' hl
  exact ⟨t, by rw [parseNode_leaf h1 hd h9, toNat_leafId hl], ht.trans ht'⟩

/-- Parse reads every tree it accepts back from its description (R243, R258 item 1). -/
theorem parseNode_reads (x : Tree) {fuel : Nat} {rest : List Bool} (hu : Unlocked s) (hr : ReaderOk s) (hv : VarsOk h)
    (ha : Acceptable h x) (hp : payloadBits s = x.bits ++ rest) (hfuel : x.depth < fuel)
    (hroot : depth = 0 → ∃ l r, x = .branch l r) :
    ∃ t, parseNode fuel depth h s = (.ok (h.nx, h.after x), t) ∧ Parsed x.unweighted h s t := by
  obtain ⟨n, rfl⟩ : ∃ n, fuel = n + 1 := ⟨fuel - 1, by omega⟩
  have hi : h.nx < 512 := (hv.room ha).1.trans_le (hv.room ha).2
  induction x generalizing n depth h s rest with
  | leaf k w =>
    have hd : depth ≠ 0 := fun h0 => by obtain ⟨l, r, e⟩ := hroot h0; cases e
    obtain ⟨t, ht, htook⟩ := parseNode_leafId (n := n) (h := h) (bs := false :: byteBits k) hu hr hd (by simp) hp
    have hval : bitsValue (false :: byteBits k) = k.toNat := by
      rw [bitsValue_cons, byteBits, bitsValue_msbFirst, Nat.mod_eq_of_lt k.isLt]; simp
    rw [hval, parseLeaf_symbol (htook.unlocked hu) hi (Nat.le_of_lt_succ k.isLt)
      (by simpa using ha.unmet k (List.mem_singleton_self k))] at ht
    rw [BitVec.ofNat_toNat, BitVec.setWidth_eq] at ht
    exact ⟨_, ht, parsed_leaf htook hu hi⟩
  | placeholder =>
    have hd : depth ≠ 0 := fun h0 => by obtain ⟨l, r, e⟩ := hroot h0; cases e
    have hph : h.ph = false := by
      have hle := ha.single
      rw [Tree.placeholders] at hle
      exact Bool.toNat_eq_zero.1 (by omega)
    obtain ⟨t, ht, htook⟩ := parseNode_leafId (n := n) (h := h) hu hr hd rfl hp
    rw [parseLeaf_placeholder (htook.unlocked hu) hi (by decide) hph] at ht
    exact ⟨_, ht, parsed_placeholder htook hu hi⟩
  | branch l r ihl ihr =>
    obtain ⟨hal, har⟩ := acceptable_branch.1 ha
    have hni : h.ni + 1 ≤ 255 := by have := hal.few; rw [ParseVars.descend] at this; dsimp only at this; omega
    have hvl := hv.descend hni
    have hvr := hvl.after hal
    have hlt := hvl.room hal
    have hrt := hvr.room har
    rw [Tree.depth] at hfuel
    obtain ⟨m, rfl⟩ : ∃ m, n = m + 1 := ⟨n - 1, by omega⟩
    obtain ⟨s', h1, ht⟩ := getbits_takes (bs := [false]) (n := 1) hu hr (by decide) hp rfl
    have hpl : payloadBits s' = l.bits ++ (r.bits ++ rest) := by
      simpa [Tree.bits] using ht.payload.symm.trans hp
    obtain ⟨t, hl, hparl⟩ := ihl (depth := depth + 1) (ht.unlocked hu) ht.reader hvl hal hpl nofun m (by omega)
      (hlt.1.trans_le hlt.2)
    have hpr : payloadBits t = r.bits ++ rest := by
      have hrest := hparl.payload.symm.trans hpl
      rw [Tree.bits_unweighted] at hrest
      exact List.append_cancel_left hrest
    obtain ⟨u, hr', hparr⟩ := ihr (depth := depth + 1) hparl.unlocked hparl.reader hvr har hpr nofun m (by omega)
      (hrt.1.trans_le hrt.2)
    refine ⟨_, (parseNode_inner h1 hni).trans ((seq_bind_ok hl).trans ((seq_bind_ok hr').trans
      (seq_bind_ok (seqWrite_node hparr.unlocked hi)))), ?_⟩
    have hpar := Parsed.branch ht hparl (r := r.unweighted) (u := u)
    simp only [ParseVars.after_unweighted] at hpar
    exact hpar hparr hlt.1 hrt.1 hrt.2

end

/-! ### GET_TREE (R243, R245) -/

section
variable {s t : State}

/-- The last check of GET_TREE (R243). -/
theorem getTree_of_parse {i : Nat} {h : ParseVars} (hp : parseNode 256 0 parseStart s = (.ok (i, h), t)) :
    getTree s = if (h.ph && h.nreal != 1) = true then (.error .placeholderShape, t) else (.ok i, t) :=
  (seq_bind_ok hp).trans (seq_check .placeholderShape (fun _ => pure i) t)

/-- The trees GET_TREE returns (R245). -/
def Tree.Readable (x : Tree) : Prop := x.Codable ∧ (x.placeholders = 1 → x.symbols.length = 1)

/-- Where GET_TREE returns a root, it is that of a readable tree, and GET_TREE fails with FormatErrors alone. -/
theorem getTree_runs (hu : Unlocked s) (hr : ReaderOk s) :
    Runs getTree s (fun root t => root = 0 ∧ ∃ x : Tree, x.Readable ∧ Parsed x parseStart s t) := by
  refine (parseNode_runs 256 hu hr varsOk_parseStart).bind ?_
  rintro _ t ⟨x, rfl, ha, hd, hroot, hp⟩
  refine .check (.inl rfl) fun hshape => .of_ok (seq_pure _ t)
    ⟨rfl, x, ⟨⟨hroot rfl, Nat.le_of_lt_succ hd, ha.nodup, ?_⟩, fun hph => ?_⟩, hp⟩
  · have hle := ha.single
    omega
  · simpa [ParseVars.after_ph, ParseVars.after_nreal, parseStart, hph] using hshape

/-- NODE holds the tree GET_TREE has read at its root. -/
theorem Parsed.treeAt {x : Tree} (h : Parsed x parseStart s t) : TreeAt t.node (BitVec.ofNat 9 0) x :=
  h.tree t.node fun _ _ _ => rfl

/-- The root of a branch is INTERNAL. -/
theorem TreeAt.internal_of_branch {m : Vector Node 512} {i : NodeIdx} {x : Tree} (h : TreeAt m i x)
    (hx : ∃ l r, x = .branch l r) : (nodeOf m i).kind = .internal := by
  obtain ⟨l, r, rfl⟩ := hx
  exact h.1

/-- Settles O56: what GET_TREE returns is the root of a readable tree (`getTree_runs`). -/
theorem getTreeReadsOnlyTrees : Obligations.GetTreeReadsOnlyTrees := by
  intro s t root _ hu hr h
  obtain ⟨rfl, x, ⟨hx, hshape⟩, hp⟩ := (getTree_runs hu hr).1 _ _ h
  exact ⟨hp.treeAt.internal_of_branch hx.1, x, hp.treeAt, hx, hshape⟩

/-- Parse accepts every readable tree: at most 256 leaves take at most 255 internal nodes. -/
theorem Tree.Readable.acceptable {x : Tree} (h : x.Readable) : Acceptable parseStart x := by
  obtain ⟨⟨hroot, hdepth, hnd, hph⟩, hshape⟩ := h
  refine ⟨hnd, nofun, by simpa [parseStart] using hph, ?_⟩
  have hsyms : x.symbols.length ≤ 256 :=
    (hnd.subperm fun k _ => mem_allSyms k).length_le.trans_eq (by simp [allSyms])
  have hleaves := x.leaves_eq_inner_succ
  have hni : parseStart.ni = 0 := rfl
  omega

/-- GET_TREE reads a readable tree back from its description (R258 item 1). -/
theorem getTree_reads {x : Tree} {rest : List Bool} (hx : x.Readable) (hu : Unlocked s) (hr : ReaderOk s)
    (hp : payloadBits s = x.bits ++ rest) : ∃ t, getTree s = (.ok 0, t) ∧ Parsed x.unweighted parseStart s t := by
  obtain ⟨t, ht, hpar⟩ := parseNode_reads x (depth := 0) hu hr varsOk_parseStart hx.acceptable hp
    (Nat.lt_succ_of_le hx.1.2.1) (fun _ => hx.1.1)
  refine ⟨t, (getTree_of_parse ht).trans (if_neg ?_), hpar⟩
  obtain ⟨⟨-, -, -, hph⟩, hshape⟩ := hx
  simp [ParseVars.after_ph, ParseVars.after_nreal, parseStart]
  exact fun h0 => hshape (by omega)

end

/-! ### The leaves Parse refuses (R244) -/

/-- Parse refuses a leaf at depth 0, a reserved leaf id, a symbol met before and a second placeholder. -/
theorem parseNode_refuses {s : State} (n depth : Nat) (h : ParseVars) (hu : Unlocked s) (hr : ReaderOk s)
    {bs rest : List Bool} (hl : bs.length = 9) (hp : payloadBits s = true :: (bs ++ rest)) :
    (depth = 0 → ∃ t, parseNode (n + 1) depth h s = (.error .rootLeaf, t))
    ∧ (depth ≠ 0 → 0x101 ≤ bitsValue bs → ∃ t, parseNode (n + 1) depth h s = (.error .reservedLeaf, t))
    ∧ (depth ≠ 0 → bitsValue bs ≤ 0xFF → BitVec.ofNat 8 (bitsValue bs) ∈ h.seen →
        ∃ t, parseNode (n + 1) depth h s = (.error .dupSymbol, t))
    ∧ (depth ≠ 0 → bitsValue bs = 0x100 → h.ph = true →
        ∃ t, parseNode (n + 1) depth h s = (.error .multiPlaceholder, t)) := by
  refine ⟨?_, fun hd hv => ?_, fun hd hv hseen => ?_, fun hd hv hph => ?_⟩
  · rintro rfl
    obtain ⟨t, h1, -⟩ := getbits_takes (bs := [true]) (n := 1) hu hr (by decide) hp rfl
    exact ⟨t, parseNode_rootLeaf h1⟩
  all_goals obtain ⟨t, ht, -⟩ := parseNode_leafId (n := n) (h := h) hu hr hd hl hp
  · exact ⟨t, ht.trans (parseLeaf_reserved hv)⟩
  · exact ⟨t, ht.trans (parseLeaf_dup hv hseen)⟩
  · exact ⟨t, ht.trans (parseLeaf_multi hv hph)⟩

end Sys2Proof.Machine

/-! ## DECOMPRESS (46_archive_sequences.md R255, R256): the archive loaded, and the failures it can end with -/

namespace Sys2Proof.Machine

/-! ### The bytes of the buffers as bits (R61) -/

section
variable {s t : State}

theorem bitsValue_byteBits (b : Byte) : bitsValue (byteBits b) = b.toNat := by
  rw [byteBits, bitsValue_msbFirst, Nat.mod_eq_of_lt b.isLt]

/-- A byte sequence is known by its bits. -/
theorem eq_of_flatMap_byteBits : ∀ {a b : List Byte}, a.flatMap byteBits = b.flatMap byteBits → a = b
  | [], [], _ => rfl
  | [], y :: b, h => by simp [byteBits_eq] at h
  | x :: a, [], h => by simp [byteBits_eq] at h
  | x :: a, y :: b, h => by
    rw [List.flatMap_cons, List.flatMap_cons] at h
    obtain ⟨hxy, hab⟩ := List.append_inj h (by simp)
    rw [eq_of_flatMap_byteBits hab, BitVec.eq_of_toNat_eq (x := x) (y := y)]
    rw [← bitsValue_byteBits, hxy, bitsValue_byteBits]

theorem length_flatMap_byteBits (a : List Byte) : (a.flatMap byteBits).length = 8 * a.length := by
  induction a with
  | nil => rfl
  | cons b a ih => simp only [List.flatMap_cons, List.length_append, ih, byteBits_length, List.length_cons]; omega

/-- The eight bits of an input byte. -/
theorem inputBits_byte (s : State) (k : Nat) : inputBits s (8 * k) 8 = byteBits (ibufByte s k) := by
  rw [byteBits, msbFirst_eq_map, inputBits]
  refine List.map_congr_left fun j hj => ?_
  have hj : j < 8 := List.mem_range.1 hj
  rw [inputBit, BitVec.testBit_toNat, show (8 * k + j) / 8 = k by omega, show (8 * k + j) % 8 = j by omega]

/-- Reading OBUF changes the reply alone. -/
theorem readOutput_eq (n k : Nat) (s : State) (h : k + n ≤ s.ocap) : ∃ r,
    readOutput n k s = (.ok ((List.range n).map fun j => obufByte s (k + j)), { s with reply := r }) := by
  induction n generalizing k s with
  | zero => exact ⟨s.reply, rfl⟩
  | succ n ih =>
    obtain ⟨r, hr⟩ := ih (k + 1) { s with reply := some (.data (hostRead 5 k s)) } (by dsimp only; omega)
    refine ⟨r, (seq_bind_ok (seqRead_eq 5 k s)).trans ((seq_bind_ok hr).trans ?_)⟩
    have hbyte : BitVec.ofNat 8 (hostRead 5 k s) = obufByte s k := by
      rw [hostRead_obuf (by omega), BitVec.ofNat_toNat, BitVec.setWidth_eq]
    rw [seq_pure, hbyte, List.range_succ_eq_map, List.map_cons, List.map_map]
    congr 3
    exact List.map_congr_left fun j _ => by
      rw [Function.comp_apply, Nat.succ_eq_add_one, Nat.add_right_comm, Nat.add_assoc]; rfl

/-- With no bit in the accumulator the host takes the stream, byte by byte (R250, R255). -/
theorem takeOutput_takes (hw : WriterOk s) (h0 : s.wcnt = 0) :
    ∃ a r, takeOutput s = (.ok a, { s with reply := r }) ∧ a.flatMap byteBits = outputBits s := by
  have hroom : 0 + s.wlen.toNat ≤ s.ocap := by have := hw.2; unfold wbits at this; omega
  obtain ⟨r, hr⟩ := readOutput_eq s.wlen.toNat 0 { s with reply := some (.data (hostRead 0 5 s)) } hroom
  refine ⟨_, r, (seq_bind_ok (seqRead_eq 0 5 s)).trans hr, ?_⟩
  rw [outputBits_of_wholeBytes h0, List.flatMap_map]
  simp only [Nat.zero_add]
  rfl

end

/-! ### The archive loaded (R255) -/

theorem stateOk_resetState_of_capacities {s : State} (hc : CapacitiesOk s) : StateOk (resetState s) where
  capacities := hc
  buffers := ⟨⟨List.Pairwise.nil, nofun⟩, List.Pairwise.nil, nofun⟩
  writer := ⟨rfl, Nat.zero_le _⟩
  output := fun _ hk => absurd hk (Nat.not_lt_zero _)
  reader := ⟨le_rfl, fun h => absurd h (Nat.not_lt_zero _)⟩
  walker := fun h => absurd h (by simp)
  code := fun h => absurd h (by simp)
  error := ⟨by simp [errCause], fun _ => ⟨rfl, rfl⟩⟩

/-- The block after the SYS_RESET a sequence begins with. -/
def resetBlock (s : State) : State := respond 0 (resetState (tick s))

section
variable {s t : State} {a bs : List Byte}

theorem seqCmd_sysReset (s : State) : seqCmd .sysReset s = (.ok 0, resetBlock s) :=
  seqCmd_respond rfl (exec_sysReset (tick s))

theorem stateOk_resetBlock (hc : CapacitiesOk s) : StateOk (resetBlock s) :=
  stateOk_reply (stateOk_resetState_of_capacities (s := tick s) hc) _

theorem unlocked_resetBlock (s : State) : Unlocked (resetBlock s) :=
  resetState_flag (tick s) .errf

/-- What loading bytes into IBUF from index `k` on makes of a state. -/
structure Loaded (k : Nat) (bs : List Byte) (s t : State) : Prop where
  frame : t = { s with ibuf := t.ibuf, ops := t.ops, reply := t.reply }
  keeps : StateOk s → StateOk t
  below : ∀ j, j < k → ibufByte t j = ibufByte s j
  bits : inputBits t (8 * k) (8 * bs.length) = bs.flatMap byteBits

theorem seqWrite_ibuf (hu : Unlocked s) {k : Nat} (hk : k < s.icap) (b : Byte) :
    ∃ t, seqWrite 4 k b.toNat s = (.ok (), t) ∧ t = { s with ibuf := t.ibuf, ops := t.ops, reply := t.reply }
      ∧ (StateOk s → StateOk t) ∧ ∀ j, ibufByte t j = if j = k then b else ibufByte s j := by
  have hw : hostWrite 4 k b.toNat (tick s) = { tick s with ibuf := memInsert s.ibuf k (BitVec.ofNat 8 b.toNat) } :=
    (hostWrite_unlocked 4 k b.toNat (s := tick s) hu).trans (writeEntry_ibuf (s := tick s) hk)
  refine ⟨_, seqWrite_eq 4 k b.toNat s, by rw [hw], fun hs => ?_, fun j => BitVec.eq_of_toNat_eq ?_⟩
  · exact stateOk_reply (stateOk_hostWrite 4 k b.toNat (stateOk_tick hs)) _
  · have hbyte := ibufByte_memInsert (s := s) (v := b.toNat) (i := k)
      (u := { hostWrite 4 k b.toNat (tick s) with reply := some .written }) (by rw [hw]) (by rw [hw]) j
    rw [hbyte]
    split_ifs
    · exact Nat.mod_eq_of_lt b.isLt
    · rfl

theorem loadInput_loads {k : Nat} (hu : Unlocked s) (hk : k + bs.length ≤ s.icap) :
    ∃ t, loadInput k bs s = (.ok (), t) ∧ Loaded k bs s t := by
  induction bs generalizing k s with
  | nil => exact ⟨s, rfl, rfl, id, fun _ _ => rfl, rfl⟩
  | cons b bs ih =>
    rw [List.length_cons] at hk
    obtain ⟨u, hwrite, hframe, hkeeps, hbyte⟩ := seqWrite_ibuf hu (show k < s.icap by omega) b
    have hicap : u.icap = s.icap := by rw [hframe]
    obtain ⟨t, ht, hl⟩ := ih (k := k + 1) (s := u) (by rw [Unlocked, hframe]; exact hu) (by omega)
    refine ⟨t, (seq_bind_ok hwrite).trans ht, by rw [hl.frame, hframe], hl.keeps ∘ hkeeps, fun j hj => ?_, ?_⟩
    · rw [hl.below j (by omega), hbyte, if_neg (by omega)]
    · rw [List.length_cons, show 8 * (bs.length + 1) = 8 + 8 * bs.length by omega, inputBits_add, inputBits_byte,
        hl.below k (by omega), hbyte, if_pos rfl, show 8 * k + 8 = 8 * (k + 1) by omega, hl.bits, List.flatMap_cons]

/-- The block with an archive in IBUF and the reader at its first bit, the writer empty. -/
structure Opened (a : List Byte) (s t : State) : Prop where
  ok : StateOk t
  unlocked : Unlocked t
  payload : payloadBits t = a.flatMap byteBits
  ocap : t.ocap = s.ocap
  empty : wbits t = 0

/-- The host declares the input (R28). -/
theorem seqWrite_ilen (hu : Unlocked s) {m : Nat} (hm : m < 2 ^ 64) : ∃ t, seqWrite 0 9 m s = (.ok (), t)
    ∧ t.ilen.toNat = m ∧ t = { s with ilen := t.ilen, rpos := 0, rlim := 0, ops := t.ops, reply := t.reply }
    ∧ (StateOk s → StateOk t) := by
  have hw : hostWrite 0 9 m (tick s) = writeIlen m (tick s) := hostWrite_unlocked 0 9 m (s := tick s) hu
  refine ⟨_, seqWrite_eq 0 9 m s, ?_, by rw [hw]; rfl, fun hs => ?_⟩
  · rw [hw]; exact (BitVec.toNat_ofNat m 64).trans (Nat.mod_eq_of_lt hm)
  · exact stateOk_reply (stateOk_hostWrite 0 9 m (stateOk_tick hs)) _

/-- BSR_OPEN on a declared input that fits IBUF (R191). -/
theorem seqCmd_bsrOpen (hu : Unlocked s) (hs : StateOk s) (hl : s.ilen.toNat ≤ s.icap) :
    ∃ v t, seqCmd .bsrOpen s = (.ok v, t) ∧ t.rlim.toNat = 8 * s.ilen.toNat
      ∧ t = { s with rpos := 0, rlim := t.rlim, ops := t.ops, reply := t.reply } ∧ StateOk t := by
  obtain ⟨t, he, hlim, hframe⟩ := (openStartsAtTheFirstBit.2 (tick s) hu hs.capacities).2 hl
  exact ⟨_, t, seqCmd_ok (by decide) he (by rw [hframe]), hlim, by rw [hframe], stateOk_exec (stateOk_tick hs) he⟩

/-- DECOMPRESS once the tree is to be read (R255). -/
def readTreeAndPayload : Seq (List Byte) := do
  let root ← getTree
  let p ← seqCmd (.bsrGetbits 3)
  let _ ← seqCmd (.bsrTrim (p.setWidth 8))
  seqWrite 0 3 root
  let _ ← seqCmd .dtwStart
  let _ ← seqCmd .dtwRun
  takeOutput

/-- DECOMPRESS of an archive of `m` bytes once it is loaded and the reader is open (R255). -/
def readArchive (m : Nat) : Seq (List Byte) := do
  let e ← seqCmd (.bsrGetbits 1)
  if e = 1 then
    if m ≠ 1 then throw .badEmpty
    let z ← seqCmd (.bsrGetbits 7)
    if z ≠ 0 then throw .badEmpty
    pure []
  else readTreeAndPayload

theorem decompress_nil (s : State) : decompress [] s = (.error .emptyInput, resetBlock s) :=
  (seq_bind_ok (seqCmd_sysReset s)).trans ((seq_check ..).trans (if_pos rfl))

theorem decompress_tooLong (ha : a ≠ []) (hl : s.icap < a.length) : decompress a s = (.error .tooLong, resetBlock s) :=
  (seq_bind_ok (seqCmd_sysReset s)).trans ((seq_check ..).trans ((if_neg ha).trans
    ((seq_bind_ok (a := resetBlock s) (t := resetBlock s) rfl).trans ((seq_check ..).trans (if_pos hl)))))

/-- Where the archive fits IBUF, DECOMPRESS loads it and opens the reader (R255). -/
theorem decompress_opens (hc : CapacitiesOk s) (ha : a ≠ []) (hl : a.length ≤ s.icap) :
    ∃ t, Opened a s t ∧ decompress a s = readArchive a.length t := by
  have hsmall := hc.2.2
  obtain ⟨u, hload, hu⟩ := loadInput_loads (k := 0) (bs := a) (s := resetBlock s) (unlocked_resetBlock s)
    (by rw [Nat.zero_add]; exact hl)
  have huu : Unlocked u := by rw [Unlocked, hu.frame]; exact unlocked_resetBlock s
  obtain ⟨w, hwrite, hilen, hw, hkeeps⟩ := seqWrite_ilen huu (m := a.length) (by omega)
  have huw : Unlocked w := by rw [Unlocked, hw]; exact huu
  have hicap : w.icap = s.icap := by rw [hw, hu.frame]; rfl
  obtain ⟨v, t, hopen, hlim, ht, hok⟩ :=
    seqCmd_bsrOpen huw (hkeeps (hu.keeps (stateOk_resetBlock hc))) (by rw [hilen, hicap]; exact hl)
  have hbits : ∀ p n, inputBits t p n = inputBits u p n := fun p n => by rw [ht, hw]; rfl
  have hpos : t.rpos.toNat = 0 := by rw [ht]; rfl
  refine ⟨t, ⟨hok, by rw [Unlocked, ht]; exact huw, ?payload, by rw [ht, hw, hu.frame]; rfl,
    by rw [ht, hw, hu.frame]; rfl⟩, (seq_bind_ok (seqCmd_sysReset s)).trans ?goesOn⟩
  case payload => rw [payloadBits, hlim, hpos, hilen, Nat.sub_zero, hbits]; exact hu.bits
  case goesOn =>
    refine (seq_check ..).trans ((if_neg ha).trans ((seq_bind_ok (a := resetBlock s) (t := resetBlock s) rfl).trans ?_))
    refine (seq_check ..).trans ((if_neg (not_lt.2 hl)).trans ?_)
    exact (seq_bind_ok hload).trans ((seq_bind_ok hwrite).trans (seq_bind_ok hopen))

end

end Sys2Proof.Machine

namespace Sys2Proof.Machine

/-! ### The padding (R193, R239) -/

section
variable {s t : State} {bs pl : List Bool}

/-- The padding count, read as a response and handed to BSR_TRIM. -/
theorem toNat_padCount (h : bs.length = 3) :
    ((BitVec.ofNat 64 (bitsValue bs)).setWidth 8).toNat = bitsValue bs ∧ bitsValue bs < 8 := by
  have hlt := bitsValue_lt bs
  rw [h] at hlt
  refine ⟨?_, hlt⟩
  rw [BitVec.toNat_setWidth, BitVec.toNat_ofNat]
  omega

/-- What BSR_TRIM makes of a state when it ends OK. -/
structure Trimmed (s t : State) : Prop where
  frame : t = { s with rlim := t.rlim, ops := t.ops, reply := t.reply }
  ok : StateOk t

theorem Trimmed.unlocked (h : Trimmed s t) (hu : Unlocked s) : Unlocked t := by rw [Unlocked, h.frame]; exact hu

/-- BSR_TRIM ends OK, or ends the sequence with a FormatError (R193, R256). -/
theorem trim_runs {p : BitVec 8} (hs : StateOk s) (hu : Unlocked s) (hp : p.toNat < 8) :
    Runs (seqCmd (.bsrTrim p)) s (fun _ t => Trimmed s t) := by
  have hw : wfTrim p = true := decide_eq_true (Nat.le_of_lt_succ hp)
  obtain ⟨t, ht⟩ := exec_bsrTrim_next (s := tick s) hu hw hs.reader.rlim_le
  have hok := stateOk_exec (stateOk_tick hs) ht
  obtain ⟨hill, -⟩ | ⟨-, -, rfl⟩ | ⟨-, -, -, rfl⟩ | ⟨-, -, -, rfl⟩ := exec_bsrTrim_cases (s := tick s) hu ht
  · exact absurd hw (by simp [hill])
  · exact .of_error (seqCmd_raise hw ht) (.inl (failureClass_fault .padRange))
  · exact .of_error (seqCmd_raise hw ht) (.inl (failureClass_fault .padNonzero))
  · exact .of_ok (seqCmd_respond hw ht) ⟨rfl, hok⟩

/-- BSR_TRIM p takes p zeros off the end of the payload (R193). -/
theorem trim_takes {p : BitVec 8} (hs : StateOk s) (hu : Unlocked s) (hp : p.toNat < 8)
    (hpay : payloadBits s = pl ++ List.replicate p.toNat false) :
    ∃ v t, seqCmd (.bsrTrim p) s = (.ok v, t) ∧ Trimmed s t ∧ payloadBits t = pl := by
  have hw : (Instr.bsrTrim p).WellFormed := decide_eq_true (Nat.le_of_lt_succ hp)
  have hlen : s.rlim.toNat - s.rpos.toNat = pl.length + p.toNat := by
    simpa [payloadBits] using congrArg List.length hpay
  have hle := hs.reader.1
  have hsplit := hpay
  rw [payloadBits, hlen, inputBits_add] at hsplit
  obtain ⟨hpl, hzero⟩ := List.append_inj hsplit (by simp)
  have hstart : s.rlim.toNat - p.toNat = s.rpos.toNat + pl.length := by omega
  have hbits : ∀ j, j < p.toNat → inputBit s (s.rlim.toNat - p.toNat + j) = false := fun j hj => by
    have hmem : inputBit s (s.rlim.toNat - p.toNat + j) ∈ inputBits s (s.rpos.toNat + pl.length) p.toNat :=
      List.mem_map.2 ⟨j, List.mem_range.2 hj, by rw [hstart]⟩
    rw [hzero] at hmem
    exact List.eq_of_mem_replicate hmem
  obtain ⟨t, he, hlim, hframe⟩ := trimTakesZeroBits p (tick s) hu (Nat.le_of_lt_succ hp) (by dsimp only; omega)
    hs.reader.rlim_le hbits
  refine ⟨_, t, seqCmd_ok (decode_encode.2 hw) he (by rw [hframe]),
    ⟨by rw [hframe], stateOk_exec (stateOk_tick hs) he⟩, ?_⟩
  have hpos : t.rpos = s.rpos := by rw [hframe]
  have hin : ∀ k n, inputBits t k n = inputBits s k n := fun k n => by rw [hframe]; rfl
  rw [payloadBits, hlim, hpos, hin, ← hpl]
  congr 1
  exact (congrArg (· - s.rpos.toNat) hstart).trans (Nat.add_sub_cancel_left ..)

end

/-! ### The walker on a tree (R211 to R213, R245) -/

section
variable {s t u : State} {l r x : Tree}

/-- The walker is armed at the root of a tree. -/
structure Ready (x : Tree) (s t : State) : Prop where
  frame : t = { s with
    root := t.root, cur := t.cur, symcnt := t.symcnt, status := t.status, ops := t.ops, reply := t.reply }
  ok : StateOk t
  unlocked : Unlocked t
  armed : t.flag .armed = true
  atRoot : t.cur = t.root
  tree : TreeAt t.node t.root x

/-- The host hands a tree over by writing ROOT (R25). -/
theorem seqWrite_root (hs : StateOk s) (hu : Unlocked s) (v : Nat) : ∃ t, seqWrite 0 3 v s = (.ok (), t)
    ∧ t.root = BitVec.ofNat 9 v ∧ t.flag .treeValid = true ∧ Unlocked t ∧ StateOk t
    ∧ t = { s with root := t.root, status := t.status, ops := t.ops, reply := t.reply } := by
  have hw : hostWrite 0 3 v (tick s) = writeRoot v (tick s) := hostWrite_unlocked 0 3 v (s := tick s) hu
  have hflag : ∀ f, ({ writeRoot v (tick s) with reply := some .written } : State).flag f = (writeRoot v (tick s)).flag f :=
    fun _ => rfl
  refine ⟨_, seqWrite_eq 0 3 v s, by rw [hw]; rfl, ?_, ?_, stateOk_reply (stateOk_hostWrite 0 3 v (stateOk_tick hs)) _,
    by rw [hw]; rfl⟩
  · rw [hw, hflag, writeRoot_flag]; rfl
  · rw [hw, Unlocked, hflag, writeRoot_flag]; exact hu

/-- With a tree handed over whose root is a branch, DTW_START arms the walker (R211). -/
theorem walker_starts {v : Nat} (hs : StateOk s) (hu : Unlocked s) (ht : TreeAt s.node (BitVec.ofNat 9 v) x)
    (hx : ∃ l r, x = .branch l r) :
    ∃ w c t, seqWrite 0 3 v s = (.ok (), w) ∧ seqCmd .dtwStart w = (.ok c, t) ∧ Ready x s t := by
  obtain ⟨w, hwrite, hroot, hv, huw, hok, hframe⟩ := seqWrite_root hs hu v
  have htree : TreeAt w.node w.root x := by rw [hroot, hframe]; exact ht
  obtain ⟨t, he, harmed, -, -, -, herrf, hframe'⟩ :=
    startArmsTheWalker (tick w) huw hv (htree.internal_of_branch hx)
  have hcur : t.cur = t.root := by rw [hframe']
  refine ⟨w, _, t, hwrite, seqCmd_ok (by decide) he (by rw [hframe']), ?_, stateOk_exec (stateOk_tick hok) he,
    herrf.trans huw, harmed, hcur, by rw [hframe']; exact htree⟩
  rw [hframe', hframe]

/-- The walker stands on an internal node of the tree at ROOT, and so never meets a FREE node. -/
def InTree (s : State) : Prop :=
  (∃ l r, TreeAt s.node s.root (.branch l r)) ∧ ∃ l r, TreeAt s.node s.cur (.branch l r)

theorem TreeAt.kind_ne_free {m : Vector Node 512} {i : NodeIdx} (h : TreeAt m i x) : (nodeOf m i).kind ≠ .free := by
  intro hk
  cases x with
  | leaf => exact absurd (h.1.symm.trans hk) (by decide)
  | placeholder => exact absurd (Eq.trans (Eq.symm h) hk) (by decide)
  | branch => exact absurd (h.1.symm.trans hk) (by decide)

/-- A child of the node the walker stands on is the root of a subtree. -/
theorem InTree.child (h : InTree s) (b : Bool) : ∃ y, TreeAt s.node (childOn s b) y := by
  obtain ⟨-, l, r, -, hl, hr⟩ := h
  cases b with
  | false => exact ⟨l, hl⟩
  | true => exact ⟨r, hr⟩

theorem InTree.moved {v : BitVec 64} (h : InTree s) (hw : walkStep s = .moved v t) : InTree t := by
  have hroot := h.1
  obtain ⟨-, -, -, ⟨hk, -, rfl⟩ | ⟨-, -, -, u, hu, rfl⟩ | ⟨-, -, rfl⟩⟩ := walkStep_moved hw
  · obtain ⟨y, hy⟩ := h.child (inputBit s s.rpos.toNat)
    obtain ⟨l, r, rfl⟩ := hy.branch_of_internal hk
    exact ⟨hroot, l, r, hy⟩
  · have hframe := appendBits_frame hu
    have hnode : u.node = s.node := by rw [hframe]
    have hroot' : u.root = s.root := by rw [hframe]
    simp only [InTree, hnode, hroot', and_self]
    exact hroot
  · exact ⟨hroot, hroot⟩

theorem InTree.loop {fuel : Nat} (h : walkLoop fuel s = .done u ∨ ∃ c, walkLoop fuel s = .raised c u) :
    InTree s → InTree u :=
  walkLoop_induction (P := fun s u => InTree s → InTree u) (fun _ => id) (fun _ _ _ _ hw ih hs => ih (hs.moved hw))
    fuel s u h

/-- On a tree, the loop of DTW_RUN fails with E_OVERFLOW alone (R213, R245). -/
theorem walkLoop_raised_overflow {fuel : Nat} {c : Cause} (ha : s.flag .armed = true) (hs : InTree s)
    (h : walkLoop fuel s = .raised c u) : c = .overflow := by
  obtain ⟨rfl | rfl, hraised⟩ := walkLoop_raised ha h
  · have hin := InTree.loop (.inr ⟨_, h⟩) hs
    obtain ⟨hc, -⟩ | ⟨hc, -⟩ | ⟨-, -, -, hk⟩ | ⟨hc, -⟩ := walkStep_raised hraised
    · cases hc
    · cases hc
    · obtain ⟨y, hy⟩ := hin.child (inputBit u u.rpos.toNat)
      exact absurd hk hy.kind_ne_free
    · cases hc
  · rfl

/-- On a tree, DTW_RUN ends OK, or ends the sequence with a FormatError or a CapacityError (R245, R256). -/
theorem dtwRun_runs (h : Ready x s t) (hx : ∃ l r, x = .branch l r) :
    Runs (seqCmd .dtwRun) t (fun _ u => StateOk u) := by
  obtain ⟨l, r, rfl⟩ := hx
  have hin : InTree (tick t) := ⟨⟨l, r, h.tree⟩, l, r, by simpa only [h.atRoot] using h.tree⟩
  obtain ⟨u, he⟩ := exec_next .dtwRun (stateOk_tick h.ok)
  have hok := stateOk_exec (stateOk_tick h.ok) he
  obtain ⟨ha, -⟩ | ⟨-, w, -, ⟨-, rfl⟩ | ⟨-, rfl⟩⟩ | ⟨ha, c, w, hraised, rfl⟩ :=
    exec_dtwRun_cases (s := tick t) h.unlocked he
  · exact absurd h.armed (by rw [show t.flag .armed = false from ha]; decide)
  · exact .of_error (seqCmd_raise rfl he) (.inl (failureClass_fault .truncSymbol))
  · exact .of_ok (seqCmd_respond rfl he) hok
  · obtain rfl := walkLoop_raised_overflow ha hin hraised
    exact .of_error (seqCmd_raise rfl he) (.inr (failureClass_fault .overflow))

end

/-! ### The failures of DECOMPRESS (R256, R292) -/

section
variable {s t : State} {a : List Byte}

theorem takeOutput_runs (hs : StateOk s) : Runs takeOutput s (fun _ _ => True) := by
  have hroom : 0 + s.wlen.toNat ≤ s.ocap := by have := hs.writer.2; unfold wbits at this; omega
  obtain ⟨r, hr⟩ := readOutput_eq s.wlen.toNat 0 { s with reply := some (.data (hostRead 0 5 s)) } hroom
  exact .of_ok ((seq_bind_ok (seqRead_eq 0 5 s)).trans hr) trivial

theorem readTreeAndPayload_runs (hs : StateOk s) (hu : Unlocked s) : Runs readTreeAndPayload s (fun _ _ => True) := by
  refine (getTree_runs hu hs.reader).bind ?_
  rintro _ t₁ ⟨rfl, x, ⟨hx, -⟩, hpar⟩
  have hs₁ := hpar.keeps hs
  refine (getbits_runs hpar.unlocked hpar.reader (by decide)).bind ?_
  rintro _ t₂ ⟨bs, hl, rfl, htook⟩
  obtain ⟨hp, hlt⟩ := toNat_padCount hl
  have hu₂ := htook.unlocked hpar.unlocked
  refine (trim_runs (htook.keeps hs₁) hu₂ (hp.trans_lt hlt)).bind fun _ t₃ htrim => ?_
  have htree : TreeAt t₃.node (BitVec.ofNat 9 0) x := by rw [htrim.frame, htook.frame]; exact hpar.treeAt
  obtain ⟨w, c, t₄, hwrite, hstart, hready⟩ := walker_starts htrim.ok (htrim.unlocked hu₂) htree hx.1
  refine (Runs.of_ok hwrite (Q := fun _ t => t = w) rfl).bind ?_
  rintro _ _ rfl
  refine (Runs.of_ok hstart (Q := fun _ t => t = t₄) rfl).bind ?_
  rintro _ _ rfl
  exact (dtwRun_runs hready hx.1).bind fun _ u hok => takeOutput_runs hok

theorem readArchive_runs (m : Nat) (hs : StateOk s) (hu : Unlocked s) : Runs (readArchive m) s (fun _ _ => True) := by
  refine (getbits_runs hu hs.reader (by decide)).bind ?_
  rintro e t ⟨bs, -, -, htook⟩
  by_cases he : e = 1
  · rw [if_pos he]
    refine .check (.inl rfl) fun _ => ?_
    refine (getbits_runs (htook.unlocked hu) htook.reader (by decide)).bind fun z u _ => ?_
    exact .check (.inl rfl) fun _ => .of_ok (seq_pure [] u) trivial
  · rw [if_neg he]
    exact readTreeAndPayload_runs (htook.keeps hs) (htook.unlocked hu)

/-- DECOMPRESS ends with bytes, or with a FormatError or a CapacityError (R256). -/
theorem decompress_runs (a : List Byte) (hc : CapacitiesOk s) : Runs (decompress a) s (fun _ _ => True) := by
  by_cases ha : a = []
  · subst ha
    exact .of_error (decompress_nil s) (.inl rfl)
  by_cases hl : s.icap < a.length
  · exact .of_error (decompress_tooLong ha hl) (.inr rfl)
  · obtain ⟨t, hopen, he⟩ := decompress_opens hc ha (not_lt.1 hl)
    have hrun := readArchive_runs a.length hopen.ok hopen.unlocked
    simpa only [Runs, he] using hrun

/-- Settles O60: no step of DECOMPRESS ends with a HostError (`decompress_runs`), since GET_TREE hands DTW_RUN a tree. -/
theorem decompressNeverBlamesTheHost : Obligations.DecompressNeverBlamesTheHost :=
  fun a _ t e hc h => (decompress_runs a hc).2 e t h

end

end Sys2Proof.Machine

/-! ## COMPRESS (46_archive_sequences.md R240, R250, R251): the archive it writes, which is a function of its input -/

namespace Sys2Proof.Machine

/-! ### Sequences that write (R64) -/

theorem outputBits_length (s : State) : (outputBits s).length = wbits s := by
  have hc := s.wcnt.isLt
  have hbytes : ((List.range s.wlen.toNat).flatMap fun k => byteBits (obufByte s k)).length = 8 * s.wlen.toNat := by
    simp [List.length_flatMap, Nat.mul_comm]
  rw [outputBits, List.length_append, hbytes, List.length_take, byteBits_length, wbits, Nat.min_eq_left (by omega)]

theorem outputBits_of_empty {s : State} (h : wbits s = 0) : outputBits s = [] :=
  List.length_eq_zero_iff.1 ((outputBits_length s).trans h)

/-- The stream is made of stored bytes, so counting an operation leaves it as it is. -/
theorem outputBits_tick {s : State} (h : OutputOk s) : outputBits (tick s) = outputBits s := by
  have hbyte : ∀ k, k < s.wlen.toNat → obufByte (tick s) k = obufByte s k := fun k hk => by
    obtain ⟨b, hb⟩ := Option.isSome_iff_exists.1 (h k hk)
    simp [obufByte, hb, hk]
  rw [outputBits, outputBits]
  congr 1
  exact List.flatMap_congr fun k hk => congrArg byteBits (hbyte k (List.mem_range.1 hk))

/-- What a sequence that appends the bits `bs` to the stream makes of a state. -/
structure Written (bs : List Bool) (s t : State) : Prop where
  frame : t = { s with
    wlen := t.wlen, wcnt := t.wcnt, wacc := t.wacc, lastpad := t.lastpad, obuf := t.obuf, ops := t.ops
    reply := t.reply }
  ok : StateOk t
  stream : outputBits t = outputBits s ++ bs

section
variable {α β : Type} {as bs cs : List Bool} {s t u : State} {m : Seq α} {f : α → Seq β}
  {Q : α → State → Prop} {R : β → State → Prop}

theorem Written.unlocked (h : Written bs s t) (hu : Unlocked s) : Unlocked t := by rw [Unlocked, h.frame]; exact hu

theorem Written.count (h : Written bs s t) : wbits t = wbits s + bs.length := by
  rw [← outputBits_length, h.stream, List.length_append, outputBits_length]

theorem Written.ocap (h : Written bs s t) : t.ocap = s.ocap := by rw [h.frame]

theorem Written.trans (h : Written as s t) (g : Written bs t u) : Written (as ++ bs) s u where
  frame := by rw [g.frame, h.frame]
  ok := g.ok
  stream := by rw [g.stream, h.stream, List.append_assoc]

/-- Bits appended by a command. -/
theorem Written.of_appended {v : BitVec 64} {p : BitVec 3} (hs : StateOk s) (ha : Appended bs (tick s) u)
    (hok : StateOk (respond v { u with lastpad := p })) : Written bs s (respond v { u with lastpad := p }) where
  frame := by rw [ha.frame]; rfl
  ok := hok
  stream := by rw [← outputBits_tick hs.output, ← ha.stream]; rfl

theorem Written.of_reply (hs : StateOk s) (r : Option Reply) : Written [] s { s with reply := r } :=
  ⟨rfl, stateOk_reply hs r, (List.append_nil _).symm⟩

/-- From `s` the sequence appends `bs` to the stream where they fit OBUF, ending with a result and a state of which `Q`
holds, and fails where they do not. -/
def Writes (bs : List Bool) (m : Seq α) (s : State) (Q : α → State → Prop) : Prop :=
  (wbits s + bs.length ≤ 8 * s.ocap → ∃ a t, m s = (.ok a, t) ∧ Written bs s t ∧ Q a t)
  ∧ (8 * s.ocap < wbits s + bs.length → ∃ e t, m s = (.error e, t))

theorem Writes.bind (hm : Writes as m s Q) (hf : ∀ a t, Written as s t → Q a t → Writes bs (f a) t R) :
    Writes (as ++ bs) (m >>= f) s R := by
  constructor
  · intro hroom
    rw [List.length_append] at hroom
    obtain ⟨a, t, ht, hw, hQ⟩ := hm.1 (by omega)
    obtain ⟨b, u, hu, hw', hR⟩ := (hf a t hw hQ).1 (by rw [hw.count, hw.ocap]; omega)
    exact ⟨b, u, (seq_bind_ok ht).trans hu, hw.trans hw', hR⟩
  · intro hover
    rw [List.length_append] at hover
    by_cases hroom : wbits s + as.length ≤ 8 * s.ocap
    · obtain ⟨a, t, ht, hw, hQ⟩ := hm.1 hroom
      obtain ⟨e, u, hu⟩ := (hf a t hw hQ).2 (by rw [hw.count, hw.ocap]; omega)
      exact ⟨e, u, (seq_bind_ok ht).trans hu⟩
    · obtain ⟨e, t, ht⟩ := hm.2 (by omega)
      exact ⟨e, t, seq_bind_error ht⟩

/-- A sequence that writes nothing always finds room. -/
theorem Writes.of_nothing {a : α} (hs : StateOk s) (h : m s = (.ok a, t)) (hw : Written [] s t) (hQ : Q a t) :
    Writes [] m s Q := by
  refine ⟨fun _ => ⟨a, t, h, hw, hQ⟩, fun hover => ?_⟩
  have hle := hs.writer.2
  rw [List.length_nil] at hover
  omega

/-- A host read in a sequence that writes. -/
theorem Writes.read {g : Nat → Seq β} {space idx : Nat} (hs : StateOk s)
    (hg : ∀ t, Written [] s t → Writes bs (g (hostRead space idx s)) t R) : Writes bs (seqRead space idx >>= g) s R := by
  have hread : Writes [] (seqRead space idx) s (fun v _ => v = hostRead space idx s) :=
    .of_nothing hs (seqRead_eq space idx s) (.of_reply hs _) rfl
  exact hread.bind fun v t hw hv => hv ▸ hg t hw

/-- A sequence that writes, its result let go. -/
theorem Writes.discard {c : β} (h : Writes bs m s Q) : Writes bs (m >>= fun _ => pure c) s (fun _ _ => True) := by
  have hbind := h.bind (bs := []) (f := fun _ => pure c) (R := fun _ _ => True) fun a t hw _ =>
    .of_nothing hw.ok (seq_pure c t) (.of_reply hw.ok t.reply) trivial
  rwa [List.append_nil] at hbind

/-! ### The writer's commands -/

theorem putbits_writes {n : BitVec 8} {v : BitVec 16} (hs : StateOk s) (hu : Unlocked s) (hw : wfPutbits n v = true) :
    Writes (msbFirst n.toNat v.toNat) (seqCmd (.bswPutbits n v)) s (fun _ _ => True) := by
  constructor <;> rw [msbFirst_length] <;> intro h
  · obtain ⟨u, ha, he⟩ := exec_bswPutbits_of_fits (s := tick s) hu hs.capacities hw (overflows_eq_false.2 h)
    exact ⟨_, _, seqCmd_respond hw he, .of_appended hs ha (stateOk_exec (stateOk_tick hs) he), trivial⟩
  · exact ⟨_, _, seqCmd_raise hw ((exec_bswPutbits (s := tick s) hu hw).trans (if_pos (overflows_eq_true.2 h)))⟩

theorem putsym_writes {k : Sym} (hs : StateOk s) (hu : Unlocked s) (hv : s.flag .codeValid = true)
    (hk : hasCode s.code k) :
    Writes (codeString (codeOf s.code k)) (seqCmd (.bswPutsym k)) s (fun _ _ => True) := by
  constructor <;> rw [codeString, msbFirst_length] <;> intro h
  · obtain ⟨u, ha, he⟩ := exec_bswPutsym_of_fits (s := tick s) hu hs.capacities hv hk (overflows_eq_false.2 h)
    exact ⟨_, _, seqCmd_respond rfl he, .of_appended hs ha (stateOk_exec (stateOk_tick hs) he), trivial⟩
  · have he := (exec_bswPutsym (k := k) (s := tick s) hu).trans
      ((if_neg (ne_false_of_eq_true hv)).trans ((if_neg hk).trans (if_pos (overflows_eq_true.2 h))))
    exact ⟨_, _, seqCmd_raise rfl he⟩

/-- BSW_FLUSH writes its padding, which always fits, and leaves no bit in the accumulator (R174). -/
theorem flush_writes (hs : StateOk s) (hu : Unlocked s) :
    Writes (List.replicate (flushPad s) false) (seqCmd .bswFlush) s (fun _ t => t.wcnt = 0) := by
  constructor <;> rw [List.length_replicate] <;> intro h
  · obtain ⟨u, ha, he⟩ := exec_bswFlush_of_fits (s := tick s) hu hs.capacities hs.writer
    have hw := Written.of_appended hs ha (stateOk_exec (stateOk_tick hs) he)
    refine ⟨_, _, seqCmd_respond rfl he, hw, (writer_empty_of_wholeBytes hw.ok.writer.1 ?_).1⟩
    rw [hw.count, List.length_replicate]
    exact (flushPad_spec s).2
  · exact absurd (wbits_flushPad_le hs.writer.2) (not_le.2 h)

theorem takeOutput_writes (hs : StateOk s) (h0 : s.wcnt = 0) :
    Writes [] takeOutput s (fun a t => a.flatMap byteBits = outputBits t) := by
  obtain ⟨a, r, ha, hbits⟩ := takeOutput_takes hs.writer h0
  exact .of_nothing hs ha (.of_reply hs r) hbits

end

/-! ### PUT_TREE (R240) -/

section
variable {s : State} {i : NodeIdx} {fuel : Nat}

theorem msbFirst_leafWord (k : Sym) (w : Weight) :
    msbFirst (10 : BitVec 8).toNat (leafWord k).toNat = (Tree.leaf k w).bits := by
  change _ = true :: false :: byteBits k
  revert k
  decide

theorem wfPutbits_leafWord (k : Sym) : wfPutbits 10 (leafWord k) = true := by
  revert k
  decide

/-- Put at a node reads it and goes on by its kind (R240). -/
theorem putNodes_reads {bs : List Bool} {Q : Unit → State → Prop} (hs : StateOk s)
    (h : ∀ t, Written [] s t → Writes bs (match (nodeAt s i).kind with
      | .internal => seqCmd (.bswPutbits 1 0) >>= fun _ => putNodes fuel (nodeAt s i).left >>= fun _ =>
          putNodes fuel (nodeAt s i).right
      | .leaf => seqCmd (.bswPutbits 10 (leafWord (nodeAt s i).sym)) >>= fun _ => pure ()
      | .placeholder => seqCmd (.bswPutbits 10 placeholderWord) >>= fun _ => pure ()
      | .free => throw .notATree) t Q) : Writes bs (putNodes (fuel + 1) i) s Q := by
  have hnode : unpackNode (BitVec.ofNat 84 (hostRead 2 i.toNat s)) = nodeAt s i := by
    rw [hostRead_node, BitVec.ofNat_toNat, BitVec.setWidth_eq, unpackNode_packNode]
  refine .read hs fun t hw => ?_
  have ht := h t hw
  rw [← hnode] at ht
  exact ht

/-- Put writes the description of the tree below a node (R237, R240). -/
theorem putNodes_writes (x : Tree) (hs : StateOk s) (hu : Unlocked s) (ht : TreeAt s.node i x) (hd : x.depth < fuel) :
    Writes x.bits (putNodes fuel i) s (fun _ _ => True) := by
  obtain ⟨n, rfl⟩ : ∃ n, fuel = n + 1 := ⟨fuel - 1, by omega⟩
  induction x generalizing s i n with
  | leaf k w =>
    obtain ⟨hk, rfl, -⟩ := ht
    refine putNodes_reads hs fun t hw => ?_
    rw [nodeAt, hk, ← msbFirst_leafWord]
    exact (putbits_writes hw.ok (hw.unlocked hu) (wfPutbits_leafWord _)).discard
  | placeholder =>
    have hk : (nodeOf s.node i).kind = .placeholder := ht
    refine putNodes_reads hs fun t hw => ?_
    rw [nodeAt, hk]
    exact (putbits_writes (n := 10) (v := placeholderWord) hw.ok (hw.unlocked hu) (by decide)).discard
  | branch l r ihl ihr =>
    obtain ⟨hk, hl, hr⟩ := ht
    rw [Tree.depth] at hd
    obtain ⟨m, rfl⟩ : ∃ m, n = m + 1 := ⟨n - 1, by omega⟩
    refine putNodes_reads hs fun t hw => ?_
    rw [nodeAt, hk]
    have hut := hw.unlocked hu
    refine (putbits_writes (n := 1) (v := 0) hw.ok hut (by decide)).bind fun _ t₁ hw₁ _ => ?_
    have hu₁ := hw₁.unlocked hut
    refine (ihl hw₁.ok hu₁ (by rw [hw₁.frame, hw.frame]; exact hl) m (by omega)).bind fun _ t₂ hw₂ _ => ?_
    exact ihr hw₂.ok (hw₂.unlocked hu₁) (by rw [hw₂.frame, hw₁.frame, hw.frame]; exact hr) m (by omega)

/-- PUT_TREE writes the description of the tree at ROOT (R240). -/
theorem putTree_writes {x : Tree} (hs : StateOk s) (hu : Unlocked s) (ht : TreeAt s.node s.root x)
    (hd : x.depth ≤ 255) : Writes x.bits putTree s (fun _ _ => True) := by
  have hroot : BitVec.ofNat 9 (hostRead 0 3 s) = s.root := by
    change BitVec.ofNat 9 (s.root.setWidth 64).toNat = s.root
    rw [BitVec.toNat_setWidth_of_le (by decide), BitVec.ofNat_toNat, BitVec.setWidth_eq]
  refine .read hs fun t hw => ?_
  rw [hroot]
  exact putNodes_writes x hw.ok (hw.unlocked hu) (by rw [hw.frame]; exact ht) (by omega)

end

/-! ### The payload (R250) -/

/-- The codes of the input bytes, in their order. -/
def payload (t : Vector CodeEntry 256) (x : List Byte) : List Bool := x.flatMap fun b => codeString (codeOf t b)

theorem putSymbols_writes {x : List Byte} {s : State} (hs : StateOk s) (hu : Unlocked s)
    (hv : s.flag .codeValid = true) (hx : ∀ b ∈ x, hasCode s.code b) :
    Writes (payload s.code x) (putSymbols x) s (fun _ _ => True) := by
  induction x generalizing s with
  | nil => exact .of_nothing hs (seq_pure () s) (.of_reply hs s.reply) trivial
  | cons b x ih =>
    obtain ⟨hb, hx⟩ := List.forall_mem_cons.1 hx
    refine (putsym_writes hs hu hv hb).bind fun _ t hw _ => ?_
    have hcode : t.code = s.code := by rw [hw.frame]
    have hvt : t.flag .codeValid = true := by rw [hw.frame]; exact hv
    rw [← hcode] at hx ⊢
    exact ih hw.ok (hw.unlocked hu) hvt hx

/-- The length of the payload, counted symbol by symbol (R26, R154). -/
theorem payload_length (t : Vector CodeEntry 256) (x : List Byte) :
    (payload t x).length = ∑ k : Sym, x.count k * (codeOf t k).len.toNat := by
  have hcode : ∀ k : Sym, (codeString (codeOf t k)).length = (codeOf t k).len.toNat := fun k => msbFirst_length _ _
  rw [payload, List.length_flatMap, Finset.sum_list_map_count]
  simp only [hcode, smul_eq_mul]
  refine Finset.sum_subset (Finset.subset_univ _) fun k _ hk => ?_
  rw [List.count_eq_zero_of_not_mem fun h => hk (List.mem_toFinset.2 h), Nat.zero_mul]

theorem payload_length_le (t : Vector CodeEntry 256) (x : List Byte) : (payload t x).length ≤ 255 * x.length := by
  induction x with
  | nil => rfl
  | cons b x ih =>
    have hb := (codeOf t b).len.isLt
    have hlen : (codeString (codeOf t b)).length = (codeOf t b).len.toNat := msbFirst_length _ _
    rw [payload] at ih ⊢
    rw [List.flatMap_cons, List.length_append, List.length_cons, hlen]
    omega

end Sys2Proof.Machine

namespace Sys2Proof.Machine

/-! ### What COMPRESS codes its input with (R231, R131, R151) -/

/-- The tree `y` and the code table `acc` that TB_BUILD and CTG_GEN make of the counts of a byte sequence. -/
structure Coding (x : List Byte) (y : Tree) (acc : GenAcc) : Prop where
  tree : TreeAt (buildTree (countTable x)).1 (buildTree (countTable x)).2 y
  readable : y.Readable
  table : genTable (buildTree (countTable x)).1 (buildTree (countTable x)).2 = .ok acc
  coded : ∀ b ∈ x, hasCode acc.table b ∧ ∃ w, (b, w, codeString (codeOf acc.table b)) ∈ y.leaves
  total : (BitVec.ofNat 64 acc.sum).toNat = (payload acc.table x).length

section
variable {x : List Byte} {s t : State} {y : Tree} {acc : GenAcc}

theorem exists_count_ne_zero (hx : x.length < 2 ^ 56) (hne : x ≠ []) (h : s.freq = countTable x) :
    ∃ k : Sym, freqAt s k ≠ 0 := by
  obtain ⟨b, x, rfl⟩ := List.exists_cons_of_ne_nil hne
  refine ⟨b, fun h0 => ?_⟩
  have hb := freqAt_countTable hx h b
  rw [h0, List.count_cons_self] at hb
  exact absurd hb.symm (Nat.succ_ne_zero _)

/-- The counts sum to the length of the input. -/
theorem sum_counts (hx : x.length < 2 ^ 56) (h : s.freq = countTable x) :
    (∑ k : Sym, (freqAt s k).toNat) = x.length := by
  rw [Finset.sum_congr rfl fun k _ => freqAt_countTable hx h k]
  have hcard := Multiset.sum_count_eq_card (s := (Finset.univ : Finset Sym)) (m := (x : Multiset Sym))
    fun _ _ => Finset.mem_univ _
  simpa only [Multiset.coe_count, Multiset.coe_card] using hcard

/-- TB_BUILD on the counts of an input that is not empty. -/
theorem exec_tbBuild_countTable (hu : Unlocked s) (hx : x.length < 2 ^ 56) (hne : x ≠ []) (h : s.freq = countTable x) :
    exec .tbBuild s = .next (respond ((treeBuilt s).root.setWidth 64) (treeBuilt s)) :=
  exec_tbBuild_of_counts hu (exists_count_ne_zero hx hne h) ((sum_counts hx h).trans_lt hx)

/-- CTG_GEN on a tree its walk accepts. -/
theorem exec_ctgGen_of_ok (hu : Unlocked s) (hv : s.flag .treeValid = true) (hg : genTable s.node s.root = .ok acc) :
    exec .ctgGen s = .next (respond (BitVec.ofNat 64 acc.coded) (tableWritten acc s)) := by
  rw [exec_ctgGen hu, if_neg (by simp [hv]), hg]

/-- TB_BUILD's tree of the counts is readable: it has the placeholder only beside a single symbol (R133, R134). -/
theorem readable_buildTree (hu : Unlocked s) (hx : x.length < 2 ^ 56) (hne : x ≠ []) (h : s.freq = countTable x)
    (hy : TreeAt (buildTree s.freq).1 (buildTree s.freq).2 y) (hnd : y.symbols.Nodup)
    (hsym : ∀ k, k ∈ y.symbols ↔ freqAt s k ≠ 0) : y.Readable := by
  have hcount := exists_count_ne_zero hx hne h
  have hsum := (sum_counts hx h).trans_lt hx
  refine ⟨codable_of_tbBuild hu hcount hsum (exec_tbBuild_of_counts hu hcount hsum) hy hnd, fun hph => ?_⟩
  have hset : y.symbols.toFinset = counted s := by
    ext k
    rw [List.mem_toFinset, hsym, mem_counted]
  have hone : (counted s).card = 1 := by
    by_contra hno
    rw [placeholders_buildTree hcount hsum hy, if_neg hno] at hph
    cases hph
  rw [← List.toFinset_card_of_nodup hnd, hset, hone]

/-- Every input that is not empty has its tree and its code table, whatever the block. -/
theorem exists_coding (hx : x.length < 2 ^ 56) (hne : x ≠ []) : ∃ y acc, Coding x y acc := by
  obtain ⟨s, hfreq, hu⟩ : ∃ s : State, s.freq = countTable x ∧ Unlocked s :=
    ⟨{ State.reset with freq := countTable x }, rfl, getFlag_zero .errf⟩
  have hcount := exists_count_ne_zero hx hne hfreq
  have hsum := (sum_counts hx hfreq).trans_lt hx
  have hbuild := exec_tbBuild_of_counts hu hcount hsum
  obtain ⟨t, y, ht, hy, -, hnd, hsym, -⟩ := builtTreeIsOptimal s hu hcount hsum
  obtain rfl := Host.Outcome.next.inj (hbuild.symm.trans ht)
  have hreadable := readable_buildTree hu hx hne hfreq hy hnd hsym
  obtain ⟨acc, hg, hcoded⟩ := genTable_codes hy hreadable.1
  obtain ⟨u, hgen, -, -, hhas, htot⟩ := ctgGenAfterTbBuild s _ hu hcount hsum hbuild
  have hgen' := exec_ctgGen_of_ok (s := respond ((treeBuilt s).root.setWidth 64) (treeBuilt s))
    (by simpa [Unlocked] using hu) (by simp) hg
  obtain rfl := Host.Outcome.next.inj (hgen'.symm.trans hgen)
  refine ⟨y, acc, by rw [← hfreq]; exact hy, hreadable, by rw [← hfreq]; exact hg, fun b hb => ?coded, ?total⟩
  case coded =>
    have hb0 : freqAt s b ≠ 0 := fun h0 => by
      have hcb := freqAt_countTable hx hfreq b
      rw [h0] at hcb
      exact absurd hcb.symm (List.count_pos_iff.2 hb).ne'
    obtain ⟨l, hl, rfl⟩ := Tree.mem_symbols.1 ((hsym b).2 hb0)
    have hdepth := (Tree.leaf_depth hl).trans hreadable.1.2.1
    refine ⟨(hhas l.1).2 hb0, l.2.1, ?_⟩
    rw [hcoded.codes l hl, List.nil_append, codeString_pathCode hdepth]
    exact hl
  case total =>
    refine htot.trans ((Finset.sum_congr rfl fun k _ => ?_).trans (payload_length acc.table x).symm)
    exact congrArg (· * (codeOf acc.table k).len.toNat) (freqAt_countTable hx hfreq k)

/-! ### The archive (R235, R250) -/

/-- The bits of the archive: the EMPTY flag, the tree, the PAD field, the payload and the padding. -/
def archiveBits (x : List Byte) (y : Tree) (acc : GenAcc) : List Bool :=
  [false] ++ (y.bits ++ (msbFirst 3 (padCount (1 + y.bits.length) (payload acc.table x).length)
    ++ (payload acc.table x ++ List.replicate (padCount (1 + y.bits.length) (payload acc.table x).length) false)))

theorem padCount_lt (h t : Nat) : padCount h t < 8 := Nat.mod_lt _ (by decide)

theorem archiveBits_length : (archiveBits x y acc).length = 1 + y.bits.length + 3 + (payload acc.table x).length
    + padCount (1 + y.bits.length) (payload acc.table x).length := by
  simp only [archiveBits, List.length_append, List.length_singleton, msbFirst_length, List.length_replicate]
  omega

/-- The padding completes the last byte (R239). -/
theorem archiveBits_wholeBytes : (archiveBits x y acc).length % 8 = 0 := by
  rw [archiveBits_length, padCount]
  omega

theorem Tree.bits_length (y : Tree) : y.bits.length = y.inner + 10 * (y.symbols.length + y.placeholders) := by
  induction y with
  | leaf => simp [Tree.bits, Tree.inner, Tree.symbols, Tree.placeholders]
  | placeholder => rfl
  | branch l r ihl ihr =>
    simp only [Tree.bits, Tree.inner, Tree.symbols, Tree.placeholders, List.length_cons, List.length_append, ihl, ihr]
    omega

/-- The description of a readable tree has at most 2815 bits (R237). -/
theorem Tree.Readable.bits_length_le (h : y.Readable) : y.bits.length ≤ 2815 := by
  have hfew := h.acceptable.few
  have hleaves := y.leaves_eq_inner_succ
  have hni : parseStart.ni = 0 := rfl
  rw [Tree.bits_length]
  omega

/-- A bit string of whole bytes is the bits of a byte sequence. -/
theorem exists_bytes (n : Nat) {bs : List Bool} (h : bs.length = 8 * n) :
    ∃ a : List Byte, a.flatMap byteBits = bs := by
  induction n generalizing bs with
  | zero => exact ⟨[], (List.length_eq_zero_iff.1 h).symm⟩
  | succ n ih =>
    obtain ⟨a, ha⟩ := ih (bs := bs.drop 8) (by rw [List.length_drop]; omega)
    have hlen : (bs.take 8).length = 8 := by rw [List.length_take]; omega
    have hlt := bitsValue_lt (bs.take 8)
    rw [hlen] at hlt
    refine ⟨BitVec.ofNat 8 (bitsValue (bs.take 8)) :: a, ?_⟩
    have hbyte := msbFirst_bitsValue (bs.take 8)
    rw [hlen] at hbyte
    rw [List.flatMap_cons, ha, byteBits, BitVec.toNat_ofNat, Nat.mod_eq_of_lt hlt, hbyte, List.take_append_drop]

/-- The archive of an input that is not empty. -/
structure IsArchive (x a : List Byte) (y : Tree) (acc : GenAcc) : Prop where
  coding : Coding x y acc
  bits : a.flatMap byteBits = archiveBits x y acc

theorem exists_archive (hx : x.length < 2 ^ 56) (hne : x ≠ []) : ∃ a y acc, IsArchive x a y acc := by
  obtain ⟨y, acc, hc⟩ := exists_coding hx hne
  obtain ⟨a, ha⟩ := exists_bytes ((archiveBits x y acc).length / 8) (bs := archiveBits x y acc)
    (by have := archiveBits_wholeBytes (x := x) (y := y) (acc := acc); omega)
  exact ⟨a, y, acc, hc, ha⟩

theorem IsArchive.length_eq {a : List Byte} (h : IsArchive x a y acc) : 8 * a.length = (archiveBits x y acc).length := by
  rw [← h.bits, length_flatMap_byteBits]

/-- The bits before the payload are at most 2819, and a code has at most 255 bits (R251 f). -/
theorem IsArchive.length_le {a : List Byte} (h : IsArchive x a y acc) : a.length ≤ 353 + 32 * x.length := by
  have hlen := h.length_eq
  have htree := h.coding.readable.bits_length_le
  have hpay := payload_length_le acc.table x
  have hpad := padCount_lt (1 + y.bits.length) (payload acc.table x).length
  rw [archiveBits_length] at hlen
  omega

/-! ### COMPRESS (R250, R251) -/

/-- COMPRESS of an input that is not empty, once it is counted and coded (R250). -/
def writeArchive (x : List Byte) : Seq (List Byte) := do
  let _ ← seqCmd (.bswPutbits 1 0)
  putTree
  let wlen ← seqRead 0 5
  let wcnt ← seqRead 0 6
  let t ← seqRead 0 4
  let _ ← seqCmd (.bswPutbits 3 (BitVec.ofNat 16 (padCount (8 * wlen + wcnt) t)))
  putSymbols x
  let _ ← seqCmd .bswFlush
  takeOutput

/-- The block when the input is counted and coded, and nothing is written yet. -/
structure Prepared (x : List Byte) (acc : GenAcc) (s t : State) : Prop where
  ok : StateOk t
  unlocked : Unlocked t
  node : t.node = (buildTree (countTable x)).1
  root : t.root = (buildTree (countTable x)).2
  code : t.code = acc.table
  codeValid : t.flag .codeValid = true
  totbits : t.totbits = BitVec.ofNat 64 acc.sum
  empty : wbits t = 0
  ocap : t.ocap = s.ocap

/-- COMPRESS counts and codes its input on every block (R251 a). -/
theorem compress_prepares (hc : CapacitiesOk s) (hx : x.length < 2 ^ 56) (hne : x ≠ []) (hcod : Coding x y acc) :
    ∃ t, Prepared x acc s t ∧ compress x s = writeArchive x t := by
  obtain ⟨t₁, hcount, hframe, hfreq⟩ := freqCount_counts x (unlocked_resetBlock s)
  have hok₁ : StateOk t₁ := by
    have h := stateOk_resetBlock hc
    rw [hframe]
    exact ⟨h.1, h.2, h.3, h.4, h.5, h.6, h.7, h.8⟩
  have hu₁ : Unlocked t₁ := by rw [Unlocked, hframe]; exact unlocked_resetBlock s
  have hbuild := exec_tbBuild_countTable (s := tick t₁) hu₁ hx hne hfreq
  obtain ⟨t₂, ht₂⟩ : ∃ t₂, t₂ = respond ((treeBuilt (tick t₁)).root.setWidth 64) (treeBuilt (tick t₁)) := ⟨_, rfl⟩
  have hok₂ : StateOk t₂ := by rw [ht₂]; exact stateOk_exec (stateOk_tick hok₁) hbuild
  have hu₂ : Unlocked t₂ := by rw [ht₂, Unlocked, respond_flag, treeBuilt_flag]; exact hu₁
  have hnode : t₂.node = (buildTree (countTable x)).1 := by rw [ht₂, respond_node, treeBuilt_node, ← hfreq]
  have hroot : t₂.root = (buildTree (countTable x)).2 := by rw [ht₂, respond_root, treeBuilt_root, ← hfreq]
  have hgen := exec_ctgGen_of_ok (s := tick t₂) (acc := acc) hu₂ (by rw [ht₂]; simp [State.flag])
    (by rw [hnode, hroot]; exact hcod.table)
  refine ⟨_, ⟨stateOk_exec (stateOk_tick hok₂) hgen, ?_, hnode, hroot, rfl, ?_, rfl, ?_, ?_⟩, ?_⟩
  · rw [Unlocked, respond_flag, tableWritten_flag]; exact hu₂
  · rw [respond_flag, tableWritten_flag]; rfl
  · rw [ht₂]
    change wbits t₁ = 0
    rw [hframe]; rfl
  · rw [respond_ocap, tableWritten_ocap, ht₂]
    change t₁.ocap = _
    rw [hframe]; rfl
  · refine (seq_bind_ok (seqCmd_sysReset s)).trans ((congrFun (if_neg hne) _).trans ?_)
    refine (seq_bind_ok hcount).trans ((seq_bind_ok (seqCmd_respond rfl hbuild)).trans ?_)
    rw [← ht₂]
    exact seq_bind_ok (seqCmd_respond rfl hgen)

/-- The host reads TOTBITS, WLEN and WCNT (R25). -/
theorem hostRead_counts (s : State) :
    hostRead 0 4 s = s.totbits.toNat ∧ hostRead 0 5 s = s.wlen.toNat ∧ hostRead 0 6 s = s.wcnt.toNat :=
  ⟨rfl, rfl, BitVec.toNat_setWidth_of_le (by decide)⟩

/-- A sequence that writes nothing leaves WLEN and WCNT: they are determined by the number of bits. -/
theorem Written.same_counts (h : Written [] s t) : t.wlen.toNat = s.wlen.toNat ∧ t.wcnt.toNat = s.wcnt.toNat := by
  have hcount := h.count
  have hs := s.wcnt.isLt
  have ht := t.wcnt.isLt
  rw [wbits, wbits, List.length_nil] at hcount
  omega

/-- The padding of R239 is the one BSW_FLUSH writes. -/
theorem flushPad_eq_padCount {h n : Nat} (hw : wbits s = h + 3 + n) : flushPad s = padCount h n := by
  rw [wbits] at hw
  rw [flushPad, padCount]
  omega

/-- What follows the reset, the counting and the coding writes the archive (R250, R251 b). -/
theorem writeArchive_writes (h : Prepared x acc s t) (hcod : Coding x y acc) :
    Writes (archiveBits x y acc) (writeArchive x) t (fun a u => a.flatMap byteBits = outputBits u) := by
  obtain ⟨P, hP⟩ : ∃ P, P = padCount (1 + y.bits.length) (payload acc.table x).length := ⟨_, rfl⟩
  have hlt : P < 8 := hP ▸ padCount_lt _ _
  have hpad : (BitVec.ofNat 16 P).toNat = P := by rw [BitVec.toNat_ofNat]; omega
  rw [archiveBits, ← hP]
  refine (putbits_writes (n := 1) (v := 0) h.ok h.unlocked (by decide)).bind fun _ t₁ w₁ _ => ?_
  have hy : TreeAt t₁.node t₁.root y := by rw [w₁.frame, h.node, h.root]; exact hcod.tree
  refine (putTree_writes w₁.ok (w₁.unlocked h.unlocked) hy hcod.readable.1.2.1).bind fun _ t₂ w₂ _ => ?_
  have w : Written ([false] ++ y.bits) t t₂ := w₁.trans w₂
  refine .read w.ok fun t₃ w₃ => .read w₃.ok fun t₄ w₄ => .read w₄.ok fun t₅ w₅ => ?_
  have hH : 8 * hostRead 0 5 t₂ + hostRead 0 6 t₃ = 1 + y.bits.length := by
    rw [(hostRead_counts t₂).2.1, (hostRead_counts t₃).2.2, w₃.same_counts.2, ← wbits, w.count, h.empty]
    simp [Nat.add_comm]
  have hT : hostRead 0 4 t₄ = (payload acc.table x).length := by
    rw [(hostRead_counts t₄).1, w₄.frame, w₃.frame, w.frame]
    exact (congrArg BitVec.toNat h.totbits).trans hcod.total
  have hwf : wfPutbits 3 (BitVec.ofNat 16 P) = true := by simp [wfPutbits, hpad]; omega
  have w' : Written ([false] ++ y.bits) t t₅ := by simpa using ((w.trans w₃).trans w₄).trans w₅
  have hu₅ := w'.unlocked h.unlocked
  have hput := putbits_writes (n := 3) (v := BitVec.ofNat 16 P) w₅.ok hu₅ hwf
  rw [hpad] at hput
  rw [hH, hT, ← hP]
  refine hput.bind fun _ t₆ w₆ _ => ?_
  have hcode : t₆.code = acc.table := by rw [w₆.frame, w'.frame, ← h.code]
  have hput' := putSymbols_writes (x := x) w₆.ok (w₆.unlocked hu₅)
    (by rw [w₆.frame, w'.frame]; exact h.codeValid) (by rw [hcode]; exact fun b hb => (hcod.coded b hb).1)
  rw [hcode] at hput'
  refine hput'.bind fun _ t₇ w₇ _ => ?_
  have hflush : flushPad t₇ = P := by
    rw [hP]
    refine flushPad_eq_padCount ?_
    rw [w₇.count, w₆.count, w'.count, h.empty, msbFirst_length]
    simp [Nat.add_comm]
  have hlast := (flush_writes w₇.ok (w₇.unlocked (w₆.unlocked hu₅))).bind fun _ t₈ w₈ h0 => takeOutput_writes w₈.ok h0
  rwa [List.append_nil, hflush] at hlast

end

end Sys2Proof.Machine

namespace Sys2Proof.Machine

/-! ### The archive is a function of the input (R251 a and d) -/

section
variable {x a : List Byte} {s : State} {y : Tree} {acc : GenAcc} {bs : List Bool} {m : Seq (List Byte)}

/-- A sequence that writes the bits of `a` into an empty stream and takes the output ends with `a` where OBUF has room
for it, and fails where it has not. -/
theorem Writes.takes_archive (h : Writes bs m s (fun b t => b.flatMap byteBits = outputBits t))
    (h0 : wbits s = 0) (ha : a.flatMap byteBits = bs) :
    (a.length ≤ s.ocap → ∃ t, m s = (.ok a, t)) ∧ (s.ocap < a.length → ∃ e t, m s = (.error e, t)) := by
  have hlen : bs.length = 8 * a.length := by rw [← ha, length_flatMap_byteBits]
  refine ⟨fun hroom => ?_, fun hover => h.2 (by omega)⟩
  obtain ⟨b, t, ht, hw, hb⟩ := h.1 (by omega)
  rw [hw.stream, outputBits_of_empty h0, List.nil_append, ← ha] at hb
  exact ⟨t, eq_of_flatMap_byteBits hb ▸ ht⟩

/-- COMPRESS of an input that is not empty ends with its archive exactly on the blocks with room for it (R251 a). -/
theorem compress_archive (h : IsArchive x a y acc) (hx : x.length < 2 ^ 56) (hne : x ≠ []) (hc : CapacitiesOk s) :
    (a.length ≤ s.ocap → ∃ t, compress x s = (.ok a, t)) ∧ (s.ocap < a.length → ∃ e t, compress x s = (.error e, t)) := by
  obtain ⟨t, hprep, he⟩ := compress_prepares hc hx hne h.coding
  rw [he, ← hprep.ocap]
  exact (writeArchive_writes hprep h.coding).takes_archive hprep.empty h.bits

/-- The flag of an empty archive, padded to a byte. -/
theorem emptyArchive_writes (hs : StateOk s) (hu : Unlocked s) (h0 : wbits s = 0) :
    Writes ([true] ++ (List.replicate 7 false ++ [])) (seqCmd (.bswPutbits 1 1) >>= fun _ => seqCmd .bswFlush >>= fun _ =>
      takeOutput) s (fun b t => b.flatMap byteBits = outputBits t) := by
  refine (putbits_writes (n := 1) (v := 1) hs hu (by decide)).bind fun _ t w _ => ?_
  have hcount : wbits t = 0 + 1 := by rw [w.count, h0]; rfl
  have hpad : flushPad t = 7 := by
    rw [wbits] at hcount
    rw [flushPad]
    omega
  have hlast := (flush_writes w.ok (w.unlocked hu)).bind fun _ u w' hz => takeOutput_writes w'.ok hz
  rwa [hpad] at hlast

/-- COMPRESS of the empty input is the byte 0x80 (R236). -/
theorem compress_nil (hc : CapacitiesOk s) : ∃ t, compress [] s = (.ok [0x80], t) := by
  have hocap : 1 ≤ s.ocap := hc.1.1
  obtain ⟨t, ht⟩ := ((emptyArchive_writes (stateOk_resetBlock hc) (unlocked_resetBlock s) rfl).takes_archive rfl
    (show [(0x80 : Byte)].flatMap byteBits = _ by decide)).1 hocap
  exact ⟨t, (seq_bind_ok (seqCmd_sysReset s)).trans ht⟩

/-- Settles O59: an input has one archive (`exists_archive`), and COMPRESS on any block ends with it or fails
(`compress_archive`). -/
theorem compressIsDeterministic : Obligations.CompressIsDeterministic := by
  intro x a a' s s' t t' hx hc hc' h h'
  by_cases hne : x = []
  · subst hne
    obtain ⟨u, hu⟩ := compress_nil hc
    obtain ⟨u', hu'⟩ := compress_nil hc'
    cases h.symm.trans hu
    cases h'.symm.trans hu'
    rfl
  · obtain ⟨b, y, acc, hb⟩ := exists_archive hx hne
    have archive_of_ok : ∀ {s t : State} {c : List Byte}, CapacitiesOk s → compress x s = (.ok c, t) → c = b := by
      intro s t c hc h
      obtain ⟨hroom, hover⟩ := compress_archive hb hx hne hc
      obtain hle | hlt := le_or_gt b.length s.ocap
      · obtain ⟨u, hu⟩ := hroom hle
        cases h.symm.trans hu
        rfl
      · obtain ⟨e, u, hu⟩ := hover hlt
        cases h.symm.trans hu
    exact (archive_of_ok hc h).trans (archive_of_ok hc' h').symm

end

end Sys2Proof.Machine

namespace Sys2Proof.Machine

/-! ## DECOMPRESS of an archive (46_archive_sequences.md R255, R258): what COMPRESS wrote, and what it refuses -/

/-! ### Paths to leaves in the tree GET_TREE has read -/

/-- The bit string leads from the node over internal nodes to a leaf of the symbol. -/
structure Leads (m : Vector Node 512) (i : NodeIdx) (p : List Bool) (k : Sym) : Prop where
  onWalk : OnWalk m i p
  leaf : (nodeOf m (follow m i p)).kind = .leaf
  sym : (nodeOf m (follow m i p)).sym = k

section
variable {m : Vector Node 512} {i : NodeIdx} {x : Tree} {l : Sym × Weight × List Bool} {p : List Bool} {k : Sym}

/-- An edge above a path. -/
theorem Leads.cons (b : Bool) (hi : (nodeOf m i).kind = .internal) (hp : p.length < 255)
    (h : Leads m (if b then (nodeOf m i).right else (nodeOf m i).left) p k) : Leads m i (b :: p) k where
  onWalk := ⟨hp, fun n hn => by
    cases n with
    | zero => exact hi
    | succ n => exact h.onWalk.2 n (Nat.lt_of_succ_lt_succ hn)⟩
  leaf := h.leaf
  sym := h.sym

/-- The path of a leaf leads to it (R150). -/
theorem TreeAt.leads (h : TreeAt m i x) (hl : l ∈ x.leaves) (hd : x.depth ≤ 255) : Leads m i l.2.2 l.1 := by
  induction x generalizing i l with
  | leaf k w =>
    obtain rfl := List.mem_singleton.1 hl
    exact ⟨onWalk_nil, h.1, h.2.1⟩
  | placeholder => cases hl
  | branch a b iha ihb =>
    obtain ⟨hi, ha, hb⟩ := h
    rw [Tree.depth] at hd
    obtain ⟨y, hy, rfl⟩ | ⟨y, hy, rfl⟩ := Tree.mem_leaves_branch.1 hl
    · exact .cons false hi ((Tree.leaf_depth hy).trans_lt (by omega)) (iha ha hy (by omega))
    · exact .cons true hi ((Tree.leaf_depth hy).trans_lt (by omega)) (ihb hb hy (by omega))

theorem Tree.mem_leaves_unweighted (hl : l ∈ x.leaves) : (l.1, 0, l.2.2) ∈ x.unweighted.leaves := by
  induction x generalizing l with
  | leaf k w =>
    obtain rfl := List.mem_singleton.1 hl
    exact List.mem_singleton_self _
  | placeholder => cases hl
  | branch a b iha ihb =>
    obtain ⟨y, hy, rfl⟩ | ⟨y, hy, rfl⟩ := Tree.mem_leaves_branch.1 hl
    · exact Tree.mem_leaves_branch.2 (.inl ⟨_, iha hy, rfl⟩)
    · exact Tree.mem_leaves_branch.2 (.inr ⟨_, ihb hy, rfl⟩)

@[simp] theorem Tree.depth_unweighted (x : Tree) : x.unweighted.depth = x.depth := by
  induction x with
  | leaf | placeholder => rfl
  | branch a b iha ihb => rw [Tree.unweighted, Tree.depth, Tree.depth, iha, ihb]

end

/-! ### The payload (R213, R215) -/

section
variable {x xs : List Byte} {s t : State} {y : Tree} {acc : GenAcc} {c : Sym → List Bool}

/-- DTW_RUN from the root over paths to leaves emits the leaves' symbols (R213). -/
theorem dtwRun_decodes_paths (hs : StateOk s) (hu : Unlocked s) (ha : s.flag .armed = true) (hcur : s.cur = s.root)
    (hx : ∀ k ∈ xs, c k ≠ [] ∧ Leads s.node s.root (c k) k) (hpay : payloadBits s = xs.flatMap c)
    (hr : wbits s + 8 * xs.length ≤ 8 * s.ocap) :
    ∃ t, exec .dtwRun s = .next (respond t.symcnt t) ∧ Emitted xs s t := by
  induction xs generalizing s with
  | nil =>
    have hl : s.rlim.toNat - s.rpos.toNat = 0 := by simpa [payloadBits] using congrArg List.length hpay
    have hlim : s.rpos = s.rlim := BitVec.eq_of_toNat_eq (by have := hs.reader.1; omega)
    refine ⟨s, ?_, .nil s s.rpos s.cur⟩
    rw [exec_dtwRun_at_limit hu ha (by rw [hlim]), if_neg (not_not.2 hcur)]
  | cons k xs ih =>
    obtain ⟨⟨hne, hlead⟩, hxs⟩ := List.forall_mem_cons.1 hx
    rw [← hcur] at hlead
    rw [List.length_cons] at hr
    obtain ⟨t, hrun, ht, htcur, htpay, he⟩ :=
      dtwRun_decodes_symbol hs hu ha hne hlead.onWalk hlead.leaf hpay (by omega)
    rw [hlead.sym] at he
    have hroot : t.root = s.root := by rw [he.frame]
    have hnode : t.node = s.node := by rw [he.frame]
    have hocap : t.ocap = s.ocap := by rw [he.frame]
    have hcount := he.count
    rw [List.length_singleton] at hcount
    obtain ⟨u, hrun', he'⟩ := ih ht ((he.flag _).trans hu) ((he.flag _).trans ha) (htcur.trans hroot.symm)
      (by rwa [hnode, hroot]) htpay (by omega)
    exact ⟨u, hrun.trans hrun', he.trans he'⟩

/-- The code of every input byte leads to its leaf, in any node memory that holds the tree as it is described. -/
theorem Coding.leads {m : Vector Node 512} {i : NodeIdx} (hc : Coding x y acc) (hy : TreeAt m i y.unweighted) :
    ∀ k ∈ x, codeString (codeOf acc.table k) ≠ [] ∧ Leads m i (codeString (codeOf acc.table k)) k := by
  intro k hk
  obtain ⟨hcode, w, hl⟩ := hc.coded k hk
  refine ⟨fun e => hcode (BitVec.eq_of_toNat_eq ?_),
    hy.leads (Tree.mem_leaves_unweighted hl) (y.depth_unweighted.trans_le hc.readable.1.2.1)⟩
  simpa [codeString] using congrArg List.length e

/-- The walker, armed at the root of the tree with nothing written, decodes the payload (R255). -/
theorem walker_decodes (hc : Coding x y acc) (h : Ready y.unweighted s t) (h0 : wbits t = 0)
    (hp : payloadBits t = payload acc.table x) (hx : x.length ≤ t.ocap) :
    ∃ u, (seqCmd .dtwRun >>= fun _ => takeOutput) t = (.ok x, u) := by
  have hok := stateOk_tick h.ok
  obtain ⟨u, he, hem⟩ := dtwRun_decodes_paths (s := tick t) hok h.unlocked h.armed h.atRoot (hc.leads h.tree) hp
    (show wbits t + 8 * x.length ≤ 8 * t.ocap by omega)
  have hok' := stateOk_exec hok he
  have hcount : wbits u = 0 + 8 * x.length := by rw [hem.count, ← h0]; rfl
  have hwcnt := (writer_empty_of_wholeBytes hok'.writer.1 (show wbits u % 8 = 0 by omega)).1
  obtain ⟨b, r, htake, hb⟩ := takeOutput_takes hok'.writer hwcnt
  have hout : outputBits u = x.flatMap byteBits := by
    rw [hem.stream, outputBits_of_empty (s := tick t) h0, List.nil_append]
  obtain rfl := eq_of_flatMap_byteBits (hb.trans hout)
  exact ⟨_, (seq_bind_ok (seqCmd_respond rfl he)).trans htake⟩

/-- DECOMPRESS reads the tree, the padding and the payload back (R255). -/
theorem readTreeAndPayload_decodes {P : Nat} (hc : Coding x y acc) (hs : StateOk s) (hu : Unlocked s)
    (h0 : wbits s = 0) (hP : P < 8) (hx : x.length ≤ s.ocap)
    (hp : payloadBits s = y.bits ++ (msbFirst 3 P ++ (payload acc.table x ++ List.replicate P false))) :
    ∃ t, readTreeAndPayload s = (.ok x, t) := by
  obtain ⟨t₁, hget, hpar⟩ := getTree_reads hc.readable hu hs.reader hp
  have hp₁ := hpar.payload.symm.trans hp
  rw [Tree.bits_unweighted] at hp₁
  obtain ⟨t₂, hpad, htook⟩ := getbits_takes (n := 3) hpar.unlocked hpar.reader (by decide)
    (List.append_cancel_left hp₁) (msbFirst_length 3 P)
  have hp₂ := htook.payload.symm.trans (List.append_cancel_left hp₁)
  obtain ⟨hcount, -⟩ := toNat_padCount (msbFirst_length 3 P)
  have hP' : bitsValue (msbFirst 3 P) = P := (bitsValue_msbFirst 3 P).trans (Nat.mod_eq_of_lt hP)
  rw [hP'] at hcount hpad
  have hu₂ := htook.unlocked hpar.unlocked
  obtain ⟨v, t₃, htrim, htrimmed, hp₃⟩ := trim_takes (p := (BitVec.ofNat 64 P).setWidth 8) (htook.keeps (hpar.keeps hs))
    hu₂ (hcount.trans_lt hP) (by rw [hcount]; exact List.append_cancel_left hp₂)
  have htree : TreeAt t₃.node (BitVec.ofNat 9 0) y.unweighted := by
    rw [htrimmed.frame, htook.frame]; exact hpar.treeAt
  obtain ⟨l, r, hbranch⟩ := hc.readable.1.1
  obtain ⟨w, c, t₄, hwrite, hstart, hready⟩ := walker_starts htrimmed.ok (htrimmed.unlocked hu₂) htree
    ⟨l.unweighted, r.unweighted, by rw [hbranch]; rfl⟩
  obtain ⟨u, hrun⟩ := walker_decodes hc hready
    (by rw [hready.frame, htrimmed.frame, htook.frame, hpar.frame]; exact h0)
    (by rw [hready.frame]; exact hp₃)
    (by rw [hready.frame, htrimmed.frame, htook.frame, hpar.frame]; exact hx)
  exact ⟨u, (seq_bind_ok hget).trans ((seq_bind_ok hpad).trans ((seq_bind_ok htrim).trans
    ((seq_bind_ok hwrite).trans ((seq_bind_ok hstart).trans hrun))))⟩

end

/-! ### The first bit (R236, R256) -/

section
variable {s t : State} {bs rest : List Bool} {m : Nat}

/-- Behind a 0 bit comes a tree. -/
theorem readArchive_tree (hu : Unlocked s) (hr : ReaderOk s) (hp : payloadBits s = false :: rest) :
    ∃ t, Took [false] s t ∧ payloadBits t = rest ∧ readArchive m s = readTreeAndPayload t := by
  obtain ⟨t, h1, ht⟩ := getbits_takes (bs := [false]) (n := 1) hu hr (by decide) hp rfl
  refine ⟨t, ht, (List.cons.inj (hp.symm.trans ht.payload)).2.symm, (seq_bind_ok h1).trans ?_⟩
  exact congrFun (if_neg (by decide)) t

/-- Behind a 1 bit comes nothing, in an archive of one byte whose other bits are 0. -/
theorem readArchive_empty (hu : Unlocked s) (hr : ReaderOk s) (hl : bs.length = 7)
    (hp : payloadBits s = true :: (bs ++ rest)) :
    ∃ t, readArchive m s = if m = 1 ∧ bitsValue bs = 0 then (.ok [], t) else (.error .badEmpty, t) := by
  obtain ⟨t, h1, ht⟩ := getbits_takes (bs := [true]) (n := 1) hu hr (by decide) hp rfl
  have hread : readArchive m s = _ := (seq_bind_ok h1).trans ((congrFun (if_pos rfl) t).trans (seq_check ..))
  by_cases hm : m = 1
  · have hp' : payloadBits t = bs ++ rest := (List.cons.inj (hp.symm.trans ht.payload)).2.symm
    obtain ⟨u, h7, -⟩ := getbits_takes (n := 7) (ht.unlocked hu) ht.reader (by decide) hp' hl
    have hlt := bitsValue_lt bs
    rw [hl] at hlt
    have hz : BitVec.ofNat 64 (bitsValue bs) ≠ 0 ↔ bitsValue bs ≠ 0 := by
      rw [ne_eq, ← BitVec.toNat_inj, BitVec.toNat_ofNat, Nat.mod_eq_of_lt (by omega)]
      rfl
    refine ⟨u, hread.trans ((if_neg (not_not.2 hm)).trans ((seq_bind_ok h7).trans ((seq_check ..).trans ?_)))⟩
    by_cases hb : bitsValue bs = 0
    · rw [if_neg (fun h => hz.1 h hb), if_pos ⟨hm, hb⟩]; rfl
    · rw [if_pos (hz.2 hb), if_neg (fun h => hb h.2)]
  · exact ⟨t, hread.trans ((if_pos hm).trans (if_neg fun h => hm h.1).symm)⟩

end

/-! ### The round trip (R258 item 1) -/

section
variable {x a : List Byte} {s : State} {y : Tree} {acc : GenAcc}

/-- DECOMPRESS of an archive on a block with room for it and for its input (R258 item 1). -/
theorem decompress_archive (h : IsArchive x a y acc) (hc : CapacitiesOk s) (ha : a.length ≤ s.icap)
    (hx : x.length ≤ s.ocap) : ∃ t, decompress a s = (.ok x, t) := by
  have hne : a ≠ [] := by
    rintro rfl
    exact List.cons_ne_nil _ _ h.bits.symm
  obtain ⟨t, hopen, he⟩ := decompress_opens hc hne ha
  obtain ⟨u, htook, hp, hread⟩ := readArchive_tree (m := a.length) hopen.unlocked hopen.ok.reader
    (hopen.payload.trans h.bits)
  rw [he, hread]
  exact readTreeAndPayload_decodes h.coding (htook.keeps hopen.ok) (htook.unlocked hopen.unlocked)
    (by rw [htook.frame]; exact hopen.empty) (padCount_lt _ _)
    (by rw [htook.frame]; exact hx.trans_eq hopen.ocap.symm) hp

/-- DECOMPRESS of the byte 0x80 (R236). -/
theorem decompress_empty (hc : CapacitiesOk s) : ∃ t, decompress [0x80] s = (.ok [], t) := by
  obtain ⟨t, hopen, he⟩ := decompress_opens (a := [0x80]) hc (List.cons_ne_nil _ _) hc.2.1
  obtain ⟨u, hu⟩ := readArchive_empty (bs := List.replicate 7 false) (rest := []) (m := 1) hopen.unlocked hopen.ok.reader
    rfl hopen.payload
  exact ⟨u, he.trans hu⟩

/-- Settles O58: the archive is 0x80, or that of `exists_archive`; COMPRESS ends with it (`compress_archive`), and
DECOMPRESS walks its payload back to the input (`decompress_archive`). -/
theorem compressDecompressRoundTrip : Obligations.CompressDecompressRoundTrip := by
  intro x hx
  by_cases hne : x = []
  · subst hne
    exact ⟨[0x80], by simp, fun s hc _ => ⟨compress_nil hc, fun s' hc' _ _ => decompress_empty hc'⟩⟩
  · obtain ⟨a, y, acc, ha⟩ := exists_archive hx hne
    exact ⟨a, ha.length_le, fun s hc hroom =>
      ⟨(compress_archive ha hx hne hc).1 hroom, fun s' hc' hin hout => decompress_archive ha hc' hin hout⟩⟩

end

end Sys2Proof.Machine

namespace Sys2Proof.Machine

/-! ### What DECOMPRESS refuses at the first bits (R244, R256, R258 items 3 and 4) -/

/-- The first m of m + n bits are those of the number without its last n. -/
theorem msbFirst_add (m n v : Nat) : msbFirst (m + n) v = msbFirst m (v / 2 ^ n) ++ msbFirst n v := by
  induction m with
  | zero => simp [msbFirst]
  | succ m ih =>
    rw [Nat.succ_add, msbFirst, msbFirst, ih, Nat.testBit_div_two_pow, List.cons_append]

section
variable {s t : State} {b b' : Byte} {rest : List Byte} {bs bits : List Bool} {e : Failure}

/-- Where Parse refuses the description, so does DECOMPRESS. -/
theorem readTreeAndPayload_of_parse_error (h : parseNode 256 0 parseStart s = (.error e, t)) :
    readTreeAndPayload s = (.error e, t) := seq_bind_error (seq_bind_error h)

/-- A leaf at the root (R244). -/
theorem readTreeAndPayload_rootLeaf (hu : Unlocked s) (hr : ReaderOk s) (hp : payloadBits s = true :: bits) :
    ∃ t, readTreeAndPayload s = (.error .rootLeaf, t) := by
  obtain ⟨t, h1, -⟩ := getbits_takes (bs := [true]) (n := 1) hu hr (by decide) hp rfl
  exact ⟨t, readTreeAndPayload_of_parse_error (parseNode_rootLeaf h1)⟩

/-- A first leaf, left under the root, with a reserved leaf id (R244). -/
theorem readTreeAndPayload_reservedLeaf (hu : Unlocked s) (hr : ReaderOk s) (hl : bs.length = 9)
    (hv : 0x101 ≤ bitsValue bs) (hp : payloadBits s = false :: true :: (bs ++ bits)) :
    ∃ t, readTreeAndPayload s = (.error .reservedLeaf, t) := by
  obtain ⟨s', h1, ht⟩ := getbits_takes (bs := [false]) (n := 1) hu hr (by decide) hp rfl
  have hp' : payloadBits s' = true :: (bs ++ bits) := (List.cons.inj (hp.symm.trans ht.payload)).2.symm
  obtain ⟨-, hreserved, -⟩ := parseNode_refuses 254 1 parseStart.descend (ht.unlocked hu) ht.reader hl hp'
  obtain ⟨t, hleft⟩ := hreserved (by decide) hv
  exact ⟨t, readTreeAndPayload_of_parse_error ((parseNode_inner h1 (by decide)).trans (seq_bind_error hleft))⟩

/-- DECOMPRESS of an archive that fits IBUF reads its bytes (R255). -/
theorem decompress_cons (hc : CapacitiesOk s) (hl : (b :: rest).length ≤ s.icap) : ∃ t, Unlocked t ∧ ReaderOk t
    ∧ payloadBits t = byteBits b ++ rest.flatMap byteBits
    ∧ decompress (b :: rest) s = readArchive (b :: rest).length t := by
  obtain ⟨t, hopen, he⟩ := decompress_opens hc (List.cons_ne_nil b rest) hl
  exact ⟨t, hopen.unlocked, hopen.ok.reader, hopen.payload, he⟩

/-- A first byte of 0x40 to 0x7F: a leaf at the root. -/
theorem decompress_rootLeaf (hc : CapacitiesOk s) (hl : (b :: rest).length ≤ s.icap) (hb : b.toNat / 2 ^ 6 = 1) :
    ∃ t, decompress (b :: rest) s = (.error .rootLeaf, t) := by
  obtain ⟨t, hu, hr, hp, he⟩ := decompress_cons hc hl
  rw [byteBits, msbFirst_add 2 6, hb] at hp
  obtain ⟨u, ht, hp', hread⟩ := readArchive_tree (m := (b :: rest).length) hu hr hp
  rw [he, hread]
  exact readTreeAndPayload_rootLeaf (ht.unlocked hu) ht.reader hp'

/-- A first byte of 0x80 to 0xFF that is not the empty archive. -/
theorem decompress_badEmpty (hc : CapacitiesOk s) (hl : (b :: rest).length ≤ s.icap) (hb : b.toNat / 2 ^ 7 = 1)
    (hne : b :: rest ≠ [0x80]) : ∃ t, decompress (b :: rest) s = (.error .badEmpty, t) := by
  obtain ⟨t, hu, hr, hp, he⟩ := decompress_cons hc hl
  rw [byteBits, msbFirst_add 1 7, hb] at hp
  obtain ⟨u, hread⟩ := readArchive_empty (m := (b :: rest).length) hu hr (msbFirst_length 7 b.toNat) hp
  refine ⟨u, he.trans (hread.trans (if_neg ?_))⟩
  rintro ⟨hlen, hlow⟩
  obtain rfl : rest = [] := List.length_eq_zero_iff.1 (Nat.succ.inj hlen)
  rw [bitsValue_msbFirst] at hlow
  exact hne (congrArg (· :: []) (BitVec.eq_of_toNat_eq (y := 0x80) (by simp; omega)))

/-- A first leaf of reserved leaf id, left under the root. -/
theorem decompress_reservedLeaf (hc : CapacitiesOk s) (hl : (b :: b' :: rest).length ≤ s.icap)
    (hb : b.toNat / 2 ^ 5 = 1) (hv : 0x101 ≤ b.toNat % 2 ^ 5 * 2 ^ 4 + b'.toNat / 2 ^ 4) :
    ∃ t, decompress (b :: b' :: rest) s = (.error .reservedLeaf, t) := by
  obtain ⟨t, hu, hr, hp, he⟩ := decompress_cons hc hl
  have hbits : byteBits b ++ (b' :: rest).flatMap byteBits = false :: false :: true ::
      (msbFirst 5 b.toNat ++ msbFirst 4 (b'.toNat / 2 ^ 4) ++ (msbFirst 4 b'.toNat ++ rest.flatMap byteBits)) := by
    have hstart : msbFirst 3 1 = [false, false, true] := by decide
    rw [List.flatMap_cons, byteBits, msbFirst_add 3 5, hb, byteBits, msbFirst_add 4 4, hstart]
    simp only [List.append_assoc, List.cons_append, List.nil_append]
  rw [hbits] at hp
  obtain ⟨u, ht, hp', hread⟩ := readArchive_tree (m := (b :: b' :: rest).length) hu hr hp
  have hid : bitsValue (msbFirst 5 b.toNat ++ msbFirst 4 (b'.toNat / 2 ^ 4))
      = b.toNat % 2 ^ 5 * 2 ^ 4 + b'.toNat / 2 ^ 4 := by
    have hb' := b'.isLt
    rw [bitsValue_append, bitsValue_msbFirst, bitsValue_msbFirst, msbFirst_length]
    omega
  rw [he, hread]
  exact readTreeAndPayload_reservedLeaf (ht.unlocked hu) ht.reader (by simp) (hv.trans_eq hid.symm) hp'

/-- Settles O57: the empty archive is 0x80 both ways (`compress_nil`, `decompress_empty`), the first bits decide the
foreign starts (`decompress_badEmpty`, `decompress_rootLeaf`, `decompress_reservedLeaf`), and Parse refuses the leaves
(`parseNode_refuses`). -/
theorem emptyArchiveAndForeignStarts : Obligations.EmptyArchiveAndForeignStarts := by
  refine ⟨fun s b rest hc hl => ⟨compress_nil hc, decompress_empty hc, ⟨_, decompress_nil s⟩, fun hlo hhi => ?_,
    fun hb hne => ?_, ?_⟩, ?_⟩
  · exact decompress_rootLeaf hc hl (by omega)
  · exact decompress_badEmpty hc hl (by have := b.isLt; omega) hne
  · rintro b' rest' rfl hb hv
    exact decompress_reservedLeaf hc hl hb hv
  · rintro s n depth v h hu hr - hroom hbit rfl
    have hp := payloadBits_split hroom
    rw [inputBits_succ, hbit] at hp
    exact parseNode_refuses n depth h hu hr (inputBits_length s _ 9) hp

end

end Sys2Proof.Machine

/-! ## The locked state, precise faults and the table of causes (60_exceptions.md R281, R284, R287) -/

namespace Sys2Proof.Machine

/-! ### The locked state (R284) -/

/-- A locked block answers LOCKED to every word but SYS_RESET's, legal or not (R284). -/
theorem runWord_locked {w : Word} {s : State} (hl : s.flag .errf = true) (hw : decode w ≠ some .sysReset) :
    runWord w s = .next (lockedReply s) := by
  cases hd : decode w with
  | none => rw [runWord_undecoded hd, if_pos hl]
  | some i => rw [runWord_decoded s hd, exec_locked hl (ne_of_apply_ne some (hd ▸ hw))]

/-- Settles O15: command words and commands get `lockedReply` (`runWord_locked`, `exec_locked`), host writes are
ignored (`hostWrite_locked`), and a host read consults no flag. -/
theorem lockedBlockIsFrozen : Obligations.LockedBlockIsFrozen := fun _ hl =>
  ⟨fun _ => runWord_locked hl, fun _ => exec_locked hl, fun space i v => hostWrite_locked space i v hl,
    fun _ _ => rfl⟩

/-! ### Precise faults (R287) -/

section
variable {i : Instr} {w : Word} {s t u : State} {c d : Cause}

/-- The response of a fault names the cause raised (R283). -/
theorem cause_of_reply (hr : (raiseFault d w u).reply = faultReply c) : d = c :=
  causeCode_inj (by simpa using hr)

/-- Outside the two cases of R288 a command that faults has made nothing but the fault's record (R287). -/
theorem exec_fault_precise (hu : Unlocked s) (h : exec i s = .next t) (hr : t.reply = faultReply c)
    (hgen : ¬ (i = .ctgGen ∧ c ≠ .noTree)) (hrun : ¬ (i = .dtwRun ∧ c ≠ .notArmed)) :
    t = raiseFault c (encode i) s := by
  obtain ⟨v, u, rfl, -⟩ | ⟨d, u, rfl, -, -, -, hsame⟩ := exec_ends hu h
  · cases hr
  · obtain rfl := cause_of_reply hr
    rw [hsame (by tauto) (by tauto)]

/-- Settles O16: a legal word faults as its command does (`exec_fault_precise`), any other by the fault entry alone
(`runWord_undecoded`); the state asked for is `raiseFault`'s. -/
theorem faultsArePrecise : Obligations.FaultsArePrecise := by
  intro w s t c hu h hr hgen hrun
  suffices t = raiseFault c w s by rw [this]; rfl
  cases hd : decode w with
  | none =>
    rw [runWord_undecoded hd, if_neg (by simp [hu])] at h
    cases h
    rw [cause_of_reply hr]
  | some i =>
    rw [runWord_decoded s hd] at h
    rw [hd, Option.some.injEq] at hgen hrun
    rw [← encode_of_decode hd]
    exact exec_fault_precise hu h hr hgen hrun

/-! ### The table of causes (R281) -/

/-- A fault that raises one of the causes of a list is answered with a cause of the list (R283). -/
theorem mem_of_raised {l : List Cause} (hr : (raiseFault d w u).reply = faultReply c) (hd : d ∈ l) : c ∈ l :=
  cause_of_reply hr ▸ hd

end

/-- Settles O17: row by row, the faults are those of the command's checks (`exec_tbBuild_cases` and its like), of
CTG_GEN's walk (`genTable_error`), of a step (`walkStep_raised`) and of DTW_RUN's loop (`walkLoop_raised`). -/
theorem causesOfEachCommand : Obligations.CausesOfEachCommand := by
  intro i s t c hu hw h hr
  cases i with
  | sysNop => rw [exec_sysNop hu] at h; cases h; cases hr
  | sysReset => rw [exec_sysReset] at h; cases h; cases hr
  | tbBuild =>
    obtain rfl | rfl | ⟨-, -, rfl⟩ := exec_tbBuild_cases hu h
    · exact mem_of_raised hr (by simp)
    · exact mem_of_raised hr (by simp)
    · cases hr
  | tbClrf => rw [exec_tbClrf hu] at h; cases h; cases hr
  | ctgGen =>
    obtain ⟨-, rfl⟩ | ⟨hg, -⟩ := exec_ctgGen_fault hu h hr
    · simp
    · obtain rfl | rfl | rfl := genTable_error hg <;> simp
  | bswInit => rw [exec_bswInit hu] at h; cases h; cases hr
  | bswPutbits n v =>
    obtain ⟨hill, -⟩ | ⟨-, -, rfl⟩ | ⟨-, -, u, -, rfl⟩ := exec_bswPutbits_cases hu h
    · exact absurd hw (ne_true_of_eq_false hill)
    · exact mem_of_raised hr (by simp)
    · cases hr
  | bswPutsym k =>
    obtain rfl | rfl | rfl | ⟨-, -, -, u, -, rfl⟩ := exec_bswPutsym_cases hu h
    · exact mem_of_raised hr (by simp)
    · exact mem_of_raised hr (by simp)
    · exact mem_of_raised hr (by simp)
    · cases hr
  | bswFlush =>
    obtain ⟨u, -, rfl⟩ := exec_bswFlush_cases hu h
    cases hr
  | bsrOpen =>
    obtain ⟨-, rfl⟩ | ⟨-, rfl⟩ := exec_bsrOpen_cases hu h
    · exact mem_of_raised hr (by simp)
    · cases hr
  | bsrGetbits n =>
    obtain ⟨hill, -⟩ | ⟨-, -, rfl⟩ | ⟨-, -, v, -, rfl⟩ := exec_bsrGetbits_cases hu h
    · exact absurd hw (ne_true_of_eq_false hill)
    · exact mem_of_raised hr (by simp)
    · cases hr
  | bsrTrim p =>
    obtain ⟨hill, -⟩ | ⟨-, -, rfl⟩ | ⟨-, -, -, rfl⟩ | ⟨-, -, -, rfl⟩ := exec_bsrTrim_cases hu h
    · exact absurd hw (ne_true_of_eq_false hill)
    · exact mem_of_raised hr (by simp)
    · exact mem_of_raised hr (by simp)
    · cases hr
  | dtwStart =>
    obtain rfl | rfl | ⟨-, -, rfl⟩ := exec_dtwStart_cases hu h
    · exact mem_of_raised hr (by simp)
    · exact mem_of_raised hr (by simp)
    · cases hr
  | dtwStep =>
    obtain ⟨v, u, -, rfl⟩ | ⟨d, hd, rfl⟩ := exec_dtwStep_cases hu h
    · cases hr
    · refine mem_of_raised hr ?_
      obtain ⟨rfl, -⟩ | ⟨rfl, -⟩ | ⟨rfl, -⟩ | ⟨rfl, -⟩ := walkStep_raised hd <;> simp
  | dtwRun =>
    obtain ⟨-, rfl⟩ | ⟨-, u, -, ⟨-, rfl⟩ | ⟨-, rfl⟩⟩ | ⟨ha, d, u, hd, rfl⟩ := exec_dtwRun_cases hu h
    · exact mem_of_raised hr (by simp)
    · exact mem_of_raised hr (by simp)
    · cases hr
    · refine mem_of_raised hr ?_
      obtain ⟨rfl | rfl, -⟩ := walkLoop_raised ha hd <;> simp

end Sys2Proof.Machine
